-- ==== Sys2Proof/Word.lean ====
section
/-!
DEFINITION. The value types of DVQ: bytes, fixed-length byte strings, samples, codes, times, network
addresses, queue names and error codes (10_state.md R21 to R27, R41, R42; 60_exceptions.md R301).
-/

namespace Sys2Proof

/-! ## The sizes that are fields of the configuration (R8; log 11). The other parameters are in Config.lean. -/

/-- `NCS`: the number of callsign code registers. -/
abbrev Config.ncs : Nat := 4

/-- `ADDR_W`: the width of an opaque network address, in bits. -/
abbrev Config.addrW : Nat := 48

/-- `M17_LEN`: the length of an M17Frame, in bytes. -/
abbrev Config.m17Len : Nat := 40

/-! ## Values -/

/-- A byte (R10). Bit 0 is its least significant bit. -/
abbrev Byte := BitVec 8

/-- A 16-bit field: a stream id, a frame number, a CRC, a mode/type (`u16` of R10). -/
abbrev Half := BitVec 16

/-- One audio sample, `s16` (R21). No rule reads its value. -/
abbrev Sample := BitVec 16

/-- A 48-bit callsign code (R36, R92). -/
abbrev Code := BitVec 48

/-- A time, `u64` milliseconds (R42). -/
abbrev Time := BitVec 64

/-- A list of exactly `n` items, item 0 first: the fixed-length byte strings and sample blocks of the spec. -/
structure FixedList (α : Type) (n : Nat) where
  toList : List α
  size   : toList.length = n
deriving DecidableEq, Repr

@[simp] theorem FixedList.length_toList {α : Type} {n : Nat} (x : FixedList α n) :
    x.toList.length = n := x.size

/-- Two fixed lists with the same items are equal. -/
theorem FixedList.ext_toList {α : Type} {n : Nat} {x y : FixedList α n}
    (h : x.toList = y.toList) : x = y := by
  cases x; cases y; cases h; rfl

/-- `n` copies of one item. -/
abbrev FixedList.fill {α : Type} (n : Nat) (a : α) : FixedList α n :=
  ⟨List.replicate n a, List.length_replicate⟩

/-- A byte string of exactly `n` bytes, byte 0 first (R10). -/
abbrev Bytes (n : Nat) := FixedList Byte n

/-- The 160 samples of a frame (R21, `FRAME_SAMPLES` of R7). -/
abbrev Pcm := FixedList Sample 160

/-- The one-byte sequence tag (R23). -/
abbrev Tag := Byte

/-- AudioFrame: 160 samples and a tag (R21). -/
structure AudioFrame where
  pcm : Pcm
  tag : Tag
deriving DecidableEq, Repr

/-- CompressedFrame: 9 opaque bytes and a tag (R22). -/
structure CompressedFrame where
  payload : Bytes 9
  tag     : Tag
deriving DecidableEq, Repr

/-- WirePacket: a byte string of exactly 56 bytes (R24). -/
abbrev WirePacket := Bytes 56

/-- M17Frame: a byte string of exactly `M17_LEN` bytes (R25, R87). -/
abbrev M17Frame := Bytes Config.m17Len

/-- NetAddr: which of the two UDP sockets, and `ADDR_W` opaque bits (R41). -/
structure NetAddr where
  sock : BitVec 1
  addr : BitVec Config.addrW
deriving DecidableEq, Repr, Inhabited

/-- The nine queues, in the order of their ids 0 to 8 (R26). -/
inductive QueueId where
  | aqTx | sqTx | cqTx | oqLoop | oqGw | oqLink | cqRx | sqRx | aqRx
deriving DecidableEq, Repr

/-- An element of some queue (R26): the data lines of a queue port (R95). -/
inductive Elem where
  | audio (f : AudioFrame)
  | tag   (t : Tag)
  | comp  (f : CompressedFrame)
  | wire  (p : WirePacket)
deriving DecidableEq, Repr

/-- The destination of a transmit session and of the outbound queues (R31, R94). -/
inductive Dest where
  | loop | gw | link
deriving DecidableEq, Repr

/-- Which receive entry point delivers a packet: ReceiveFromGateway or ReceiveFromLink (R94, R188). -/
inductive RxSource where
  | gw | link
deriving DecidableEq, Repr

/-- The three registers that `CFG_WR` writes (R30, R94). -/
inductive CfgReg where
  | my8 | rptA | rptB
deriving DecidableEq, Repr

/-- The status of one device transfer (R94 `st`, R142). -/
inductive DevStatus where
  | ok | ioerr
deriving DecidableEq, Repr, Inhabited

/-- The link states (R38). The code 3 is never written, so it has no constructor. -/
inductive LinkState where
  | unlinked | linking | linked
deriving DecidableEq, Repr

/-- The error codes 1 to 9 (R301). -/
inductive ErrCode where
  | len | format | peer | crc | sid | devIo | notOpen | setup | csInvalid
deriving DecidableEq, Repr

/-- The ten agents (R6). -/
inductive Agent where
  | host | cap | enci | enco | fr | rxp | deci | deco | play | gw
deriving DecidableEq, Repr

end Sys2Proof
end

