-- ==== Sys2Proof/Config.lean ====
section
/-!
DEFINITION. The parameters of DVQ (00_scope.md R7, R8, R9); the sizes `NCS`, `ADDR_W` and `M17_LEN`, on which the
types of the model rest, stand in Word.lean. A constant with a value is one the spec
fixes or decides (log 11). An `opaque` constant is one the spec leaves OPEN, or a free draw of the
environment: it has no body, so nothing can be proved of its value (logs 4 and 12).
-/

namespace Sys2Proof

/-! ## Constants the document fixes (R7) -/

/-- `SEQ_MOD`: sequence values cycle 0 to 20. -/
def Config.seqMod : Nat := 21

/-- `CS_BASE`: the alphabet's size. -/
def Config.csBase : Nat := 40

/-- `CS_MAX` = 40^9 - 1, the largest valid callsign code. -/
def Config.csMax : Code := 0xEE6B27FFFFFF#48

/-- `T_PING_MS`: the keepalive time-out. -/
def Config.tPingMs : Nat := 30000

/-- `T_RELAY_MS`: the relay silence time-out. -/
def Config.tRelayMs : Nat := 2000

/-- `CRC_INIT`: the initial CRC register. -/
def Config.crcInit : Half := 0xFFFF#16

/-- `CRC_POLY` 0x1021 with its 16 bits reversed (R180). -/
def Config.crcPolyReflected : Half := 0x8408#16

/-! ## Parameters the spec decides (R8, R85, R87; log 11) -/

/-- `CFG_HDR`: the `config` byte of a header packet. -/
def Config.cfgHdr : Byte := 0x10#8

/-- `CFG_VOICE`: the `config` byte of a voice packet. -/
def Config.cfgVoice : Byte := 0x20#8

/-- `ID_VAL`: the `id` byte of every packet built. -/
def Config.idVal : Byte := 0x20#8

/-- `FLAGS_VAL`: the three `flags` bytes of every packet built. -/
def Config.flagsVal : Bytes 3 := ⟨[0x00#8, 0x00#8, 0x00#8], rfl⟩

/-- `HDR_CTRL`: the `control` byte of a header packet built. -/
def Config.hdrCtrl : Byte := 0x80#8

/-- `SLOW3`: the `slow` bytes of a voice packet built. -/
def Config.slow3 : Bytes 3 := ⟨[0x00#8, 0x00#8, 0x00#8], rfl⟩

/-- The WirePacket magic, ASCII "DSVT" (R82). -/
def Config.wpMagic : Bytes 4 := ⟨[0x44#8, 0x53#8, 0x56#8, 0x54#8], rfl⟩

/-- `M17_MAGIC`, ASCII "M17 " (R87). -/
def Config.m17Magic : Bytes 4 := ⟨[0x4D#8, 0x31#8, 0x37#8, 0x20#8], rfl⟩

/-- The offsets of the fields of a WirePacket (R82 to R84). -/
structure WpOffsets where
  magic     : Nat
  config    : Nat
  id        : Nat
  flags     : Nat
  streamId  : Nat
  control   : Nat
  /-- Header packet. -/
  rptA      : Nat
  rptB      : Nat
  dest      : Nat
  source    : Nat
  hdrRsvd   : Nat
  crc       : Nat
  /-- Voice packet. -/
  payload   : Nat
  slow      : Nat
  voiceRsvd : Nat
deriving DecidableEq, Repr

/-- `WP_OFF`: the fields stand in the listed order with no gap (decision D11), so the packets are built by
joining their fields; Laws/Operands.lean shows that each lies at its offset. -/
abbrev Config.wpOff : WpOffsets where
  magic     := 0
  config    := 4
  id        := 5
  flags     := 6
  streamId  := 9
  control   := 11
  rptA      := 12
  rptB      := 20
  dest      := 28
  source    := 36
  hdrRsvd   := 44
  crc       := 54
  payload   := 12
  slow      := 21
  voiceRsvd := 24

/-- `CRC_SPAN_OFF`: where the 39-byte CRC span of a header packet starts (R83). -/
def Config.crcSpanOff : Nat := 15

/-- `CRC_SPAN_LEN`: the bytes the WirePacket CRC covers (R7). -/
def Config.crcSpanLen : Nat := 39

/-! ## Parameters left OPEN (R8, R9; log 12) -/

/-- `QDEPTH[q]` less one for a queue of finite depth, or none for an unbounded queue. -/
opaque Config.queueDepthLessOne : QueueId → Option Nat

/-- `QDEPTH[q]` (R127): a positive number, or none for unbounded. -/
def Config.queueDepth (q : QueueId) : Option Nat := (Config.queueDepthLessOne q).map (· + 1)

/-- `T_LINK_MS`: the link-establishment time-out. -/
opaque Config.tLinkMs : Nat

/-- Byte `k` of `SILENCE(type)` (R285). -/
opaque Config.silenceByte : Half → Nat → Byte

/-- `ROUTE`: the route table's `find`, fixed for a run (R9). -/
opaque Config.route : Code → Option NetAddr

/-- `REQ_LINK`: the destination's module flag requests linking (R9). -/
opaque Config.reqLink : Code → Bool

/-- `LINK_TARGET`: the reflector a link-requesting destination names (R9). -/
opaque Config.linkTarget : Code → Code

/-- `LINK_MODULE`: the module byte of the CONN datagram (R9). -/
opaque Config.linkModule : Code → Byte

/-- `UNLINK_CODE`: the reserved "unlink" target (R9). -/
opaque Config.unlinkCode : Code

/-! ## Draws of the environment (R142; log 4). The argument is the number of the draw. -/

/-- The status that `send_audio` answers. -/
opaque Config.sendAudioStatus : Nat → DevStatus

/-- The status that `get_data` answers. -/
opaque Config.getDataStatus : Nat → DevStatus

/-- Byte `k` of the payload that `get_data` answers. -/
opaque Config.getDataByte : Nat → Nat → Byte

/-- The status that `send_data` answers. -/
opaque Config.sendDataStatus : Nat → DevStatus

/-- The status that `get_audio` answers. -/
opaque Config.getAudioStatus : Nat → DevStatus

/-- Sample `k` of the period that `get_audio` answers. -/
opaque Config.getAudioSample : Nat → Nat → Sample

/-- The status that the playback device answers (R141, R154). -/
opaque Config.playStatus : Nat → DevStatus

end Sys2Proof
end

