-- ==== Sys2Proof/Machine/Bytes.lean ====
section
/-!
DEFINITION. Byte strings and byte order (00_scope.md R10, R11; 20_memory.md R64).
-/

namespace Sys2Proof

/-- `b[off .. off+len-1]`, a slice of a fixed list (R10). -/
def FixedList.slice {α : Type} {n : Nat} (b : FixedList α n) (off len : Nat)
    (h : off + len ≤ n := by decide) : FixedList α len :=
  ⟨(b.toList.drop off).take len, by simp; omega⟩

/-- The list of the values of `f` at 0 to `n - 1`. -/
def FixedList.tabulate {α : Type} (n : Nat) (f : Nat → α) : FixedList α n :=
  ⟨(List.range n).map f, by simp⟩

/-- The `n` bytes of a number, most significant first. -/
def beBytes : Nat → Nat → List Byte
  | 0, _ => []
  | n + 1, v => BitVec.ofNat 8 (v / 256 ^ n) :: beBytes n v

/-- The number that a byte string spells, most significant byte first. -/
def beNat (b : List Byte) : Nat := b.foldl (fun v x => v * 256 + x.toNat) 0

theorem beBytes_length (n v : Nat) : (beBytes n v).length = n := by
  induction n with
  | zero => rfl
  | succ n ih => simp [beBytes, ih]

/-- `be16` (R11). -/
def be16 (v : Half) : Bytes 2 := ⟨beBytes 2 v.toNat, beBytes_length 2 _⟩

/-- `le16` (R11): low byte first. -/
def le16 (v : Half) : Bytes 2 := ⟨(beBytes 2 v.toNat).reverse, by simp [beBytes_length]⟩

/-- `be48` (R11). -/
def be48 (v : Code) : Bytes 6 := ⟨beBytes 6 v.toNat, beBytes_length 6 _⟩

/-- A time as 8 bytes, most significant first (R94 `now`). -/
def be64 (v : Time) : Bytes 8 := ⟨beBytes 8 v.toNat, beBytes_length 8 _⟩

/-- `from_be16` (R11). -/
def fromBe16 (b : Bytes 2) : Half := BitVec.ofNat 16 (beNat b.toList)

/-- `from_le16` (R11). -/
def fromLe16 (b : Bytes 2) : Half := BitVec.ofNat 16 (beNat b.toList.reverse)

/-- `from_be48` (R11). -/
def fromBe48 (b : Bytes 6) : Code := BitVec.ofNat 48 (beNat b.toList)

/-- The inverse of `be64`. -/
def fromBe64 (b : Bytes 8) : Time := BitVec.ofNat 64 (beNat b.toList)

/-- The bytes of samples, each big-endian (R94 `pcm`). -/
def sampleBytes : List Sample → List Byte
  | [] => []
  | x :: xs => x.extractLsb' 8 8 :: x.extractLsb' 0 8 :: sampleBytes xs

/-- The samples that big-endian byte pairs spell (R94 `pcm`). -/
def bytesSamples : List Byte → List Sample
  | hi :: lo :: rest => (hi ++ lo) :: bytesSamples rest
  | _ => []

theorem sampleBytes_length (l : List Sample) : (sampleBytes l).length = 2 * l.length := by
  induction l with
  | nil => rfl
  | cons x xs ih => simp [sampleBytes, ih]; omega

theorem bytesSamples_length : ∀ l : List Byte, (bytesSamples l).length = l.length / 2
  | [] => rfl
  | [_] => by simp [bytesSamples]
  | _ :: _ :: rest => by simp only [bytesSamples, List.length_cons, bytesSamples_length rest]; omega

/-- A period of 160 samples as 320 bytes (R94 `pcm`). -/
def pcmBytes (p : Pcm) : Bytes 320 := ⟨sampleBytes p.toList, by simp [sampleBytes_length]⟩

/-- The period that 320 bytes spell (R94 `pcm`). -/
def bytesPcm (b : Bytes 320) : Pcm := ⟨bytesSamples b.toList, by simp [bytesSamples_length]⟩

/-- The first `n` bytes of a string and the rest, where it has that many. -/
def takeBytes (n : Nat) (l : List Byte) : Option (Bytes n × List Byte) :=
  if h : n ≤ l.length then some (⟨l.take n, by simp [h]⟩, l.drop n) else none

end Sys2Proof
end

