-- ==== Sys2Proof/Syntax.lean ====
section
/-!
DEFINITION. The operations of DVQ: one constructor per row of spec/opcode_table.json (30_encoding.md
R95, R96). Operands are already decoded: an illegal operand value (R94) has no term here.
-/

namespace Sys2Proof

/-- The operations of R96, and `Q_NOP` of R95. A datagram row carries the operands `now` and `src` of
the `UDP_RX` that encloses it (R232). -/
inductive Instr where
  /-- `RESET`, OPC 00 (R330). -/
  | reset
  /-- `START_TX`, OPC 01 (R143). -/
  | startTx (dest : Dest) (ur : Bytes 8) (sid : Half)
  /-- `STOP_TX`, OPC 02 (R144). -/
  | stopTx
  /-- `START_PLAYBACK`, OPC 03 (R145). -/
  | startPlayback
  /-- `RX_PACKET`, OPC 04 (R188). -/
  | rxPacket (src : RxSource) (pkt : WirePacket)
  /-- `DEV_OPEN`, OPC 05 (R146). -/
  | devOpen
  /-- `DEV_CLOSE`, OPC 06 (R147). -/
  | devClose
  /-- `CFG_WR`, OPC 07 (R148). -/
  | cfgWr (reg : CfgReg) (val : Bytes 8)
  /-- `OQ_POP`, OPC 08 (R130). -/
  | oqPop (dest : Dest)
  /-- `CS_ENC`, OPC 10 (R213). The index is below `NCS`. -/
  | csEnc (idx : Fin Config.ncs) (str : Bytes 9)
  /-- `CS_LOAD`, OPC 11 (R214). -/
  | csLoad (idx : Fin Config.ncs) (code : Code)
  /-- `CS_DEC`, OPC 12 (R215). -/
  | csDec (idx : Fin Config.ncs)
  /-- `CS_EQ`, OPC 13 (R216). -/
  | csEq (i j : Fin Config.ncs)
  /-- `GW_INIT`, OPC 20 (R231): true for a resource that opened. -/
  | gwInit (s0 s1 ch : Bool)
  /-- `LINK_REQ`, OPC 21 (R234). -/
  | linkReq (now : Time) (code : Code) (modByte : Byte)
  /-- `UNLINK_REQ`, OPC 22 (R243). -/
  | unlinkReq (now : Time)
  /-- `CAP_TICK`, OPC 30 (R149). -/
  | capTick (st : DevStatus) (pcm : Pcm)
  /-- `UDP_RX`, OPC 31 (R232). The operand `len` is the length of the datagram. -/
  | udpRx (now : Time) (sock : BitVec 1) (addr : BitVec Config.addrW) (datagram : List Byte)
  /-- `LOCAL_RX`, OPC 32 (R260). The operand `len` is the length of the message. -/
  | localRx (now : Time) (message : List Byte)
  /-- `TICK`, OPC 33 (R241). -/
  | tick (now : Time)
  /-- `ENCI_STEP`, OPC 40 (R150). -/
  | enciStep
  /-- `ENCO_STEP`, OPC 41 (R151). -/
  | encoStep
  /-- `FR_HDR`, OPC 42 (R186). -/
  | frHdr
  /-- `FR_VOICE`, OPC 43 (R187). -/
  | frVoice
  /-- `DECI_STEP`, OPC 44 (R152). -/
  | deciStep
  /-- `DECO_STEP`, OPC 45 (R153). -/
  | decoStep
  /-- `PLAY_STEP`, OPC 46 (R154). -/
  | playStep
  /-- `ACKN`, datagram 41 43 4B 4E (R88, R235). -/
  | ackn (now : Time) (src : NetAddr)
  /-- `NACK`, datagram 4E 41 43 4B (R88, R236). -/
  | nack (now : Time) (src : NetAddr)
  /-- `DISC4`, datagram 44 49 53 43 (R88, R237). -/
  | disc4 (now : Time) (src : NetAddr)
  /-- `PING`, datagram 50 49 4E 47 and a code that is not examined (R89, R238). -/
  | ping (now : Time) (src : NetAddr) (code : Code)
  /-- `DISC10`, datagram 44 49 53 43 and a code that is not examined (R89, R239). -/
  | disc10 (now : Time) (src : NetAddr) (code : Code)
  /-- `M17_RX`, any datagram of 40 bytes (R91, R281). -/
  | m17Rx (now : Time) (src : NetAddr) (frame : M17Frame)
  /-- `DG_UNKNOWN`, every other datagram (R91, R240). -/
  | dgUnknown (now : Time) (src : NetAddr) (datagram : List Byte)
  /-- `Q_NOP`, queue port 00 (R95): no request. -/
  | qNop (q : QueueId)
  /-- `Q_PUSH`, queue port 01 (R122). -/
  | qPush (q : QueueId) (e : Elem)
  /-- `Q_POP`, queue port 10 (R123). -/
  | qPop (q : QueueId)
  /-- `Q_CLR`, queue port 11 (R125). -/
  | qClr (q : QueueId)
deriving DecidableEq, Repr

/-- One operation as it is presented to DVQ: a command, event or stage grant as bytes (R93), or a
request on the port of one queue with what its data lines carry (R95). -/
inductive Request where
  | cmd  (bytes : List Byte)
  | port (q : QueueId) (op : BitVec 2) (data : Option Elem)
deriving DecidableEq, Repr

/-- What a received datagram decodes to (R91). -/
inductive Datagram where
  | ackn
  | nack
  | disc4
  | ping (code : Code)
  | disc10 (code : Code)
  | m17 (frame : M17Frame)
  | unknown (bytes : List Byte)
deriving DecidableEq, Repr

/-- Why a request names no operation (R97, R309; logs 7 and 10). The machine `refuse`s each of them. -/
inductive DecodeError where
  /-- A request of no bytes. -/
  | empty
  /-- An opcode byte that R96 does not list (R97). -/
  | reservedOpcode (opc : Byte)
  /-- An operand value that R94 calls illegal; the name is the operand's. -/
  | illegalOperand (operand : String)
  /-- Fewer bytes than the operation's length (R93). -/
  | truncated
  /-- More bytes than the operation's length (R93). -/
  | trailingBytes
  /-- A `Q_PUSH` whose data lines carry no element of the queue's type (R122). -/
  | wrongElement
deriving DecidableEq, Repr

end Sys2Proof
end

