-- ==== Sys2Proof/WellFormed.lean ====
section
/-!
DEFINITION. Which terms of `Instr` an encoding can present. Operands of a fixed size carry their size in
their type, so four checks remain: the 16-bit length of a datagram and of a message (R94 `len`), the
class of a datagram that is `DG_UNKNOWN` (R91), and the type of a pushed element (R26, R122).
-/

namespace Sys2Proof

/-- The element is of the queue's type (R26). -/
def Elem.fits : QueueId → Elem → Bool
  | .aqTx, .audio _ => true
  | .aqRx, .audio _ => true
  | .sqTx, .tag _ => true
  | .sqRx, .tag _ => true
  | .cqTx, .comp _ => true
  | .cqRx, .comp _ => true
  | .oqLoop, .wire _ => true
  | .oqGw, .wire _ => true
  | .oqLink, .wire _ => true
  | _, _ => false

/-- The tag bytes of the control datagrams (R88, R89). -/
def tagAckn : List Byte := [0x41#8, 0x43#8, 0x4B#8, 0x4E#8]
def tagNack : List Byte := [0x4E#8, 0x41#8, 0x43#8, 0x4B#8]
def tagDisc : List Byte := [0x44#8, 0x49#8, 0x53#8, 0x43#8]
def tagPing : List Byte := [0x50#8, 0x49#8, 0x4E#8, 0x47#8]
def tagPong : List Byte := [0x50#8, 0x4F#8, 0x4E#8, 0x47#8]
def tagConn : List Byte := [0x43#8, 0x4F#8, 0x4E#8, 0x4E#8]

/-- R91 gives the datagram to `DG_UNKNOWN`: its length is not 4, 10 or 40, or its tag is unlisted. -/
def isUnknownDatagram (d : List Byte) : Bool :=
  if d.length = 4 then !(d == tagAckn || d == tagNack || d == tagDisc)
  else if d.length = 10 then !(d.take 4 == tagPing || d.take 4 == tagDisc)
  else !(d.length == Config.m17Len)

/-- A length that the 16-bit operand `len` can hold (R94). -/
def fitsLen (d : List Byte) : Bool := decide (d.length < 65536)

/-- The well-formed operations. -/
def Instr.wf : Instr → Bool
  | .udpRx _ _ _ d => fitsLen d
  | .localRx _ m => fitsLen m
  | .dgUnknown _ _ d => fitsLen d && isUnknownDatagram d
  | .qPush q e => e.fits q
  | .reset | .startTx .. | .stopTx | .startPlayback | .rxPacket .. | .devOpen | .devClose | .cfgWr ..
  | .oqPop .. | .csEnc .. | .csLoad .. | .csDec .. | .csEq .. | .gwInit .. | .linkReq .. | .unlinkReq ..
  | .capTick .. | .tick .. | .enciStep | .encoStep | .frHdr | .frVoice | .deciStep | .decoStep | .playStep
  | .ackn .. | .nack .. | .disc4 .. | .ping .. | .disc10 .. | .m17Rx .. | .qNop .. | .qPop .. | .qClr .. => true

end Sys2Proof
end

