-- ==== Sys2Proof/Decode.lean ====
section
/-!
DEFINITION. Decoding a presented operation (30_encoding.md R93 to R97) and a received datagram (R91), and
the encoder written from the same tables. Both decoders are total.
-/

namespace Sys2Proof

/-! ## Operand encodings (R94) -/

/-- The code of a destination (R94 `dest`, R31). -/
def Dest.code : Dest → Byte
  | .loop => 0#8
  | .gw => 1#8
  | .link => 2#8

def Dest.ofCode (b : Byte) : Option Dest :=
  match b.toNat with
  | 0 => some .loop
  | 1 => some .gw
  | 2 => some .link
  | _ => none

/-- The code of a packet source (R94 `src`). -/
def RxSource.code : RxSource → Byte
  | .gw => 0#8
  | .link => 1#8

def RxSource.ofCode (b : Byte) : Option RxSource :=
  match b.toNat with
  | 0 => some .gw
  | 1 => some .link
  | _ => none

/-- The register number of a configuration register (R46). -/
def CfgReg.code : CfgReg → Byte
  | .my8 => 0x00#8
  | .rptA => 0x01#8
  | .rptB => 0x02#8

def CfgReg.ofCode (b : Byte) : Option CfgReg :=
  match b.toNat with
  | 0 => some .my8
  | 1 => some .rptA
  | 2 => some .rptB
  | _ => none

/-- The code of a device status (R94 `st`). -/
def DevStatus.code : DevStatus → Byte
  | .ok => 0#8
  | .ioerr => 1#8

def DevStatus.ofCode (b : Byte) : Option DevStatus :=
  match b.toNat with
  | 0 => some .ok
  | 1 => some .ioerr
  | _ => none

/-- The code of a resource operand of `GW_INIT` (R94 `s0`, `s1`, `ch`). -/
def flagCode (b : Bool) : Byte := if b then 1#8 else 0#8

def flagOfCode (b : Byte) : Option Bool :=
  match b.toNat with
  | 0 => some false
  | 1 => some true
  | _ => none

/-- The byte of a socket operand (R94 `sock`: 0 or 1). -/
def sockCode (s : BitVec 1) : Byte := if s = 1#1 then 1#8 else 0#8

/-- The socket of a byte. R94 says only "0 or 1" and does not say what another byte does; the model refuses it
as an illegal operand. DESIGN CHOICE, safe (log 25). -/
def sockOfCode (b : Byte) : Option (BitVec 1) :=
  match b.toNat with
  | 0 => some 0#1
  | 1 => some 1#1
  | _ => none

/-- The byte of a callsign register index (R94 `idx`, `i`, `j`). -/
def indexCode (i : Fin Config.ncs) : Byte := BitVec.ofNat 8 i.val

def indexOfCode (b : Byte) : Option (Fin Config.ncs) :=
  if h : b.toNat < Config.ncs then some ⟨b.toNat, h⟩ else none

/-! ## Reading operands off a byte string. A reader answers the operand and the bytes after it. -/

/-- The next byte. -/
def readByte : List Byte → Except DecodeError (Byte × List Byte)
  | [] => .error .truncated
  | b :: r => .ok (b, r)

/-- The next `n` bytes. -/
def readBytes (n : Nat) (l : List Byte) : Except DecodeError (Bytes n × List Byte) :=
  match takeBytes n l with
  | none => .error .truncated
  | some x => .ok x

/-- A one-byte operand whose legal codes `f` knows (R94). -/
def readCoded {α : Type} (name : String) (f : Byte → Option α) (l : List Byte) : Except DecodeError (α × List Byte) := do
  let (b, r) ← readByte l
  match f b with
  | some x => .ok (x, r)
  | none => .error (.illegalOperand name)

/-- A 16-bit big-endian operand (`sid`, `len`). -/
def readHalf (l : List Byte) : Except DecodeError (Half × List Byte) := do
  let (b, r) ← readBytes 2 l
  .ok (fromBe16 b, r)

/-- A 48-bit operand (`code`, `addr`). -/
def readCode (l : List Byte) : Except DecodeError (Code × List Byte) := do
  let (b, r) ← readBytes 6 l
  .ok (fromBe48 b, r)

/-- The operand `now`. -/
def readTime (l : List Byte) : Except DecodeError (Time × List Byte) := do
  let (b, r) ← readBytes 8 l
  .ok (fromBe64 b, r)

/-- The operand `len` and the bytes it counts. -/
def readCounted (l : List Byte) : Except DecodeError (List Byte × List Byte) := do
  let (n, r) ← readHalf l
  if n.toNat ≤ r.length then .ok (r.take n.toNat, r.drop n.toNat) else .error .truncated

/-- The operation `i`, where no byte is left over. -/
def finish (r : List Byte) (i : Instr) : Except DecodeError Instr :=
  match r with
  | [] => .ok i
  | _ :: _ => .error .trailingBytes

/-! ## The command decoder (R93, R96) -/

/-- The operation with opcode `opc` and operand bytes `l`. -/
def decodeOperands (opc : Byte) (l : List Byte) : Except DecodeError Instr :=
  match opc.toNat with
  | 0x00 => finish l .reset
  | 0x01 => do
    let (dest, l) ← readCoded "dest" Dest.ofCode l
    let (ur, l) ← readBytes 8 l
    let (sid, l) ← readHalf l
    finish l (.startTx dest ur sid)
  | 0x02 => finish l .stopTx
  | 0x03 => finish l .startPlayback
  | 0x04 => do
    let (src, l) ← readCoded "src" RxSource.ofCode l
    let (pkt, l) ← readBytes 56 l
    finish l (.rxPacket src pkt)
  | 0x05 => finish l .devOpen
  | 0x06 => finish l .devClose
  | 0x07 => do
    let (reg, l) ← readCoded "reg" CfgReg.ofCode l
    let (val, l) ← readBytes 8 l
    finish l (.cfgWr reg val)
  | 0x08 => do
    let (dest, l) ← readCoded "dest" Dest.ofCode l
    finish l (.oqPop dest)
  | 0x10 => do
    let (idx, l) ← readCoded "idx" indexOfCode l
    let (str, l) ← readBytes 9 l
    finish l (.csEnc idx str)
  | 0x11 => do
    let (idx, l) ← readCoded "idx" indexOfCode l
    let (code, l) ← readCode l
    finish l (.csLoad idx code)
  | 0x12 => do
    let (idx, l) ← readCoded "idx" indexOfCode l
    finish l (.csDec idx)
  | 0x13 => do
    let (i, l) ← readCoded "i" indexOfCode l
    let (j, l) ← readCoded "j" indexOfCode l
    finish l (.csEq i j)
  | 0x20 => do
    let (s0, l) ← readCoded "s0" flagOfCode l
    let (s1, l) ← readCoded "s1" flagOfCode l
    let (ch, l) ← readCoded "ch" flagOfCode l
    finish l (.gwInit s0 s1 ch)
  | 0x21 => do
    let (now, l) ← readTime l
    let (code, l) ← readCode l
    let (modByte, l) ← readByte l
    finish l (.linkReq now code modByte)
  | 0x22 => do
    let (now, l) ← readTime l
    finish l (.unlinkReq now)
  | 0x30 => do
    let (st, l) ← readCoded "st" DevStatus.ofCode l
    let (pcm, l) ← readBytes 320 l
    finish l (.capTick st (bytesPcm pcm))
  | 0x31 => do
    let (now, l) ← readTime l
    let (sock, l) ← readCoded "sock" sockOfCode l
    let (addr, l) ← readCode l
    let (d, l) ← readCounted l
    finish l (.udpRx now sock addr d)
  | 0x32 => do
    let (now, l) ← readTime l
    let (m, l) ← readCounted l
    finish l (.localRx now m)
  | 0x33 => do
    let (now, l) ← readTime l
    finish l (.tick now)
  | 0x40 => finish l .enciStep
  | 0x41 => finish l .encoStep
  | 0x42 => finish l .frHdr
  | 0x43 => finish l .frVoice
  | 0x44 => finish l .deciStep
  | 0x45 => finish l .decoStep
  | 0x46 => finish l .playStep
  | _ => .error (.reservedOpcode opc)

/-- The operation that the bytes of a command, event or stage grant present (R93). -/
def decodeCmd : List Byte → Except DecodeError Instr
  | [] => .error .empty
  | opc :: l => decodeOperands opc l

/-- The operation that a request on the port of queue `q` presents (R95). -/
def decodePort (q : QueueId) (op : BitVec 2) (data : Option Elem) : Except DecodeError Instr :=
  match op.toNat with
  | 0 => .ok (.qNop q)
  | 1 =>
    match data with
    | some e => if e.fits q then .ok (.qPush q e) else .error .wrongElement
    | none => .error .wrongElement
  | 2 => .ok (.qPop q)
  | _ => .ok (.qClr q)

/-- The decoder of a presented operation. -/
def decode : Request → Except DecodeError Instr
  | .cmd bytes => decodeCmd bytes
  | .port q op data => decodePort q op data

/-! ## The datagram decoder (R91) -/

/-- What a received datagram decodes to, by length first and then by tag (R91). -/
def classifyDatagram (d : List Byte) : Datagram :=
  if d.length = 4 then
    if d = tagAckn then .ackn
    else if d = tagNack then .nack
    else if d = tagDisc then .disc4
    else .unknown d
  else if h : d.length = 10 then
    if d.take 4 = tagPing then .ping (fromBe48 ⟨d.drop 4, by simp [h]⟩)
    else if d.take 4 = tagDisc then .disc10 (fromBe48 ⟨d.drop 4, by simp [h]⟩)
    else .unknown d
  else if h : d.length = Config.m17Len then .m17 ⟨d, h⟩
  else .unknown d

/-- The row of the operation table that handles a datagram inside the `UDP_RX` with operands `now` and
`src` (R232). -/
def Datagram.toInstr (now : Time) (src : NetAddr) : Datagram → Instr
  | .ackn => .ackn now src
  | .nack => .nack now src
  | .disc4 => .disc4 now src
  | .ping code => .ping now src code
  | .disc10 code => .disc10 now src code
  | .m17 frame => .m17Rx now src frame
  | .unknown d => .dgUnknown now src d

/-- The decoder of a datagram: every byte string decodes to exactly one row (R91). -/
def decodeDatagram (now : Time) (src : NetAddr) (d : List Byte) : Instr :=
  (classifyDatagram d).toInstr now src

/-! ## The encoder (R93 to R96, R88 to R91) -/

/-- The bytes of `UDP_RX` (R96). -/
def udpRxBytes (now : Time) (sock : BitVec 1) (addr : BitVec Config.addrW) (d : List Byte) : List Byte :=
  0x31#8 :: ((be64 now).toList ++ sockCode sock :: ((be48 addr).toList ++
    ((be16 (BitVec.ofNat 16 d.length)).toList ++ d)))

/-- The datagram of a row that a datagram encodes (R88 to R91); no other operation has one. -/
def datagramBytes : Instr → Option (List Byte)
  | .ackn .. => some tagAckn
  | .nack .. => some tagNack
  | .disc4 .. => some tagDisc
  | .ping _ _ code => some (tagPing ++ (be48 code).toList)
  | .disc10 _ _ code => some (tagDisc ++ (be48 code).toList)
  | .m17Rx _ _ frame => some frame.toList
  | .dgUnknown _ _ d => some d
  | .reset | .startTx .. | .stopTx | .startPlayback | .rxPacket .. | .devOpen | .devClose | .cfgWr ..
  | .oqPop .. | .csEnc .. | .csLoad .. | .csDec .. | .csEq .. | .gwInit .. | .linkReq .. | .unlinkReq ..
  | .capTick .. | .udpRx .. | .localRx .. | .tick .. | .enciStep | .encoStep | .frHdr | .frVoice | .deciStep
  | .decoStep | .playStep | .qNop .. | .qPush .. | .qPop .. | .qClr .. => none

/-- The request that presents an operation. A datagram row is presented by the `UDP_RX` that carries its
datagram (R232; log 8). -/
def encode : Instr → Request
  | .reset => .cmd [0x00#8]
  | .startTx dest ur sid => .cmd (0x01#8 :: dest.code :: (ur.toList ++ (be16 sid).toList))
  | .stopTx => .cmd [0x02#8]
  | .startPlayback => .cmd [0x03#8]
  | .rxPacket src pkt => .cmd (0x04#8 :: src.code :: pkt.toList)
  | .devOpen => .cmd [0x05#8]
  | .devClose => .cmd [0x06#8]
  | .cfgWr reg val => .cmd (0x07#8 :: reg.code :: val.toList)
  | .oqPop dest => .cmd [0x08#8, dest.code]
  | .csEnc idx str => .cmd (0x10#8 :: indexCode idx :: str.toList)
  | .csLoad idx code => .cmd (0x11#8 :: indexCode idx :: (be48 code).toList)
  | .csDec idx => .cmd [0x12#8, indexCode idx]
  | .csEq i j => .cmd [0x13#8, indexCode i, indexCode j]
  | .gwInit s0 s1 ch => .cmd [0x20#8, flagCode s0, flagCode s1, flagCode ch]
  | .linkReq now code modByte => .cmd (0x21#8 :: ((be64 now).toList ++ ((be48 code).toList ++ [modByte])))
  | .unlinkReq now => .cmd (0x22#8 :: (be64 now).toList)
  | .capTick st pcm => .cmd (0x30#8 :: st.code :: (pcmBytes pcm).toList)
  | .udpRx now sock addr d => .cmd (udpRxBytes now sock addr d)
  | .localRx now m =>
    .cmd (0x32#8 :: ((be64 now).toList ++ ((be16 (BitVec.ofNat 16 m.length)).toList ++ m)))
  | .tick now => .cmd (0x33#8 :: (be64 now).toList)
  | .enciStep => .cmd [0x40#8]
  | .encoStep => .cmd [0x41#8]
  | .frHdr => .cmd [0x42#8]
  | .frVoice => .cmd [0x43#8]
  | .deciStep => .cmd [0x44#8]
  | .decoStep => .cmd [0x45#8]
  | .playStep => .cmd [0x46#8]
  | .ackn now src => .cmd (udpRxBytes now src.sock src.addr tagAckn)
  | .nack now src => .cmd (udpRxBytes now src.sock src.addr tagNack)
  | .disc4 now src => .cmd (udpRxBytes now src.sock src.addr tagDisc)
  | .ping now src code => .cmd (udpRxBytes now src.sock src.addr (tagPing ++ (be48 code).toList))
  | .disc10 now src code => .cmd (udpRxBytes now src.sock src.addr (tagDisc ++ (be48 code).toList))
  | .m17Rx now src frame => .cmd (udpRxBytes now src.sock src.addr frame.toList)
  | .dgUnknown now src d => .cmd (udpRxBytes now src.sock src.addr d)
  | .qNop q => .port q 0#2 none
  | .qPush q e => .port q 1#2 (some e)
  | .qPop q => .port q 2#2 none
  | .qClr q => .port q 3#2 none

/-! ## Words of the operation table (log 9) -/

/-- The `n` bytes of a number, least significant first: the numbering of the table's byte rows. -/
def wordBytes : Nat → Nat → List Byte
  | 0, _ => []
  | n + 1, w => BitVec.ofNat 8 w :: wordBytes n (w / 256)

/-- The length in bytes of the command that a byte string opens (the table's `length_bytes`). -/
def cmdLength : List Byte → Nat
  | [] => 0
  | opc :: l =>
    match opc.toNat with
    | 0x01 => 12
    | 0x04 => 58
    | 0x07 => 10
    | 0x08 => 2
    | 0x10 => 11
    | 0x11 => 8
    | 0x12 => 2
    | 0x13 => 3
    | 0x20 => 4
    | 0x21 => 16
    | 0x22 => 9
    | 0x30 => 322
    | 0x31 => 18 + beNat ((l.drop 15).take 2)
    | 0x32 => 11 + beNat ((l.drop 8).take 2)
    | 0x33 => 9
    | _ => 1

/-- A command with zero bytes after the given ones, up to its own length. -/
def padCmd (b : List Byte) : List Byte :=
  let full := b ++ List.replicate 322 0#8
  full.take (cmdLength full)

/-- The four tags as the table writes them: bytes 0 to 3 as one big-endian 32-bit number. -/
def wordAckn : Nat := 0x41434B4E
def wordNack : Nat := 0x4E41434B
def wordDisc : Nat := 0x44495343
def wordPing : Nat := 0x50494E47

/-- The datagram of a table word, where its row is a datagram row: the first word is the 32-bit tag, and
later bytes count on from it. A word of 0 bits stands for the empty datagram, one of 320 for an M17Frame. -/
def tableDatagram (nbits w : Nat) : Option (List Byte) :=
  let tag := w % 2 ^ 32
  let bytes (n : Nat) : List Byte := beBytes 4 tag ++ wordBytes (n - 4) (w / 2 ^ 32)
  if nbits = 0 then some []
  else if nbits = 8 * Config.m17Len then some (bytes Config.m17Len)
  else if nbits < 32 then none
  else if tag = wordPing then some (bytes 10)
  else if tag = wordDisc then some (bytes (if 80 ≤ nbits then 10 else 4))
  else if tag = wordAckn ∨ tag = wordNack then some (bytes 4)
  else none

/-- The element of zeros that a queue's data lines carry. -/
def zeroElem : QueueId → Elem
  | .aqTx | .aqRx => .audio ⟨FixedList.fill 160 0#16, 0#8⟩
  | .sqTx | .sqRx => .tag 0#8
  | .cqTx | .cqRx => .comp ⟨FixedList.fill 9 0#8, 0#8⟩
  | .oqLoop | .oqGw | .oqLink => .wire (FixedList.fill 56 0#8)

/-- The request that presents a table word at time `now`. A word of 1 or 2 bits is the operation field of
the port of queue 0; a datagram is presented by the `UDP_RX` that carries it. -/
def tableRequest (now : Time) (nbits w : Nat) : Request :=
  match tableDatagram nbits w with
  | some d => .cmd (udpRxBytes now 0#1 0#48 d)
  | none =>
    if nbits ≤ 2 then .port .aqTx (BitVec.ofNat 2 w) (some (zeroElem .aqTx))
    else .cmd (padCmd (wordBytes ((nbits + 7) / 8) w))

/-- The instruction that the decoder reads from a table word, every later bit zero. -/
def decodeTableWord (nbits w : Nat) : Option Instr :=
  match tableDatagram nbits w with
  | some d => some (decodeDatagram 0#64 ⟨0#1, 0#48⟩ d)
  | none => (decode (tableRequest 0#64 nbits w)).toOption

end Sys2Proof
end

