-- ==== Sys2Proof/Machine/State.lean ====
section
/-!
DEFINITION. The state of DVQ (10_state.md R20 to R45), its reset values (R49), and the reasons a step can
stop (60_exceptions.md R300, R309).
-/

namespace Sys2Proof.Machine

/-- The nine queues, each oldest element first (R26, R27). -/
structure Queues where
  aqTx   : List AudioFrame
  sqTx   : List Tag
  cqTx   : List CompressedFrame
  oqLoop : List WirePacket
  oqGw   : List WirePacket
  oqLink : List WirePacket
  cqRx   : List CompressedFrame
  sqRx   : List Tag
  aqRx   : List AudioFrame
deriving DecidableEq, Repr

/-- The stage run bits (R28). -/
structure RunBits where
  cap  : Bool
  enci : Bool
  enco : Bool
  fr   : Bool
  deci : Bool
  deco : Bool
  play : Bool
deriving DecidableEq, Repr

/-- The stage hold registers (R29). -/
structure Holds where
  enci : Option AudioFrame
  enco : Option CompressedFrame
  fr   : Option CompressedFrame
  deci : Option CompressedFrame
  deco : Option AudioFrame
deriving DecidableEq, Repr

/-- The configuration registers (R30). -/
structure CfgRegs where
  my8  : Bytes 8
  rptA : Bytes 8
  rptB : Bytes 8
deriving DecidableEq, Repr

/-- The transmit session registers (R31). -/
structure TxRegs where
  dest : Dest
  ur   : Bytes 8
  sid  : Half
deriving DecidableEq, Repr

/-- The sequencer registers (R32). -/
structure SeqRegs where
  count   : BitVec 5
  stopReq : Bool
deriving DecidableEq, Repr

/-- The receive session registers (R34). -/
structure RxRegs where
  active : Bool
  sid    : Half
deriving DecidableEq, Repr

/-- The link registers (R38 to R42). -/
structure LinkRegs where
  state     : LinkState
  peerValid : Bool
  peer      : NetAddr
  target    : Code
  modByte   : Byte
  tLink     : Time
  tPing     : Time
deriving DecidableEq, Repr

/-- The relay session registers (R43, R44). -/
structure RelayRegs where
  active : Bool
  sid    : Half
  tLast  : Time
  li     : Bytes 14
  fn     : Half
deriving DecidableEq, Repr

/-- An output event (R102). -/
inductive Event where
  /-- `LOG`, code 80. -/
  | log (c : ErrCode)
  /-- `VOC_SEND_AUDIO`, code 81. -/
  | vocSendAudio (pcm : Pcm)
  /-- `VOC_SEND_DATA`, code 82. -/
  | vocSendData (payload : Bytes 9)
  /-- `PLAY_PUT`, code 83. -/
  | playPut (pcm : Pcm)
  /-- `OQ_DATA`, code 84. -/
  | oqData (dest : Dest) (pkt : WirePacket)
  /-- `CS_RESULT`, code 85: the status byte, then 9 characters for `CS_DEC` or one byte for `CS_EQ`. -/
  | csResult (status : Byte) (data : List Byte)
  /-- `UDP_TX`, code 86. The operand `len` is the length of the datagram. -/
  | udpTx (dst : NetAddr) (datagram : List Byte)
  /-- `LOCAL_TX`, code 87. The operand `len` is the length of the message. -/
  | localTx (message : List Byte)
  /-- `ROUTE_RELEASE`, code 88. -/
  | routeRelease (code : Code)
  /-- `INIT_RESULT`, code 89: true for failed. -/
  | initResult (failed : Bool)
deriving DecidableEq, Repr

/-- The state of DVQ (R20), and after it the model's own five fields. -/
structure State where
  /-- The nine queues (R26). -/
  queues : Queues
  /-- The stage run bits (R28). -/
  run : RunBits
  /-- The stage hold registers (R29). -/
  hold : Holds
  /-- `CFG.*` (R30). -/
  cfg : CfgRegs
  /-- `TX.*` (R31). -/
  tx : TxRegs
  /-- `SEQ.*` (R32). -/
  seq : SeqRegs
  /-- `FR.hdr_pending` (R33). -/
  hdrPending : Bool
  /-- `RX.*` (R34). -/
  rx : RxRegs
  /-- `VOC.open` (R35). -/
  vocOpen : Bool
  /-- The callsign code registers `cs[0]` to `cs[NCS-1]` (R36). -/
  cs : FixedList Code Config.ncs
  /-- `GW.run` (R37). -/
  gwRun : Bool
  /-- `LINK.*` (R38 to R42). -/
  link : LinkRegs
  /-- `RELAY.*` (R43, R44). -/
  relay : RelayRegs
  /-- `ERRSTAT` (R45). -/
  errstat : Half
  /-- The model's own: operations presented and not yet performed, in the order of presentation (log 1). -/
  pending : List Request
  /-- The model's own: the output events already emitted, oldest first (R102; log 3). -/
  trace : List Event
  /-- The model's own: how many draws were made; it selects the next free values (R142; log 4). -/
  draws : Nat
  /-- The model's own: the `now` of the last gateway operation (R341; log 5). -/
  lastNow : Time
  /-- The model's own: what the last `Q_POP` on a queue port returned (R123; log 6). -/
  portOut : Option (QueueId × Elem)
deriving DecidableEq, Repr

/-- The reasons a step could stop with a fault. There are none: no error of DVQ stops an operation or
crosses a boundary as an exception (R300), so this type has no constructor. Safe: nothing raises it. -/
inductive Fault where
deriving DecidableEq, Repr

/-- The reasons an operation is `refuse`d: the spec gives the step relation no successor (R309). Each is
safe: a claim about a run that meets one is about no run. -/
inductive Refusal where
  /-- Raised by `exec` for an instruction with no meaning yet, by its mnemonic. Safe. -/
  | notModelled (mnemonic : String)
  /-- Raised by `step` for a request that names no operation: a reserved opcode, an illegal operand, a
  wrong length (R97, R309). Safe. -/
  | badRequest (e : DecodeError)
  /-- Raised by `START_TX` while a stage run bit is 1 (R143, U1). Safe. -/
  | startTxWhileRunning
  /-- Raised by `START_PLAYBACK` while a stage run bit is 1 (R145). Safe. -/
  | startPlaybackWhileRunning
  /-- Raised by `CAP_TICK` on a full `AQ_TX` (R149 corner case d). Safe. -/
  | captureQueueFull
  /-- Raised by `GW_INIT` when `GW.run` = 1 (R231). Safe. -/
  | gatewayAlreadyRunning
  /-- Raised by a gateway operation when `GW.run` = 0 (R309, U11). Safe. -/
  | gatewayNotRunning
  /-- Raised by a gateway operation whose `now` is below an earlier one (R341, U11). Safe. -/
  | timeDecreased
  /-- Raised by `Q_PUSH` of an element that is not of the queue's type, a term no request decodes to
  (R122). Safe. -/
  | wrongElement
deriving DecidableEq, Repr

/-- What a step or an operation answers. -/
abbrev Result := Host.Outcome State Fault Refusal

/-- DVQ right after reset (R49, R331). The last five fields are the model's own (logs 1 and 3 to 6). -/
def State.reset : State where
  queues := ⟨[], [], [], [], [], [], [], [], []⟩
  run := ⟨false, false, false, false, false, false, false⟩
  hold := ⟨none, none, none, none, none⟩
  cfg := ⟨FixedList.fill 8 0x20#8, FixedList.fill 8 0x20#8, FixedList.fill 8 0x20#8⟩
  tx := ⟨.loop, FixedList.fill 8 0x20#8, 0#16⟩
  seq := ⟨0#5, false⟩
  hdrPending := false
  rx := ⟨false, 0#16⟩
  vocOpen := false
  cs := FixedList.fill Config.ncs 0#48
  gwRun := false
  link := ⟨.unlinked, false, ⟨0#1, 0#48⟩, 0#48, 0#8, 0#64, 0#64⟩
  relay := ⟨false, 0#16, 0#64, FixedList.fill 14 0x00#8, 0#16⟩
  errstat := 0#16
  pending := []
  trace := []
  draws := 0
  lastNow := 0#64
  portOut := none

end Sys2Proof.Machine
end

