-- ==== Sys2Proof/Machine/Flags.lean ====
section
/-!
DEFINITION. The flags that travel inside data, `END` and `LAST` (10_state.md R47), the tag and
frame-number arithmetic on them (R23, 41_sequencer.md R149, 45_relay.md R285), and the codes of the error
register (60_exceptions.md R301).
-/

namespace Sys2Proof.Machine

/-- `END`, bit 6 of a tag (R23, R47). -/
def endMark (t : Tag) : Bool := t.getLsbD 6

/-- The tag that `CAP_TICK` writes: `(stop_req << 6) | count` (R149). Bits 7 and 5 are 0. -/
def mkTag (stopReq : Bool) (count : BitVec 5) : Tag :=
  (if stopReq then 0x40#8 else 0x00#8) ||| count.zeroExtend 8

/-- The next value of the 21-value cycle, `(count + 1) mod 21` (R149). -/
def nextSeq (count : BitVec 5) : BitVec 5 := BitVec.ofNat 5 ((count.toNat + 1) % Config.seqMod)

/-- `LAST`, bit 15 of a frame number (R47, R87). -/
def lastMark (fn : Half) : Bool := fn.getLsbD 15

/-- The frame number of a closing frame: `((fn + 1) mod 0x8000) + 0x8000` (R285). -/
def closingFn (fn : Half) : Half := ((fn + 1#16) &&& 0x7FFF#16) ||| 0x8000#16

/-- The code of an error, its bit number in `ERRSTAT` (R301). -/
def errNumber : ErrCode → Nat
  | .len => 1
  | .format => 2
  | .peer => 3
  | .crc => 4
  | .sid => 5
  | .devIo => 6
  | .notOpen => 7
  | .setup => 8
  | .csInvalid => 9

/-- `ERRSTAT` with the bit of `c` set (R45, R300). -/
def setErr (e : Half) (c : ErrCode) : Half := e ||| (1#16 <<< errNumber c)

/-- The two-bit code of a link state (R38). -/
def linkStateCode : LinkState → BitVec 2
  | .unlinked => 0#2
  | .linking => 1#2
  | .linked => 2#2

end Sys2Proof.Machine
end

