-- ==== Sys2Proof/Machine/Ops.lean ====
section
/-!
DEFINITION. The named operations over the state: the queue primitives (40_queue.md R120 to R125),
`emit` and `draw` (00_scope.md R12), the handling of an error `log(c)` (60_exceptions.md R300), which is
all that DVQ has in the place of taking an exception (R308), and the status port (10_state.md R46).
-/

namespace Sys2Proof.Machine

/-! ## Queue primitives on a queue of elements of type `α` -/

/-- `QEmpty(q)` (R120). -/
def qEmpty {α : Type} (l : List α) : Bool := l.isEmpty

/-- `QFull(q)` (R120): the depth is finite and is the length. An empty queue is never full, since a
finite depth is positive (R127). -/
def qFull {α : Type} (q : QueueId) (l : List α) : Bool :=
  match l with
  | [] => false
  | _ :: _ =>
    match Config.queueDepth q with
    | none => false
    | some d => l.length == d

/-- `QPush(q, e)` (R122). -/
def qPush {α : Type} (l : List α) (e : α) : List α := l ++ [e]

/-- `QPop(q)` (R123): the oldest element and the queue without it, or none where the queue is empty. -/
def qPop {α : Type} (l : List α) : Option (α × List α) :=
  match l with
  | [] => none
  | e :: rest => some (e, rest)

/-- The outbound queue of a destination (R26). -/
def Queues.oq (q : Queues) : Dest → List WirePacket
  | .loop => q.oqLoop
  | .gw => q.oqGw
  | .link => q.oqLink

/-- The queues with the outbound queue of a destination replaced. -/
def Queues.setOq (q : Queues) (d : Dest) (l : List WirePacket) : Queues :=
  match d with
  | .loop => { q with oqLoop := l }
  | .gw => { q with oqGw := l }
  | .link => { q with oqLink := l }

/-- The name of the outbound queue of a destination (R26). -/
def oqId : Dest → QueueId
  | .loop => .oqLoop
  | .gw => .oqGw
  | .link => .oqLink

/-- The elements of any queue, oldest first. -/
def Queues.elems (q : Queues) : QueueId → List Elem
  | .aqTx => q.aqTx.map .audio
  | .sqTx => q.sqTx.map .tag
  | .cqTx => q.cqTx.map .comp
  | .oqLoop => q.oqLoop.map .wire
  | .oqGw => q.oqGw.map .wire
  | .oqLink => q.oqLink.map .wire
  | .cqRx => q.cqRx.map .comp
  | .sqRx => q.sqRx.map .tag
  | .aqRx => q.aqRx.map .audio

/-- Every queue empty: `QClear` of all nine (R125, R143). -/
def noQueues : Queues := ⟨[], [], [], [], [], [], [], [], []⟩

/-- Every hold register `none`. -/
def noHolds : Holds := ⟨none, none, none, none, none⟩

/-! ## Outputs, errors and draws -/

/-- `emit EVENT(args)` (R12): one event at the end of the output trace. -/
def State.emit (s : State) (e : Event) : State := { s with trace := s.trace ++ [e] }

/-- `log(c)` (R300): `ERRSTAT[c] <- 1; emit LOG(c)`. Nothing else changes and no control is transferred. -/
def State.log (s : State) (c : ErrCode) : State :=
  { s with errstat := setErr s.errstat c, trace := s.trace ++ [.log c] }

/-- One draw was made (R142; log 4). -/
def State.nextDraw (s : State) : State := { s with draws := s.draws + 1 }

/-- The payload of the draw numbered `n` of `get_data` (R142). -/
def drawnPayload (n : Nat) : Bytes 9 := FixedList.tabulate 9 (Config.getDataByte n)

/-- The samples of the draw numbered `n` of `get_audio` (R142). -/
def drawnPcm (n : Nat) : Pcm := FixedList.tabulate 160 (Config.getAudioSample n)

/-- `SILENCE(type)` (R8, R285). -/
def silence (ty : Half) : Bytes 16 := FixedList.tabulate 16 (Config.silenceByte ty)

/-- Some stage run bit is 1. -/
def RunBits.any (r : RunBits) : Bool :=
  r.cap || r.enci || r.enco || r.fr || r.deci || r.deco || r.play

/-- What an operation that may be held answers: its next state where it is enabled, and the state
unchanged where it is not (R13, R124; log 2). -/
def orHeld (s : State) (r : Option State) : Result := .next (r.getD s)

/-! ## The callsign code registers (R36) -/

/-- `cs[i]`. -/
def State.csGet (s : State) (i : Fin Config.ncs) : Code := s.cs.toList.getD i.val 0#48

/-- `cs[i] <- v`. -/
def State.csSet (s : State) (i : Fin Config.ncs) (v : Code) : State :=
  { s with cs := ⟨s.cs.toList.set i.val v, by simp⟩ }

/-! ## The status port (R46) -/

/-- What a status read answers: the register's width in bits (none where it is the implementation's, R46
`QLEN`) and its value. -/
structure RegRead where
  width : Option Nat
  value : Nat
deriving DecidableEq, Repr

/-- One bit as a number. -/
def bitNat (b : Bool) : Nat := if b then 1 else 0

/-- `STAGE.run`, register 0x15 (R46). -/
def RunBits.word (r : RunBits) : Nat :=
  bitNat r.cap + 2 * bitNat r.enci + 4 * bitNat r.enco + 8 * bitNat r.fr + 16 * bitNat r.deci +
    32 * bitNat r.deco + 64 * bitNat r.play

/-- The queue of an id 0 to 8 (R26). -/
def queueOfNumber : Nat → Option QueueId
  | 0 => some .aqTx
  | 1 => some .sqTx
  | 2 => some .cqTx
  | 3 => some .oqLoop
  | 4 => some .oqGw
  | 5 => some .oqLink
  | 6 => some .cqRx
  | 7 => some .sqRx
  | 8 => some .aqRx
  | _ => none

/-- A read of register `n` on the status port (R46): it has no side effect, and no register has a number
that R46 does not list. Byte strings read with byte 0 most significant (log 24). -/
def statusRead (s : State) (n : Byte) : Option RegRead :=
  match n.toNat with
  | 0x00 => some ⟨some 64, beNat s.cfg.my8.toList⟩
  | 0x01 => some ⟨some 64, beNat s.cfg.rptA.toList⟩
  | 0x02 => some ⟨some 64, beNat s.cfg.rptB.toList⟩
  | 0x10 => some ⟨some 2, s.tx.dest.code.toNat⟩
  | 0x11 => some ⟨some 64, beNat s.tx.ur.toList⟩
  | 0x12 => some ⟨some 16, s.tx.sid.toNat⟩
  | 0x13 => some ⟨some 5, s.seq.count.toNat⟩
  | 0x14 => some ⟨some 1, bitNat s.seq.stopReq⟩
  | 0x15 => some ⟨some 7, s.run.word⟩
  | 0x16 => some ⟨some 1, bitNat s.hdrPending⟩
  | 0x17 => some ⟨some 17, bitNat s.rx.active * 2 ^ 16 + s.rx.sid.toNat⟩
  | 0x18 => some ⟨some 1, bitNat s.vocOpen⟩
  | 0x20 => some ⟨some 1, bitNat s.gwRun⟩
  | 0x21 => some ⟨some 2, (linkStateCode s.link.state).toNat⟩
  | 0x22 =>
    some ⟨some (2 + Config.addrW), bitNat s.link.peerValid * 2 ^ (Config.addrW + 1) +
      s.link.peer.sock.toNat * 2 ^ Config.addrW + s.link.peer.addr.toNat⟩
  | 0x23 => some ⟨some 48, s.link.target.toNat⟩
  | 0x24 => some ⟨some 8, s.link.modByte.toNat⟩
  | 0x25 => some ⟨some 64, s.link.tLink.toNat⟩
  | 0x26 => some ⟨some 64, s.link.tPing.toNat⟩
  | 0x28 => some ⟨some 17, bitNat s.relay.active * 2 ^ 16 + s.relay.sid.toNat⟩
  | 0x29 => some ⟨some 64, s.relay.tLast.toNat⟩
  | 0x2A => some ⟨some 112, beNat s.relay.li.toList⟩
  | 0x2B => some ⟨some 16, s.relay.fn.toNat⟩
  | 0x30 => some ⟨some 16, s.errstat.toNat⟩
  | n =>
    if 0x50 ≤ n then (queueOfNumber (n - 0x50)).map fun q => ⟨none, (s.queues.elems q).length⟩
    else if h : 0x40 ≤ n ∧ n - 0x40 < Config.ncs then some ⟨some 48, (s.csGet ⟨n - 0x40, h.2⟩).toNat⟩
    else none

/-! ## The byte form of an output event (R102) -/

/-- The EVT code and operands of an output event (R102). -/
def Event.bytes : Event → List Byte
  | .log c => [0x80#8, BitVec.ofNat 8 (errNumber c)]
  | .vocSendAudio pcm => 0x81#8 :: (pcmBytes pcm).toList
  | .vocSendData payload => 0x82#8 :: payload.toList
  | .playPut pcm => 0x83#8 :: (pcmBytes pcm).toList
  | .oqData dest pkt => 0x84#8 :: dest.code :: pkt.toList
  | .csResult status data => 0x85#8 :: status :: data
  | .udpTx dst d =>
    0x86#8 :: sockCode dst.sock :: ((be48 dst.addr).toList ++ ((be16 (BitVec.ofNat 16 d.length)).toList ++ d))
  | .localTx m => 0x87#8 :: ((be16 (BitVec.ofNat 16 m.length)).toList ++ m)
  | .routeRelease code => 0x88#8 :: (be48 code).toList
  | .initResult failed => [0x89#8, flagCode failed]

end Sys2Proof.Machine
end

