-- ==== Sys2Proof/Machine/Control.lean ====
section
/-!
DEFINITION. Reset (70_reset_and_hazards.md R330), session control and the sequencer (41_sequencer.md R143
to R149).
-/

namespace Sys2Proof.Machine

/-- `RESET` (R330): every field of the spec at its reset value. What is no state of DVQ stays: the
presented operations, the trace already emitted and the number of draws made (logs 1, 3, 4). -/
def execReset (s : State) : Result :=
  .next { State.reset with pending := s.pending, trace := s.trace, draws := s.draws }

/-- `START_TX` (R143). -/
def execStartTx (dest : Dest) (ur : Bytes 8) (sid : Half) (s : State) : Result :=
  if s.run.any then .refused .startTxWhileRunning
  else .next { s with
    queues := noQueues
    hold := noHolds
    tx := ⟨dest, ur, sid⟩
    seq := ⟨0#5, false⟩
    hdrPending := true
    run := { s.run with cap := true, enci := true, enco := true, fr := true } }

/-- `STOP_TX` (R144). -/
def execStopTx (s : State) : Result :=
  .next (if s.run.cap then { s with seq := { s.seq with stopReq := true } } else s)

/-- `START_PLAYBACK` (R145). -/
def execStartPlayback (s : State) : Result :=
  if s.run.any then .refused .startPlaybackWhileRunning
  else .next { s with run := { s.run with deci := true, deco := true, play := true } }

/-- `DEV_OPEN` (R146). -/
def execDevOpen (s : State) : Result := .next { s with vocOpen := true }

/-- `DEV_CLOSE` (R147). -/
def execDevClose (s : State) : Result := .next { s with vocOpen := false }

/-- `CFG_WR` (R148). -/
def execCfgWr (reg : CfgReg) (val : Bytes 8) (s : State) : Result :=
  match reg with
  | .my8 => .next { s with cfg := { s.cfg with my8 := val } }
  | .rptA => .next { s with cfg := { s.cfg with rptA := val } }
  | .rptB => .next { s with cfg := { s.cfg with rptB := val } }

/-- The successful tick of R149: the frame is pushed and the sequencer moves on. -/
def captureFrame (pcm : Pcm) (s : State) : State :=
  { s with
    queues := { s.queues with aqTx := qPush s.queues.aqTx ⟨pcm, mkTag s.seq.stopReq s.seq.count⟩ }
    seq := ⟨nextSeq s.seq.count, false⟩
    run := { s.run with cap := !s.seq.stopReq } }

/-- `CAP_TICK` (R149). -/
def execCapTick (st : DevStatus) (pcm : Pcm) (s : State) : Result :=
  if s.run.cap = false then .next s
  else
    match st with
    | .ioerr => .next (s.log .devIo)
    | .ok =>
      if qFull .aqTx s.queues.aqTx then .refused .captureQueueFull
      else .next (captureFrame pcm s)

end Sys2Proof.Machine
end

