-- ==== Sys2Proof/Machine/Crc.lean ====
section
/-!
DEFINITION. The CRC-16 (42_framer.md R180 to R183).
-/

namespace Sys2Proof.Machine

/-- One of the eight inner steps of R180. -/
def crcBit (c : Half) : Half :=
  if c.getLsbD 0 then (c >>> 1) ^^^ Config.crcPolyReflected else c >>> 1

/-- The inner loop of R180: eight steps. -/
def crcEight (c : Half) : Half :=
  crcBit (crcBit (crcBit (crcBit (crcBit (crcBit (crcBit (crcBit c)))))))

/-- One byte taken into the CRC register (R180). -/
def crcByte (c : Half) (b : Byte) : Half := crcEight (c ^^^ b.zeroExtend 16)

/-- `crc16_raw(b)` (R180). -/
def crc16Raw (b : List Byte) : Half := b.foldl crcByte Config.crcInit

/-- `crc16x(b)` (R182): the one's complement. -/
def crc16x (b : List Byte) : Half := crc16Raw b ^^^ 0xFFFF#16

/-- `T[i]` of R181. -/
def crcTable (i : Byte) : Half := crcEight (i.zeroExtend 16)

/-- One byte taken in by the table form of R181. -/
def crcTableByte (c : Half) (b : Byte) : Half :=
  (c >>> 8) ^^^ crcTable ((c ^^^ b.zeroExtend 16).setWidth 8)

/-- The table-driven form of `crc16_raw` (R181). -/
def crc16Table (b : List Byte) : Half := b.foldl crcTableByte Config.crcInit

end Sys2Proof.Machine
end

