-- ==== Sys2Proof/Machine/Operands.lean ====
section
/-!
DEFINITION. The fields of packets and datagrams (30_encoding.md R82 to R90), the packets DVQ builds
(42_framer.md R185, R187; 44_link.md R263; 45_relay.md R285) and their checks (42_framer.md R183).
-/

namespace Sys2Proof.Machine

/-! ## WirePacket fields (R82 to R84) -/

/-- `magic`. -/
def wpMagic (p : WirePacket) : Bytes 4 := p.slice Config.wpOff.magic 4

/-- `config`. -/
def wpConfig (p : WirePacket) : Byte := p.toList.getD Config.wpOff.config 0#8

/-- `streamid`, big-endian. -/
def wpStreamId (p : WirePacket) : Half := fromBe16 (p.slice Config.wpOff.streamId 2)

/-- `control`: the tag of a voice packet. -/
def wpControl (p : WirePacket) : Byte := p.toList.getD Config.wpOff.control 0#8

/-- `payload` of a voice packet. -/
def wpPayload (p : WirePacket) : Bytes 9 := p.slice Config.wpOff.payload 9

/-- The 39 bytes that the CRC of a header packet covers (R83). -/
def wpCrcSpan (p : WirePacket) : List Byte := (p.toList.drop Config.crcSpanOff).take Config.crcSpanLen

/-- `crc_ok_wp(p)` (R183). -/
def crcOkWp (p : WirePacket) : Bool := fromLe16 (p.slice Config.wpOff.crc 2) == crc16x (wpCrcSpan p)

/-! ## Building WirePackets (R185, R187) -/

/-- The common part of a packet built, bytes 0 to 11 (R82). -/
def wpPreamble (config : Byte) (sid : Half) (control : Byte) : Bytes 12 :=
  ⟨Config.wpMagic.toList ++ ([config, Config.idVal] ++ (Config.flagsVal.toList ++
    ((be16 sid).toList ++ [control]))), by simp⟩

/-- Bytes 0 to 53 of the header packet (R185). -/
def headerBody (s : State) : Bytes 54 :=
  ⟨(wpPreamble Config.cfgHdr s.tx.sid Config.hdrCtrl).toList ++ (s.cfg.rptA.toList ++
    (s.cfg.rptB.toList ++ (s.tx.ur.toList ++ (s.cfg.my8.toList ++ List.replicate 10 0x00#8)))), by simp⟩

/-- `mk_header()` (R185). -/
def mkHeader (s : State) : WirePacket :=
  let body := headerBody s
  ⟨body.toList ++ (le16 (crc16x ((body.toList.drop Config.crcSpanOff).take Config.crcSpanLen))).toList, by simp⟩

/-- `mk_voice(payload, tag)` (R187). -/
def mkVoice (sid : Half) (payload : Bytes 9) (tag : Tag) : WirePacket :=
  ⟨(wpPreamble Config.cfgVoice sid tag).toList ++ (payload.toList ++ (Config.slow3.toList ++
    List.replicate 32 0x00#8)), by simp⟩

/-! ## M17Frame fields (R87) -/

/-- The magic of a message: its first four bytes. -/
def m17MagicOk (m : List Byte) : Bool := m.take 4 == Config.m17Magic.toList

/-- `dst`, offset 4. -/
def m17Dst (f : M17Frame) : Code := fromBe48 (f.slice 4 6)

/-- The link-info block `f[4..17]`. -/
def m17LinkInfo (f : M17Frame) : Bytes 14 := f.slice 4 14

/-- `streamid`, offset 18. -/
def m17StreamId (f : M17Frame) : Half := fromBe16 (f.slice 18 2)

/-- `fn`, offset 20. -/
def m17Fn (f : M17Frame) : Half := fromBe16 (f.slice 20 2)

/-- `crc_ok_m17(f)` (R183). -/
def crcOkM17 (f : M17Frame) : Bool := fromLe16 (f.slice 38 2) == crc16x (f.toList.take 38)

/-- The `type` of a link-info block, its bytes 12 and 13 (R285, R87). -/
def liType (li : Bytes 14) : Half := fromBe16 (li.slice 12 2)

/-- Bytes 0 to 37 of the closing frame (R285). -/
def closingBody (r : RelayRegs) : Bytes 38 :=
  ⟨Config.m17Magic.toList ++ (r.li.toList ++ ((be16 r.sid).toList ++
    ((be16 (closingFn r.fn)).toList ++ (silence (liType r.li)).toList))), by simp⟩

/-- `mk_closing()` (R285). -/
def mkClosing (r : RelayRegs) : M17Frame :=
  ⟨(closingBody r).toList ++ (le16 (crc16x (closingBody r).toList)).toList, by simp⟩

/-! ## The datagrams DVQ builds (R263) -/

/-- `mk_conn(c, m)`: "CONN", the code and the module byte. -/
def mkConn (c : Code) (m : Byte) : List Byte := tagConn ++ ((be48 c).toList ++ [m])

/-- `mk_pong(c)`. -/
def mkPong (c : Code) : List Byte := tagPong ++ (be48 c).toList

/-- `mk_disc10(c)`. -/
def mkDisc10 (c : Code) : List Byte := tagDisc ++ (be48 c).toList

end Sys2Proof.Machine
end

