-- ==== Sys2Proof/Machine/Framer.lean ====
section
/-!
DEFINITION. The packet framer: `FR_HDR`, `FR_VOICE` (42_framer.md R186, R187) and `RX_PACKET` (R188 to
R190).
-/

namespace Sys2Proof.Machine

/-- The state with packet `p` pushed to the outbound queue of the session (R186, R187). -/
def pushOut (p : WirePacket) (s : State) : State :=
  { s with queues := s.queues.setOq s.tx.dest (qPush (s.queues.oq s.tx.dest) p) }

/-- The outbound queue of the session is full. -/
def outFull (s : State) : Bool := qFull (oqId s.tx.dest) (s.queues.oq s.tx.dest)

/-- `FR_HDR` where it is enabled (R186). -/
def frHdrPhase (s : State) : Option State :=
  if s.run.fr && s.hdrPending && !outFull s then
    some { pushOut (mkHeader s) s with hdrPending := false }
  else none

/-- One step of `FR_VOICE` (R187): none where neither phase is enabled. -/
def frVoicePhase (s : State) : Option State :=
  if s.run.fr = false then none
  else
    match s.hold.fr with
    | some f =>
      if outFull s then none
      else some { pushOut (mkVoice s.tx.sid f.payload f.tag) s with
        hold := { s.hold with fr := none }
        run := { s.run with fr := s.run.fr && !endMark f.tag } }
    | none =>
      if s.hdrPending then none
      else (qPop s.queues.cqTx).map fun (f, l) =>
        { s with queues := { s.queues with cqTx := l }, hold := { s.hold with fr := some f } }

/-- `FR_HDR` (R186). -/
def execFrHdr (s : State) : Result := orHeld s (frHdrPhase s)

/-- `FR_VOICE` (R187). -/
def execFrVoice (s : State) : Result := orHeld s (frVoicePhase s)

/-- `RX_PACKET` on a header packet (R189). -/
def rxHeader (pkt : WirePacket) (s : State) : State :=
  if !crcOkWp pkt then s.log .crc
  else if s.rx.active then { s with rx := { s.rx with sid := wpStreamId pkt } }
  else { s with
    run := { s.run with deci := true, deco := true, play := true }
    rx := ⟨true, wpStreamId pkt⟩ }

/-- `RX_PACKET` on a voice packet (R190); none where it is accepted and `CQ_RX` is full. -/
def rxVoice (pkt : WirePacket) (s : State) : Option State :=
  if !s.rx.active || wpStreamId pkt != s.rx.sid then some (s.log .sid)
  else if qFull .cqRx s.queues.cqRx then none
  else some { s with
    queues := { s.queues with cqRx := qPush s.queues.cqRx ⟨wpPayload pkt, wpControl pkt⟩ }
    rx := if endMark (wpControl pkt) then ⟨false, 0#16⟩ else s.rx }

/-- `RX_PACKET` where it is enabled (R188). -/
def rxPhase (pkt : WirePacket) (s : State) : Option State :=
  if wpMagic pkt ≠ Config.wpMagic then some (s.log .format)
  else if wpConfig pkt = Config.cfgHdr then some (rxHeader pkt s)
  else if wpConfig pkt = Config.cfgVoice then rxVoice pkt s
  else some (s.log .format)

/-- `RX_PACKET` (R188). Both entry points have the same meaning (log 19). -/
def execRxPacket (_src : RxSource) (pkt : WirePacket) (s : State) : Result := orHeld s (rxPhase pkt s)

end Sys2Proof.Machine
end

