-- ==== Sys2Proof/Machine/Callsign.lean ====
section
/-!
DEFINITION. The callsign codec: `cs_index`, `cs_encode`, `cs_decode` (43_callsign.md R210 to R212) and the
operations `CS_ENC`, `CS_LOAD`, `CS_DEC`, `CS_EQ` (R213 to R216).
-/

namespace Sys2Proof.Machine

/-- The 40 symbols in the order of their indices (R210): space, A to Z, 0 to 9, hyphen, slash, dot. -/
def csAlphabet : List Byte :=
  [0x20#8,
   0x41#8, 0x42#8, 0x43#8, 0x44#8, 0x45#8, 0x46#8, 0x47#8, 0x48#8, 0x49#8, 0x4A#8, 0x4B#8, 0x4C#8, 0x4D#8,
   0x4E#8, 0x4F#8, 0x50#8, 0x51#8, 0x52#8, 0x53#8, 0x54#8, 0x55#8, 0x56#8, 0x57#8, 0x58#8, 0x59#8, 0x5A#8,
   0x30#8, 0x31#8, 0x32#8, 0x33#8, 0x34#8, 0x35#8, 0x36#8, 0x37#8, 0x38#8, 0x39#8,
   0x2D#8, 0x2F#8, 0x2E#8]

/-- The position of a byte in a list, if it stands there. -/
def indexIn (b : Byte) : List Byte → Option Nat
  | [] => none
  | x :: xs => if x = b then some 0 else (indexIn b xs).map (· + 1)

/-- `cs_index(ch)` (R210): none for `invalid`. -/
def csIndex (ch : Byte) : Option Nat := indexIn ch csAlphabet

/-- `symbol(k)` (R212). -/
def csSymbol (k : Nat) : Byte := csAlphabet.getD k 0x20#8

/-- A string with spaces on its right up to the codec's width 9 (R211). -/
def csPad (str : List Byte) : List Byte := str ++ List.replicate (9 - str.length) 0x20#8

/-- The indices of all characters, or none where one is invalid. -/
def csIndices : List Byte → Option (List Nat)
  | [] => some []
  | c :: cs =>
    match csIndex c, csIndices cs with
    | some k, some ks => some (k :: ks)
    | _, _ => none

/-- The base-40 value of indices, most significant first (R211). -/
def csValue (ks : List Nat) : Nat := ks.foldl (fun v k => v * Config.csBase + k) 0

/-- `cs_encode(s)` (R211), for a string of at most 9 characters; none where a character is invalid. -/
def csEncode (str : List Byte) : Option Code :=
  (csIndices (csPad str)).map fun ks => BitVec.ofNat 48 (csValue ks)

/-- The `n` base-40 digits of a number as symbols, most significant first (R212). -/
def csDigits : Nat → Nat → List Byte
  | 0, _ => []
  | n + 1, v => csDigits n (v / Config.csBase) ++ [csSymbol (v % Config.csBase)]

theorem csDigits_length (n : Nat) : ∀ v, (csDigits n v).length = n := by
  induction n with
  | zero => intro v; rfl
  | succ n ih => intro v; simp [csDigits, ih]

/-- A code above `CS_MAX` (R92, R218). -/
def csInvalid (v : Code) : Bool := decide (Config.csMax < v)

/-- `cs_decode(v)` (R212): none for `invalid`. -/
def csDecode (v : Code) : Option (Bytes 9) :=
  if csInvalid v then none else some ⟨csDigits 9 v.toNat, csDigits_length 9 _⟩

/-- `CS_ENC` (R213). -/
def execCsEnc (idx : Fin Config.ncs) (str : Bytes 9) (s : State) : Result :=
  match csEncode str.toList with
  | none => .next ((s.log .csInvalid).emit (.csResult 1#8 []))
  | some v => .next ((s.csSet idx v).emit (.csResult 0#8 []))

/-- `CS_LOAD` (R214). -/
def execCsLoad (idx : Fin Config.ncs) (code : Code) (s : State) : Result :=
  if csInvalid code then .next ((s.log .csInvalid).emit (.csResult 1#8 []))
  else .next ((s.csSet idx code).emit (.csResult 0#8 []))

/-- `CS_DEC` (R215). A register above `CS_MAX`, which no run reaches (R36), answers the invalid status
(log 13). -/
def execCsDec (idx : Fin Config.ncs) (s : State) : Result :=
  match csDecode (s.csGet idx) with
  | some str => .next (s.emit (.csResult 0#8 str.toList))
  | none => .next (s.emit (.csResult 1#8 []))

/-- `CS_EQ` (R216): equality of the raw codes. -/
def execCsEq (i j : Fin Config.ncs) (s : State) : Result :=
  .next (s.emit (.csResult 0#8 [if s.csGet i = s.csGet j then 1#8 else 0#8]))

end Sys2Proof.Machine
end

