-- ==== Sys2Proof/Machine/Relay.lean ====
section
/-!
DEFINITION. The inbound relay session of the gateway (45_relay.md R280 to R285).
-/

namespace Sys2Proof.Machine

/-- `relay_accept(now, f)` (R282, R283). -/
def relayAccept (now : Time) (f : M17Frame) (s : State) : State :=
  if s.relay.active && m17StreamId f != s.relay.sid then s.log .sid
  else State.emit
    { s with relay :=
      { active := !lastMark (m17Fn f)
        sid := if s.relay.active then s.relay.sid else m17StreamId f
        tLast := now
        li := m17LinkInfo f
        fn := m17Fn f } }
    (.localTx f.toList)

/-- The handler of `M17_RX` (R281). -/
def m17Handler (now : Time) (f : M17Frame) (s : State) : State :=
  if !m17MagicOk f.toList then s.log .format
  else if !crcOkM17 f then s.log .crc
  else relayAccept now f s

/-- The relay silence timer has run out at `now` (R284). -/
def relayExpired (now : Time) (s : State) : Bool :=
  s.relay.active && decide (Config.tRelayMs ≤ (now - s.relay.tLast).toNat)

/-- `relay_timeout(now)` (R284). -/
def relayTimeout (now : Time) (s : State) : State :=
  if relayExpired now s then
    { s.emit (.localTx (mkClosing s.relay).toList) with relay := { s.relay with active := false } }
  else s

end Sys2Proof.Machine
end

