-- ==== Sys2Proof/Machine/Link.lean ====
section
/-!
DEFINITION. The link-state machine of the gateway: the handlers of 44_link.md R234 to R243, `eval_timers`
(R241), and the two parts of every gateway operation (R230).
-/

namespace Sys2Proof.Machine

/-- `from_peer(from)` (R233). -/
def fromPeer (src : NetAddr) (s : State) : Bool := s.link.peerValid && decide (src = s.link.peer)

/-- `valid4(from)` (R233). -/
def valid4 (src : NetAddr) (s : State) : Bool :=
  decide (s.link.state = .linking ∨ s.link.state = .linked) && fromPeer src s

/-- `valid10(from)` (R233). -/
def valid10 (src : NetAddr) (s : State) : Bool := decide (s.link.state = .linked) && fromPeer src s

/-- `to_unlinked(release)` (R242). -/
def toUnlinked (release : Bool) (s : State) : State :=
  let told := if release then s.emit (.routeRelease s.link.target) else s
  { told with link := { s.link with state := .unlinked, peerValid := false } }

/-- The handler of `LINK_REQ` (R234). -/
def linkReqHandler (now : Time) (code : Code) (modByte : Byte) (s : State) : State :=
  if s.link.state ≠ .unlinked then s
  else if csInvalid code then s.log .csInvalid
  else
    match Config.route code with
    | none => s
    | some a =>
      State.emit
        { s with link :=
          { s.link with
            peer := a, peerValid := true, target := code, modByte := modByte, tLink := now, state := .linking } }
        (.udpTx a (mkConn (s.csGet 0) modByte))

/-- The handler of `UNLINK_REQ` (R243). -/
def unlinkReqHandler (s : State) : State :=
  if s.link.peerValid then s.emit (.udpTx s.link.peer (mkDisc10 (s.csGet 0))) else s

/-- The handler of `ACKN` (R235). -/
def acknHandler (now : Time) (src : NetAddr) (s : State) : State :=
  if !valid4 src s then s.log .peer
  else if s.link.state = .linking then { s with link := { s.link with state := .linked, tPing := now } }
  else s

/-- The handler of `NACK` (R236). -/
def nackHandler (src : NetAddr) (s : State) : State :=
  if !valid4 src s then s.log .peer
  else if s.link.state = .linking then toUnlinked false s
  else s

/-- The handler of `DISC4` (R237). -/
def disc4Handler (src : NetAddr) (s : State) : State :=
  if !valid4 src s then s.log .peer
  else if s.link.state = .linked then toUnlinked true s
  else toUnlinked false s

/-- The handler of `PING` (R238). -/
def pingHandler (now : Time) (src : NetAddr) (s : State) : State :=
  if !valid10 src s then s.log .peer
  else
    { s.emit (.udpTx s.link.peer (mkPong (s.csGet 0))) with link := { s.link with tPing := now } }

/-- The handler of `DISC10` (R239). -/
def disc10Handler (src : NetAddr) (s : State) : State :=
  if !valid10 src s then s.log .peer else toUnlinked true s

/-- The code that `DG_UNKNOWN` logs (R240): `E_FORMAT` for a 4- or 10-byte datagram, else `E_LEN`. -/
def unknownCode (d : List Byte) : ErrCode := if d.length = 4 ∨ d.length = 10 then .format else .len

/-- The handler of `DG_UNKNOWN` (R240). -/
def unknownHandler (d : List Byte) (s : State) : State := s.log (unknownCode d)

/-- The link-establishment timer has run out at `now` (R241). -/
def linkExpired (now : Time) (s : State) : Bool :=
  decide (s.link.state = .linking) && decide (Config.tLinkMs ≤ (now - s.link.tLink).toNat)

/-- The keepalive timer has run out at `now` (R241). -/
def pingExpired (now : Time) (s : State) : Bool :=
  decide (s.link.state = .linked) && decide (Config.tPingMs ≤ (now - s.link.tPing).toNat)

/-- `eval_timers(now)` (R241). At most one of its first two lines applies, since the first leaves
`unlinked`. -/
def evalTimers (now : Time) (s : State) : State :=
  let afterLink := if linkExpired now s then toUnlinked false s else s
  let afterPing := if pingExpired now afterLink then toUnlinked true afterLink else afterLink
  relayTimeout now afterPing

/-- A handler run by the gateway agent at `now`: refused when `GW.run` = 0 or when `now` is below an
earlier one (R309, R341). -/
def gatewayHandler (now : Time) (h : State → State) (s : State) : Result :=
  if s.gwRun = false then .refused .gatewayNotRunning
  else if now < s.lastNow then .refused .timeDecreased
  else .next (h { s with lastNow := now })

/-- A gateway operation: its handler, then `eval_timers(now)` (R230). -/
def gatewayOp (now : Time) (h : State → State) (s : State) : Result :=
  gatewayHandler now (fun s => evalTimers now (h s)) s

/-- `GW_INIT` (R231). -/
def execGwInit (s0 s1 ch : Bool) (s : State) : Result :=
  if s.gwRun then .refused .gatewayAlreadyRunning
  else if s0 && s1 && ch then .next (State.emit { s with gwRun := true } (.initResult false))
  else .next ((s.log .setup).emit (.initResult true))

/-- `LINK_REQ` (R234). -/
def execLinkReq (now : Time) (code : Code) (modByte : Byte) (s : State) : Result :=
  gatewayOp now (linkReqHandler now code modByte) s

/-- `UNLINK_REQ` (R243). -/
def execUnlinkReq (now : Time) (s : State) : Result := gatewayOp now unlinkReqHandler s

/-- `TICK` (R241): its handler is empty. -/
def execTick (now : Time) (s : State) : Result := gatewayOp now id s

/-- `ACKN` (R235), the handler part of the `UDP_RX` that carries it (log 8). -/
def execAckn (now : Time) (src : NetAddr) (s : State) : Result := gatewayHandler now (acknHandler now src) s

/-- `NACK` (R236; log 8). -/
def execNack (now : Time) (src : NetAddr) (s : State) : Result := gatewayHandler now (nackHandler src) s

/-- `DISC4` (R237; log 8). -/
def execDisc4 (now : Time) (src : NetAddr) (s : State) : Result := gatewayHandler now (disc4Handler src) s

/-- `PING` (R238; log 8). The code is not examined. -/
def execPing (now : Time) (src : NetAddr) (_code : Code) (s : State) : Result :=
  gatewayHandler now (pingHandler now src) s

/-- `DISC10` (R239; log 8). The code is not examined. -/
def execDisc10 (now : Time) (src : NetAddr) (_code : Code) (s : State) : Result :=
  gatewayHandler now (disc10Handler src) s

/-- `M17_RX` (R281; log 8). It is accepted from any source address (R280). -/
def execM17Rx (now : Time) (_src : NetAddr) (f : M17Frame) (s : State) : Result :=
  gatewayHandler now (m17Handler now f) s

/-- `DG_UNKNOWN` (R240; log 8). -/
def execDgUnknown (now : Time) (_src : NetAddr) (d : List Byte) (s : State) : Result :=
  gatewayHandler now (unknownHandler d) s

end Sys2Proof.Machine
end

