-- ==== Sys2Proof/Machine/Gateway.lean ====
section
/-!
DEFINITION. The dispatch of received datagrams (44_link.md R232) and the routing of outbound local traffic
(R260 to R262).
-/

namespace Sys2Proof.Machine

/-- The handler of `UDP_RX`: the rule of what the datagram decodes to (R232). -/
def datagramHandler (now : Time) (src : NetAddr) (d : List Byte) (s : State) : State :=
  match classifyDatagram d with
  | .ackn => acknHandler now src s
  | .nack => nackHandler src s
  | .disc4 => disc4Handler src s
  | .ping _ => pingHandler now src s
  | .disc10 _ => disc10Handler src s
  | .m17 f => m17Handler now f s
  | .unknown d => unknownHandler d s

/-- `UDP_RX` (R232). -/
def execUdpRx (now : Time) (sock : BitVec 1) (addr : BitVec Config.addrW) (d : List Byte) (s : State) : Result :=
  gatewayOp now (datagramHandler now ⟨sock, addr⟩ d) s

/-- The code `dst` resolves to the address held as the peer: case 1 of R261. -/
def resolvesToPeer (dst : Code) (s : State) : Bool :=
  s.link.peerValid && decide (Config.route dst = some s.link.peer)

/-- Routing of an outbound local frame `m` with destination `dst` (R261): the first case that applies. -/
def routeFrame (now : Time) (dst : Code) (m : List Byte) (s : State) : State :=
  if resolvesToPeer dst s then
    if s.link.state = .linked then s.emit (.udpTx s.link.peer m) else s
  else if Config.reqLink dst && decide (s.link.state = .unlinked) then
    linkReqHandler now (Config.linkTarget dst) (Config.linkModule dst) s
  else if dst = Config.unlinkCode then unlinkReqHandler s
  else
    match Config.route dst with
    | some a => s.emit (.udpTx a m)
    | none => s

/-- The handler of `LOCAL_RX` (R260, R262). The CRC of a local frame is not checked. -/
def localHandler (now : Time) (m : List Byte) (s : State) : State :=
  if h : m.length = Config.m17Len then
    if m17MagicOk m then routeFrame now (m17Dst ⟨m, h⟩) m s else s.log .format
  else s.log .len

/-- `LOCAL_RX` (R260). -/
def execLocalRx (now : Time) (m : List Byte) (s : State) : Result := gatewayOp now (localHandler now m) s

end Sys2Proof.Machine
end

