-- ==== Sys2Proof/Machine/Queue.lean ====
section
/-!
DEFINITION. The operations on the queue ports and `OQ_POP` (40_queue.md R122, R123, R125, R130;
30_encoding.md R95).
-/

namespace Sys2Proof.Machine

/-- `Q_PUSH` on queue `q` where it is enabled (R122); none where the queue is full. An element that is not
of the queue's type is none of its pushes. -/
def queuePush (s : State) : QueueId → Elem → Option State
  | .aqTx, .audio f =>
    if qFull .aqTx s.queues.aqTx then none
    else some { s with queues := { s.queues with aqTx := qPush s.queues.aqTx f } }
  | .sqTx, .tag t =>
    if qFull .sqTx s.queues.sqTx then none
    else some { s with queues := { s.queues with sqTx := qPush s.queues.sqTx t } }
  | .cqTx, .comp f =>
    if qFull .cqTx s.queues.cqTx then none
    else some { s with queues := { s.queues with cqTx := qPush s.queues.cqTx f } }
  | .oqLoop, .wire p =>
    if qFull .oqLoop s.queues.oqLoop then none
    else some { s with queues := { s.queues with oqLoop := qPush s.queues.oqLoop p } }
  | .oqGw, .wire p =>
    if qFull .oqGw s.queues.oqGw then none
    else some { s with queues := { s.queues with oqGw := qPush s.queues.oqGw p } }
  | .oqLink, .wire p =>
    if qFull .oqLink s.queues.oqLink then none
    else some { s with queues := { s.queues with oqLink := qPush s.queues.oqLink p } }
  | .cqRx, .comp f =>
    if qFull .cqRx s.queues.cqRx then none
    else some { s with queues := { s.queues with cqRx := qPush s.queues.cqRx f } }
  | .sqRx, .tag t =>
    if qFull .sqRx s.queues.sqRx then none
    else some { s with queues := { s.queues with sqRx := qPush s.queues.sqRx t } }
  | .aqRx, .audio f =>
    if qFull .aqRx s.queues.aqRx then none
    else some { s with queues := { s.queues with aqRx := qPush s.queues.aqRx f } }
  | _, _ => none

/-- `Q_POP` on queue `q` where it is enabled (R123): the element is removed and presented on the port
(log 6); none where the queue is empty. -/
def queuePop (s : State) : QueueId → Option State
  | .aqTx => (qPop s.queues.aqTx).map fun (e, l) =>
    { s with queues := { s.queues with aqTx := l }, portOut := some (.aqTx, .audio e) }
  | .sqTx => (qPop s.queues.sqTx).map fun (e, l) =>
    { s with queues := { s.queues with sqTx := l }, portOut := some (.sqTx, .tag e) }
  | .cqTx => (qPop s.queues.cqTx).map fun (e, l) =>
    { s with queues := { s.queues with cqTx := l }, portOut := some (.cqTx, .comp e) }
  | .oqLoop => (qPop s.queues.oqLoop).map fun (e, l) =>
    { s with queues := { s.queues with oqLoop := l }, portOut := some (.oqLoop, .wire e) }
  | .oqGw => (qPop s.queues.oqGw).map fun (e, l) =>
    { s with queues := { s.queues with oqGw := l }, portOut := some (.oqGw, .wire e) }
  | .oqLink => (qPop s.queues.oqLink).map fun (e, l) =>
    { s with queues := { s.queues with oqLink := l }, portOut := some (.oqLink, .wire e) }
  | .cqRx => (qPop s.queues.cqRx).map fun (e, l) =>
    { s with queues := { s.queues with cqRx := l }, portOut := some (.cqRx, .comp e) }
  | .sqRx => (qPop s.queues.sqRx).map fun (e, l) =>
    { s with queues := { s.queues with sqRx := l }, portOut := some (.sqRx, .tag e) }
  | .aqRx => (qPop s.queues.aqRx).map fun (e, l) =>
    { s with queues := { s.queues with aqRx := l }, portOut := some (.aqRx, .audio e) }

/-- The queues with queue `q` empty (R125). -/
def clearQueue (qs : Queues) : QueueId → Queues
  | .aqTx => { qs with aqTx := [] }
  | .sqTx => { qs with sqTx := [] }
  | .cqTx => { qs with cqTx := [] }
  | .oqLoop => { qs with oqLoop := [] }
  | .oqGw => { qs with oqGw := [] }
  | .oqLink => { qs with oqLink := [] }
  | .cqRx => { qs with cqRx := [] }
  | .sqRx => { qs with sqRx := [] }
  | .aqRx => { qs with aqRx := [] }

/-- `Q_NOP` (R95): no request. -/
def execQNop (_q : QueueId) (s : State) : Result := .next s

/-- `Q_PUSH` (R122): held while the queue is full. R122 tests nothing else, while R28 and R331 give a stage that does
not run no step; the model performs the push then too. DESIGN CHOICE, unsafe (log 28). -/
def execQPush (q : QueueId) (e : Elem) (s : State) : Result :=
  if e.fits q then orHeld s (queuePush s q e) else .refused .wrongElement

/-- `Q_POP` (R123): held while the queue is empty. R123 tests nothing else, while R28 and R331 give a stage that does
not run no step; the model performs the pop then too. DESIGN CHOICE, unsafe (log 28). -/
def execQPop (q : QueueId) (s : State) : Result := orHeld s (queuePop s q)

/-- `Q_CLR` (R125): always enabled. R125 puts clearing a queue while its producer or consumer stage runs
outside the specification (U1); the model performs it then too, and keeps run bits and hold registers. DESIGN
CHOICE, unsafe (log 26). -/
def execQClr (q : QueueId) (s : State) : Result := .next { s with queues := clearQueue s.queues q }

/-- `OQ_POP` where it is enabled (R130); none where the outbound queue is empty. -/
def oqPopStep (dest : Dest) (s : State) : Option State :=
  (qPop (s.queues.oq dest)).map fun (p, l) =>
    State.emit { s with queues := s.queues.setOq dest l } (.oqData dest p)

/-- `OQ_POP` (R130): held while the outbound queue is empty. -/
def execOqPop (dest : Dest) (s : State) : Result := orHeld s (oqPopStep dest s)

end Sys2Proof.Machine
end

