-- ==== Sys2Proof/Machine/Stages.lean ====
section
/-!
DEFINITION. The stage steps (41_sequencer.md R150 to R154), each after the take and put phases of
40_queue.md R129. Each `…Phase` answers none where neither phase is enabled: the stage is held (R13).
-/

namespace Sys2Proof.Machine

/-- The put phase of ENCI on frame `f` (R150). -/
def enciPut (f : AudioFrame) (s : State) : Option State :=
  if s.vocOpen = false then
    some ({ s with hold := { s.hold with enci := none }, run := { s.run with enci := false } }.log .notOpen)
  else if qFull .sqTx s.queues.sqTx then none
  else
    let sent := (s.emit (.vocSendAudio f.pcm)).nextDraw
    let moved :=
      match Config.sendAudioStatus s.draws with
      | .ok => { sent with queues := { s.queues with sqTx := qPush s.queues.sqTx f.tag } }
      | .ioerr => sent.log .devIo
    some { moved with
      hold := { s.hold with enci := none }
      run := { s.run with enci := s.run.enci && !endMark f.tag } }

/-- One step of ENCI (R150). -/
def enciPhase (s : State) : Option State :=
  if s.run.enci = false then none
  else
    match s.hold.enci with
    | some f => enciPut f s
    | none =>
      (qPop s.queues.aqTx).map fun (f, l) =>
        { s with queues := { s.queues with aqTx := l }, hold := { s.hold with enci := some f } }

/-- The take phase of ENCO on tag `tag`, with `l` the tags after it (R151). -/
def encoTake (tag : Tag) (l : List Tag) (s : State) : State :=
  if s.vocOpen = false then { s with run := { s.run with enco := false } }.log .notOpen
  else
    let popped := { s with queues := { s.queues with sqTx := l } }.nextDraw
    match Config.getDataStatus s.draws with
    | .ok => { popped with hold := { s.hold with enco := some ⟨drawnPayload s.draws, tag⟩ } }
    | .ioerr => { popped with run := { s.run with enco := s.run.enco && !endMark tag } }.log .devIo

/-- One step of ENCO (R151). -/
def encoPhase (s : State) : Option State :=
  if s.run.enco = false then none
  else
    match s.hold.enco with
    | some f =>
      if qFull .cqTx s.queues.cqTx then none
      else some { s with
        queues := { s.queues with cqTx := qPush s.queues.cqTx f }
        hold := { s.hold with enco := none }
        run := { s.run with enco := s.run.enco && !endMark f.tag } }
    | none => (qPop s.queues.sqTx).map fun (tag, l) => encoTake tag l s

/-- The put phase of DECI on frame `f` (R152). -/
def deciPut (f : CompressedFrame) (s : State) : Option State :=
  if s.vocOpen = false then
    some ({ s with hold := { s.hold with deci := none }, run := { s.run with deci := false } }.log .notOpen)
  else if qFull .sqRx s.queues.sqRx then none
  else
    let sent := (s.emit (.vocSendData f.payload)).nextDraw
    let moved :=
      match Config.sendDataStatus s.draws with
      | .ok => { sent with queues := { s.queues with sqRx := qPush s.queues.sqRx f.tag } }
      | .ioerr => sent.log .devIo
    some { moved with
      hold := { s.hold with deci := none }
      run := { s.run with deci := s.run.deci && !endMark f.tag } }

/-- One step of DECI (R152). -/
def deciPhase (s : State) : Option State :=
  if s.run.deci = false then none
  else
    match s.hold.deci with
    | some f => deciPut f s
    | none =>
      (qPop s.queues.cqRx).map fun (f, l) =>
        { s with queues := { s.queues with cqRx := l }, hold := { s.hold with deci := some f } }

/-- The take phase of DECO on tag `tag`, with `l` the tags after it (R153). -/
def decoTake (tag : Tag) (l : List Tag) (s : State) : State :=
  if s.vocOpen = false then { s with run := { s.run with deco := false } }.log .notOpen
  else
    let popped := { s with queues := { s.queues with sqRx := l } }.nextDraw
    match Config.getAudioStatus s.draws with
    | .ok => { popped with hold := { s.hold with deco := some ⟨drawnPcm s.draws, tag⟩ } }
    | .ioerr => { popped with run := { s.run with deco := s.run.deco && !endMark tag } }.log .devIo

/-- One step of DECO (R153). -/
def decoPhase (s : State) : Option State :=
  if s.run.deco = false then none
  else
    match s.hold.deco with
    | some f =>
      if qFull .aqRx s.queues.aqRx then none
      else some { s with
        queues := { s.queues with aqRx := qPush s.queues.aqRx f }
        hold := { s.hold with deco := none }
        run := { s.run with deco := s.run.deco && !endMark f.tag } }
    | none => (qPop s.queues.sqRx).map fun (tag, l) => decoTake tag l s

/-- PLAY takes frame `f`, with `l` the frames after it (R154). The frame is consumed whether or not the
device accepted it. -/
def playFrame (f : AudioFrame) (l : List AudioFrame) (s : State) : State :=
  let put := ({ s with queues := { s.queues with aqRx := l } }.emit (.playPut f.pcm)).nextDraw
  let told :=
    match Config.playStatus s.draws with
    | .ok => put
    | .ioerr => put.log .devIo
  { told with run := { s.run with play := s.run.play && !endMark f.tag } }

/-- One step of PLAY (R154). -/
def playPhase (s : State) : Option State :=
  if s.run.play = false then none
  else (qPop s.queues.aqRx).map fun (f, l) => playFrame f l s

/-- `ENCI_STEP` (R150). -/
def execEnciStep (s : State) : Result := orHeld s (enciPhase s)

/-- `ENCO_STEP` (R151). -/
def execEncoStep (s : State) : Result := orHeld s (encoPhase s)

/-- `DECI_STEP` (R152). -/
def execDeciStep (s : State) : Result := orHeld s (deciPhase s)

/-- `DECO_STEP` (R153). -/
def execDecoStep (s : State) : Result := orHeld s (decoPhase s)

/-- `PLAY_STEP` (R154). -/
def execPlayStep (s : State) : Result := orHeld s (playPhase s)

end Sys2Proof.Machine
end

