-- ==== Sys2Proof/Machine/Fetch.lean ====
section
/-!
DEFINITION. Which presented operation the next step performs (00_scope.md R6, R13; logs 1 and 2). DVQ has
no program counter and fetches nothing (R3): an operation is presented to it (30_encoding.md R93), and one
that is not enabled is held until it is.
-/

namespace Sys2Proof.Machine

/-- The operation is not enabled in this state and is held (R13). Every other operation is enabled or is
`refuse`d. A `Q_PUSH` or `Q_POP` on a port is held by a full or an empty queue alone (R122, R123), and not because
the stage that drives the port does not run (R28, R331). DESIGN CHOICE, unsafe (log 28). -/
def held (i : Instr) (s : State) : Bool :=
  match i with
  | .rxPacket _ pkt => (rxPhase pkt s).isNone
  | .oqPop dest => (oqPopStep dest s).isNone
  | .enciStep => (enciPhase s).isNone
  | .encoStep => (encoPhase s).isNone
  | .frHdr => (frHdrPhase s).isNone
  | .frVoice => (frVoicePhase s).isNone
  | .deciStep => (deciPhase s).isNone
  | .decoStep => (decoPhase s).isNone
  | .playStep => (playPhase s).isNone
  | .qPush q e => e.fits q && (queuePush s q e).isNone
  | .qPop q => (queuePop s q).isNone
  | .reset | .startTx .. | .stopTx | .startPlayback | .devOpen | .devClose | .cfgWr .. | .csEnc .. | .csLoad ..
  | .csDec .. | .csEq .. | .gwInit .. | .linkReq .. | .unlinkReq .. | .capTick .. | .udpRx .. | .localRx ..
  | .tick .. | .ackn .. | .nack .. | .disc4 .. | .ping .. | .disc10 .. | .m17Rx .. | .dgUnknown .. | .qNop ..
  | .qClr .. => false

/-- An operation whose place among those of its kind matters while one of them is held: a `RX_PACKET`, since
the calls of the receive entry points are one stream (R340). -/
def inPacketStream : Instr → Bool
  | .rxPacket .. => true
  | .reset | .startTx .. | .stopTx | .startPlayback | .devOpen | .devClose | .cfgWr .. | .oqPop .. | .csEnc ..
  | .csLoad .. | .csDec .. | .csEq .. | .gwInit .. | .linkReq .. | .unlinkReq .. | .capTick .. | .udpRx ..
  | .localRx .. | .tick .. | .enciStep | .encoStep | .frHdr | .frVoice | .deciStep | .decoStep | .playStep
  | .ackn .. | .nack .. | .disc4 .. | .ping .. | .disc10 .. | .m17Rx .. | .dgUnknown .. | .qNop .. | .qPush ..
  | .qPop .. | .qClr .. => false

/-- What the next step performs. -/
inductive Choice where
  /-- No presented operation is enabled. -/
  | idle
  /-- The request in turn names no operation. -/
  | bad (e : DecodeError)
  /-- Operation `i`; `rest` are the requests that stay presented. -/
  | run (i : Instr) (rest : List Request)
deriving DecidableEq, Repr

/-- The first enabled operation among `todo`, where the requests `before` were found held, and `waiting`
says that one of those is of the packet stream. R71 orders an agent's operations as the agent performs them and does
not say whether one may pass an earlier one of the same agent that is held; here it may, but for the packet stream.
DESIGN CHOICE, unsafe (log 27). -/
def chooseFrom (s : State) (before : List Request) (waiting : Bool) : List Request → Choice
  | [] => .idle
  | r :: todo =>
    match decode r with
    | .error e => .bad e
    | .ok i =>
      if held i s || (waiting && inPacketStream i) then
        chooseFrom s (before ++ [r]) (waiting || inPacketStream i) todo
      else .run i (before ++ todo)

/-- The operation that the next step performs: the first presented one that is enabled. -/
def choose (s : State) : Choice := chooseFrom s [] false s.pending

/-- The state with request `r` presented ahead of every other. -/
def presentFirst (r : Request) (s : State) : State := { s with pending := r :: s.pending }

end Sys2Proof.Machine
end

