-- ==== Sys2Proof/Machine/Dispatch.lean ====
section
/-!
DEFINITION. One arm per operation of the table (30_encoding.md R96): each is one call of its meaning.
-/

namespace Sys2Proof.Machine

def exec (i : Instr) (s : State) : Host.Outcome State Fault Refusal :=
  match i with
  | .reset => Sys2Proof.Machine.execReset s
  | .startTx dest ur sid => Sys2Proof.Machine.execStartTx dest ur sid s
  | .stopTx => Sys2Proof.Machine.execStopTx s
  | .startPlayback => Sys2Proof.Machine.execStartPlayback s
  | .rxPacket src pkt => Sys2Proof.Machine.execRxPacket src pkt s
  | .devOpen => Sys2Proof.Machine.execDevOpen s
  | .devClose => Sys2Proof.Machine.execDevClose s
  | .cfgWr reg val => Sys2Proof.Machine.execCfgWr reg val s
  | .oqPop dest => Sys2Proof.Machine.execOqPop dest s
  | .csEnc idx str => Sys2Proof.Machine.execCsEnc idx str s
  | .csLoad idx code => Sys2Proof.Machine.execCsLoad idx code s
  | .csDec idx => Sys2Proof.Machine.execCsDec idx s
  | .csEq a b => Sys2Proof.Machine.execCsEq a b s
  | .gwInit s0 s1 ch => Sys2Proof.Machine.execGwInit s0 s1 ch s
  | .linkReq now code modByte => Sys2Proof.Machine.execLinkReq now code modByte s
  | .unlinkReq now => Sys2Proof.Machine.execUnlinkReq now s
  | .capTick st pcm => Sys2Proof.Machine.execCapTick st pcm s
  | .udpRx now sock addr datagram => Sys2Proof.Machine.execUdpRx now sock addr datagram s
  | .localRx now message => Sys2Proof.Machine.execLocalRx now message s
  | .tick now => Sys2Proof.Machine.execTick now s
  | .enciStep => Sys2Proof.Machine.execEnciStep s
  | .encoStep => Sys2Proof.Machine.execEncoStep s
  | .frHdr => Sys2Proof.Machine.execFrHdr s
  | .frVoice => Sys2Proof.Machine.execFrVoice s
  | .deciStep => Sys2Proof.Machine.execDeciStep s
  | .decoStep => Sys2Proof.Machine.execDecoStep s
  | .playStep => Sys2Proof.Machine.execPlayStep s
  | .ackn now src => Sys2Proof.Machine.execAckn now src s
  | .nack now src => Sys2Proof.Machine.execNack now src s
  | .disc4 now src => Sys2Proof.Machine.execDisc4 now src s
  | .ping now src code => Sys2Proof.Machine.execPing now src code s
  | .disc10 now src code => Sys2Proof.Machine.execDisc10 now src code s
  | .m17Rx now src frame => Sys2Proof.Machine.execM17Rx now src frame s
  | .dgUnknown now src datagram => Sys2Proof.Machine.execDgUnknown now src datagram s
  | .qNop q => Sys2Proof.Machine.execQNop q s
  | .qPush q e => Sys2Proof.Machine.execQPush q e s
  | .qPop q => Sys2Proof.Machine.execQPop q s
  | .qClr q => Sys2Proof.Machine.execQClr q s

end Sys2Proof.Machine
end

