-- ==== Sys2Proof/Machine/Step.lean ====
section
/-!
DEFINITION. One step of DVQ: the first presented operation that is enabled is performed (00_scope.md R6,
R13; logs 1 and 2). Where none is, the machine waits and nothing changes (60_exceptions.md R315).
-/

namespace Sys2Proof.Machine

/-- One step. -/
def step (s : State) : Host.Outcome State Fault Refusal :=
  match choose s with
  | .idle => .next s
  | .bad e => .refused (.badRequest e)
  | .run i rest => exec i { s with pending := rest }

/-- The state with the operation of a table word presented ahead of every other (log 9). A datagram is
presented by a `UDP_RX` at the time of the last gateway operation. -/
def State.withFetchWord (s : State) (nbits w : Nat) : State :=
  presentFirst (tableRequest s.lastNow nbits w) s

end Sys2Proof.Machine
end

