-- ==== Sys2Proof/Safety.lean ====
section
/-!
DEFINITION. What a good state and a good run are, in the terms the statements use: the invariant of
10_state.md R23, R27, R29, R36, R39, R45 and 44_link.md R241, the agents of 00_scope.md R6, and the
sequences of operations that the laws of the spec speak of.
-/

namespace Sys2Proof.Machine

/-- The agent that performs an operation (R6; R230 for the two local requests, R26 for the queue ports);
none for `Q_NOP`, which is no request. -/
def agentOf : Instr → Option Agent
  | .reset | .startTx .. | .stopTx | .startPlayback | .devOpen | .devClose | .cfgWr .. | .oqPop .. | .csEnc ..
  | .csLoad .. | .csDec .. | .csEq .. | .gwInit .. | .qClr .. => some .host
  | .linkReq .. | .unlinkReq .. | .udpRx .. | .localRx .. | .tick .. | .ackn .. | .nack .. | .disc4 .. | .ping ..
  | .disc10 .. | .m17Rx .. | .dgUnknown .. => some .gw
  | .capTick .. => some .cap
  | .rxPacket .. => some .rxp
  | .enciStep => some .enci
  | .encoStep => some .enco
  | .frHdr | .frVoice => some .fr
  | .deciStep => some .deci
  | .decoStep => some .deco
  | .playStep => some .play
  | .qNop _ => none
  | .qPush q _ =>
    match q with
    | .aqTx => some .cap
    | .sqTx => some .enci
    | .cqTx => some .enco
    | .oqLoop | .oqGw | .oqLink => some .fr
    | .cqRx => some .rxp
    | .sqRx => some .deci
    | .aqRx => some .deco
  | .qPop q =>
    match q with
    | .aqTx => some .enci
    | .sqTx => some .enco
    | .cqTx => some .fr
    | .oqLoop | .oqGw | .oqLink => some .host
    | .cqRx => some .deci
    | .sqRx => some .deco
    | .aqRx => some .play

/-- Every field that the spec gives DVQ is at its reset value (R49). -/
structure AtReset (t : State) : Prop where
  queues     : t.queues = ⟨[], [], [], [], [], [], [], [], []⟩
  run        : t.run = ⟨false, false, false, false, false, false, false⟩
  hold       : t.hold = ⟨none, none, none, none, none⟩
  my8        : t.cfg.my8.toList = List.replicate 8 0x20#8
  rptA       : t.cfg.rptA.toList = List.replicate 8 0x20#8
  rptB       : t.cfg.rptB.toList = List.replicate 8 0x20#8
  txDest     : t.tx.dest = .loop
  txUr       : t.tx.ur.toList = List.replicate 8 0x20#8
  txSid      : t.tx.sid = 0#16
  seq        : t.seq = ⟨0#5, false⟩
  hdrPending : t.hdrPending = false
  rx         : t.rx = ⟨false, 0#16⟩
  vocOpen    : t.vocOpen = false
  cs         : t.cs.toList = [0#48, 0#48, 0#48, 0#48]
  gwRun      : t.gwRun = false
  link       : t.link = ⟨.unlinked, false, ⟨0#1, 0#48⟩, 0#48, 0#8, 0#64, 0#64⟩
  relay      : t.relay.active = false ∧ t.relay.sid = 0#16 ∧ t.relay.tLast = 0#64 ∧ t.relay.fn = 0#16
  relayLi    : t.relay.li.toList = List.replicate 14 0x00#8
  errstat    : t.errstat = 0#16

/-- The invariant of DVQ: what holds of every state a run reaches. -/
structure StateInvariant (s : State) : Prop where
  /-- `SEQ.count` is 0 to 20 (R32). -/
  seqCount : s.seq.count.toNat ≤ 20
  /-- A stop request stands only while the capture stage runs (R144, R149). -/
  stopReq : s.seq.stopReq = true → s.run.cap = true
  /-- Every `cs[i]` is at most `CS_MAX` (R36). -/
  codes : ∀ i, s.csGet i ≤ Config.csMax
  /-- A hold register is `none` whenever its stage's run bit is 0 (R29). -/
  enciHold : s.run.enci = false → s.hold.enci = none
  encoHold : s.run.enco = false → s.hold.enco = none
  frHold : s.run.fr = false → s.hold.fr = none
  deciHold : s.run.deci = false → s.hold.deci = none
  decoHold : s.run.deco = false → s.hold.deco = none
  /-- The peer is valid exactly when the state is `linking` or `linked` (R39). -/
  peerValid : s.link.peerValid = true ↔ s.link.state = .linking ∨ s.link.state = .linked
  /-- `LINK.target` is at most `CS_MAX` (R46). -/
  target : s.link.target ≤ Config.csMax
  /-- Bit 0 and bits 10 to 15 of `ERRSTAT` are never set (R301). -/
  errBits : s.errstat &&& 0xFC01#16 = 0#16
  /-- An idle receive session has stream id 0 (R34, R190). -/
  rxIdle : s.rx.active = false → s.rx.sid = 0#16
  /-- The last forwarded frame of an active relay session did not bear `LAST` (R285). -/
  relayFn : s.relay.active = true → s.relay.fn.getLsbD 15 = false
  /-- Each running timer's timestamp was an earlier `now` (R241). -/
  linkTime : s.link.state = .linking → s.link.tLink ≤ s.lastNow
  pingTime : s.link.state = .linked → s.link.tPing ≤ s.lastNow
  relayTime : s.relay.active = true → s.relay.tLast ≤ s.lastNow
  /-- No queue is longer than its depth (R27). -/
  depths : ∀ q d, Config.queueDepth q = some d → (s.queues.elems q).length ≤ d

/-- The operations of a list performed one after another, stopping at the first that is refused. -/
def execAll : List Instr → State → Result
  | [], s => .next s
  | i :: is, s =>
    match exec i s with
    | .next t => execAll is t
    | .fault r => .fault r
    | .refused r => .refused r

/-- The `now` of a gateway operation (R230); none for every other operation, the datagram rows among them, which
a run performs only inside `UDP_RX` (log 8). -/
def gatewayTime : Instr → Option Time
  | .linkReq now .. | .unlinkReq now | .udpRx now .. | .localRx now .. | .tick now => some now
  | .reset | .startTx .. | .stopTx | .startPlayback | .rxPacket .. | .devOpen | .devClose | .cfgWr .. | .oqPop ..
  | .csEnc .. | .csLoad .. | .csDec .. | .csEq .. | .gwInit .. | .capTick .. | .enciStep | .encoStep | .frHdr
  | .frVoice | .deciStep | .decoStep | .playStep | .ackn .. | .nack .. | .disc4 .. | .ping .. | .disc10 ..
  | .m17Rx .. | .dgUnknown .. | .qNop .. | .qPush .. | .qPop .. | .qClr .. => none

/-- The relay session of `s` accepts the datagram: it has the length and the magic of an M17Frame, passes the CRC
check, and is of the active session if there is one (R281, R282, R283). -/
def frameAccepted (d : List Byte) (s : State) : Prop :=
  d.length = 40 ∧ d.take 4 = [0x4D#8, 0x31#8, 0x37#8, 0x20#8] ∧
  (d.getD 39 0#8 ++ d.getD 38 0#8 : Half) = crc16x (d.take 38) ∧
  (s.relay.active = true → (d.getD 18 0#8 ++ d.getD 19 0#8 : Half) = s.relay.sid)

/-- No operation of the list, performed one after another from `s`, brings a frame that is accepted. -/
def acceptsNoFrame : List Instr → State → Prop
  | [], _ => True
  | i :: is, s =>
    (∀ now sock addr d, i = .udpRx now sock addr d → ¬ frameAccepted d s) ∧
    ∀ t, exec i s = .next t → acceptsNoFrame is t

/-- With the requests `ahead` before it, the request waits: its operation is held, or it is a packet behind a held
packet (R13, R340; log 2). -/
def waits (s : State) (ahead : List Request) (r : Request) : Prop :=
  ∃ i, decode r = .ok i ∧ (held i s = true ∨
    inPacketStream i = true ∧ ∃ p ∈ ahead, ∃ j, decode p = .ok j ∧ inPacketStream j = true ∧ held j s = true)

/-- What is emitted at the end of the trace is exactly `es`. -/
def Emitted (s t : State) (es : List Event) : Prop := t.trace = s.trace ++ es

/-- Pushes (`some e`) and pops (`none`) on one queue, one after another: the elements popped, in order, and
what is left. A pop of an empty queue is held (R123). -/
def queueRun {α : Type} : List (Option α) → List α → List α × List α
  | [], l => ([], l)
  | some e :: ops, l => queueRun ops (qPush l e)
  | none :: ops, l =>
    match qPop l with
    | none => queueRun ops l
    | some (e, l') => let r := queueRun ops l'; (e :: r.1, r.2)

/-- The tag of a frame in a hold register, as a list of at most one. -/
def audioTag (h : Option AudioFrame) : List Tag := h.toList.map AudioFrame.tag

def compTag (h : Option CompressedFrame) : List Tag := h.toList.map CompressedFrame.tag

/-- The tags of the voice packets of a packet queue (R84, R85). -/
def voiceTags (l : List WirePacket) : List Tag :=
  (l.filter fun p => wpConfig p == Config.cfgVoice).map wpControl

/-- The tags of all frames between the microphone and the outbound queue of the session, the frame that
left first at the head (R140). -/
def transmitLine (s : State) : List Tag :=
  voiceTags (s.queues.oq s.tx.dest) ++ compTag s.hold.fr ++ s.queues.cqTx.map CompressedFrame.tag ++
    compTag s.hold.enco ++ s.queues.sqTx ++ audioTag s.hold.enci ++ s.queues.aqTx.map AudioFrame.tag

/-- The tags of all frames between the inbound queue and the speaker (R140). -/
def receiveLine (s : State) : List Tag :=
  s.queues.aqRx.map AudioFrame.tag ++ audioTag s.hold.deco ++ s.queues.sqRx ++ compTag s.hold.deci ++
    s.queues.cqRx.map CompressedFrame.tag

end Sys2Proof.Machine
end

