-- ==== Sys2Proof/Certificates/Slice0/Obligations.lean ====
section
/-!
DEFINITION. The statements about DVQ that the provers settle.
-/

open Sys2Proof Sys2Proof.Machine

/-! ## Reset (R49, R330) -/

/-- The machine right after reset has the value of R49 in every field the spec gives it, and `RESET`, always
enabled, puts every such field back at that value and emits no event (R330, R331).
The values are the spec's decision D28; the model's own fields are those of
logs 1, 3, 4, 5 and 6. -/
def Obligations.ResetPutsEveryFieldAtItsResetValue : Prop :=
  AtReset State.reset ∧ ∀ s : State, ∃ t, exec .reset s = .next t ∧ AtReset t ∧ Emitted s t []

/-! ## Session control and the sequencer (R143 to R149) -/

/-- `START_TX` with all run bits 0 opens a transmit session and changes nothing else; otherwise it is
refused, and a destination code above 2 is refused at decode (R143).
Count and stream id rest on the spec's decisions D9 and D10, the refusal
on D31. -/
def Obligations.StartTxOpensATransmitSessionOrIsRefused : Prop :=
  (∀ dest ur sid s, s.run = ⟨false, false, false, false, false, false, false⟩ →
    exec (.startTx dest ur sid) s = .next { s with
      queues := ⟨[], [], [], [], [], [], [], [], []⟩
      hold := ⟨none, none, none, none, none⟩
      tx := ⟨dest, ur, sid⟩
      seq := ⟨0#5, false⟩
      hdrPending := true
      run := ⟨true, true, true, true, false, false, false⟩ }) ∧
  (∀ dest ur sid s, s.run ≠ ⟨false, false, false, false, false, false, false⟩ →
    exec (.startTx dest ur sid) s = .refused .startTxWhileRunning) ∧
  (∀ (b : Byte) l, 2 < b.toNat → decode (.cmd (0x01#8 :: b :: l)) = .error (.illegalOperand "dest"))

/-- `STOP_TX` sets `SEQ.stop_req` if the capture stage runs, and changes nothing else (R144).
With the stage stopped it is the spec's decision D37. -/
def Obligations.StopTxRequestsTheEndOfARunningCapture : Prop :=
  ∀ s : State,
    (s.run.cap = true → exec .stopTx s = .next { s with seq := ⟨s.seq.count, true⟩ }) ∧
    (s.run.cap = false → exec .stopTx s = .next s)

/-- `START_PLAYBACK` with all run bits 0 starts DECI, DECO and PLAY and changes nothing else, queues
included; otherwise it is refused (R145).
The condition on the encode halves is the spec's decision D40. -/
def Obligations.StartPlaybackStartsTheReceiveStagesOrIsRefused : Prop :=
  ∀ s : State,
    (s.run = ⟨false, false, false, false, false, false, false⟩ →
      exec .startPlayback s = .next { s with run := ⟨false, false, false, false, true, true, true⟩ }) ∧
    (s.run ≠ ⟨false, false, false, false, false, false, false⟩ →
      exec .startPlayback s = .refused .startPlaybackWhileRunning)

/-- `DEV_OPEN` and `DEV_CLOSE` write `VOC.open` alone (R146, R147).
They rest on the spec's decisions D8 and D30. -/
def Obligations.DeviceCommandsWriteTheOpenBitAlone : Prop :=
  ∀ s : State,
    exec .devOpen s = .next { s with vocOpen := true } ∧ exec .devClose s = .next { s with vocOpen := false }

/-- `CFG_WR` writes the register its number names and nothing else; any other number is refused at decode
(R148).
The register file is the spec's decision D13. -/
def Obligations.ConfigurationWriteReachesItsRegisterAlone : Prop :=
  (∀ (val : Bytes 8) (s : State),
    exec (.cfgWr .my8 val) s = .next { s with cfg := ⟨val, s.cfg.rptA, s.cfg.rptB⟩ } ∧
    exec (.cfgWr .rptA val) s = .next { s with cfg := ⟨s.cfg.my8, val, s.cfg.rptB⟩ } ∧
    exec (.cfgWr .rptB val) s = .next { s with cfg := ⟨s.cfg.my8, s.cfg.rptA, val⟩ }) ∧
  (∀ val : Bytes 8,
    decode (.cmd (0x07#8 :: 0x00#8 :: val.toList)) = .ok (.cfgWr .my8 val) ∧
    decode (.cmd (0x07#8 :: 0x01#8 :: val.toList)) = .ok (.cfgWr .rptA val) ∧
    decode (.cmd (0x07#8 :: 0x02#8 :: val.toList)) = .ok (.cfgWr .rptB val)) ∧
  (∀ (b : Byte) l, 2 < b.toNat → decode (.cmd (0x07#8 :: b :: l)) = .error (.illegalOperand "reg"))

/-- `CAP_TICK` (R149): no effect with `CAP.run` = 0; a device error is logged and uses no sequence value;
a good period is pushed with its tag, the count moves on modulo 21, and a requested end stops the stage; a
full `AQ_TX`, and nothing else, refuses it.
What a failed or a full tick does is the spec's decisions D29 and D5. -/
def Obligations.CaptureTickNumbersAndMarksItsFrame : Prop :=
  ∀ (st : DevStatus) (pcm : Pcm) (s : State),
    (s.run.cap = false → exec (.capTick st pcm) s = .next s) ∧
    (s.run.cap = true → exec (.capTick .ioerr pcm) s =
      .next { s with errstat := s.errstat ||| 0x0040#16, trace := s.trace ++ [.log .devIo] }) ∧
    (s.run.cap = true → qFull .aqTx s.queues.aqTx = false → exec (.capTick .ok pcm) s =
      .next { s with
        queues := { s.queues with aqTx := s.queues.aqTx ++
          [⟨pcm, (if s.seq.stopReq then 0x40#8 else 0x00#8) ||| s.seq.count.zeroExtend 8⟩] }
        seq := ⟨BitVec.ofNat 5 ((s.seq.count.toNat + 1) % 21), false⟩
        run := { s.run with cap := !s.seq.stopReq } }) ∧
    (exec (.capTick st pcm) s = .refused .captureQueueFull ↔
      s.run.cap = true ∧ st = .ok ∧ qFull .aqTx s.queues.aqTx = true)

/-- From a session with count 0 and no stop request, any number of good ticks, a stop request and one
more tick (R157, R48): either the queue fills and a tick is refused, or the k-th frame pushed carries
k mod 21, the last one and only it carries the end marker, and the stage has stopped.
The spec marks R157 as derived from R143, R144 and R149. -/
def Obligations.SequenceValuesCycleAndOnlyTheLastFrameIsMarked : Prop :=
  ∀ (pcms : List Pcm) (last : Pcm) (s : State),
    s.run.cap = true → s.seq = ⟨0#5, false⟩ →
    (∃ t, execAll (pcms.map (Instr.capTick .ok) ++ [.stopTx, .capTick .ok last]) s = .next t ∧
      t.queues.aqTx.map AudioFrame.pcm = s.queues.aqTx.map AudioFrame.pcm ++ pcms ++ [last] ∧
      t.queues.aqTx.map AudioFrame.tag = s.queues.aqTx.map AudioFrame.tag ++
        (List.range pcms.length).map (fun k => BitVec.ofNat 8 (k % 21)) ++
        [BitVec.ofNat 8 (0x40 + pcms.length % 21)] ∧
      t.run.cap = false ∧ t.seq = ⟨BitVec.ofNat 5 ((pcms.length + 1) % 21), false⟩) ∨
    execAll (pcms.map (Instr.capTick .ok) ++ [.stopTx, .capTick .ok last]) s = .refused .captureQueueFull

/-! ## The stages (R150 to R154) -/

/-- `ENCI_STEP` (R150): the take phase, the put phase with the vocoder closed, with it open under either
status, and the held stage.
The status is a free draw (log 4); the dropped frame is the spec's decision D29. -/
def Obligations.EnciStepTakesPutsOrIsHeld : Prop :=
  (∀ f l s, s.run.enci = true → s.hold.enci = none → s.queues.aqTx = f :: l →
    exec .enciStep s =
      .next { s with queues := { s.queues with aqTx := l }, hold := { s.hold with enci := some f } }) ∧
  (∀ f s, s.run.enci = true → s.hold.enci = some f → s.vocOpen = false →
    exec .enciStep s = .next { s with
      hold := { s.hold with enci := none }
      run := { s.run with enci := false }
      errstat := s.errstat ||| 0x0080#16
      trace := s.trace ++ [.log .notOpen] }) ∧
  (∀ f s, s.run.enci = true → s.hold.enci = some f → s.vocOpen = true → qFull .sqTx s.queues.sqTx = false →
    exec .enciStep s = .next
      (match Config.sendAudioStatus s.draws with
        | .ok => { s with
            queues := { s.queues with sqTx := s.queues.sqTx ++ [f.tag] }
            hold := { s.hold with enci := none }
            run := { s.run with enci := !f.tag.getLsbD 6 }
            trace := s.trace ++ [.vocSendAudio f.pcm]
            draws := s.draws + 1 }
        | .ioerr => { s with
            hold := { s.hold with enci := none }
            run := { s.run with enci := !f.tag.getLsbD 6 }
            errstat := s.errstat ||| 0x0040#16
            trace := s.trace ++ [.vocSendAudio f.pcm, .log .devIo]
            draws := s.draws + 1 })) ∧
  (∀ s, ¬ (s.run.enci = true ∧ (s.hold.enci = none ∧ s.queues.aqTx ≠ [] ∨
      s.hold.enci ≠ none ∧ (s.vocOpen = false ∨ qFull .sqTx s.queues.sqTx = false))) →
    exec .enciStep s = .next s)

/-- `ENCO_STEP` (R151).
Payload and status are free draws (log 4); the dropped frame is the spec's decision D29. -/
def Obligations.EncoStepTakesPutsOrIsHeld : Prop :=
  (∀ tag l s, s.run.enco = true → s.hold.enco = none → s.queues.sqTx = tag :: l → s.vocOpen = false →
    exec .encoStep s = .next { s with
      run := { s.run with enco := false }
      errstat := s.errstat ||| 0x0080#16
      trace := s.trace ++ [.log .notOpen] }) ∧
  (∀ tag l s, s.run.enco = true → s.hold.enco = none → s.queues.sqTx = tag :: l → s.vocOpen = true →
    exec .encoStep s = .next
      (match Config.getDataStatus s.draws with
        | .ok => { s with
            queues := { s.queues with sqTx := l }
            hold := { s.hold with enco := some ⟨FixedList.tabulate 9 (Config.getDataByte s.draws), tag⟩ }
            draws := s.draws + 1 }
        | .ioerr => { s with
            queues := { s.queues with sqTx := l }
            run := { s.run with enco := !tag.getLsbD 6 }
            errstat := s.errstat ||| 0x0040#16
            trace := s.trace ++ [.log .devIo]
            draws := s.draws + 1 })) ∧
  (∀ f s, s.run.enco = true → s.hold.enco = some f → qFull .cqTx s.queues.cqTx = false →
    exec .encoStep s = .next { s with
      queues := { s.queues with cqTx := s.queues.cqTx ++ [f] }
      hold := { s.hold with enco := none }
      run := { s.run with enco := !f.tag.getLsbD 6 } }) ∧
  (∀ s, ¬ (s.run.enco = true ∧ (s.hold.enco = none ∧ s.queues.sqTx ≠ [] ∨
      s.hold.enco ≠ none ∧ qFull .cqTx s.queues.cqTx = false)) →
    exec .encoStep s = .next s)

/-- `DECI_STEP` (R152).
The status is a free draw (log 4); the dropped frame is the spec's decision D29. -/
def Obligations.DeciStepTakesPutsOrIsHeld : Prop :=
  (∀ f l s, s.run.deci = true → s.hold.deci = none → s.queues.cqRx = f :: l →
    exec .deciStep s =
      .next { s with queues := { s.queues with cqRx := l }, hold := { s.hold with deci := some f } }) ∧
  (∀ f s, s.run.deci = true → s.hold.deci = some f → s.vocOpen = false →
    exec .deciStep s = .next { s with
      hold := { s.hold with deci := none }
      run := { s.run with deci := false }
      errstat := s.errstat ||| 0x0080#16
      trace := s.trace ++ [.log .notOpen] }) ∧
  (∀ f s, s.run.deci = true → s.hold.deci = some f → s.vocOpen = true → qFull .sqRx s.queues.sqRx = false →
    exec .deciStep s = .next
      (match Config.sendDataStatus s.draws with
        | .ok => { s with
            queues := { s.queues with sqRx := s.queues.sqRx ++ [f.tag] }
            hold := { s.hold with deci := none }
            run := { s.run with deci := !f.tag.getLsbD 6 }
            trace := s.trace ++ [.vocSendData f.payload]
            draws := s.draws + 1 }
        | .ioerr => { s with
            hold := { s.hold with deci := none }
            run := { s.run with deci := !f.tag.getLsbD 6 }
            errstat := s.errstat ||| 0x0040#16
            trace := s.trace ++ [.vocSendData f.payload, .log .devIo]
            draws := s.draws + 1 })) ∧
  (∀ s, ¬ (s.run.deci = true ∧ (s.hold.deci = none ∧ s.queues.cqRx ≠ [] ∨
      s.hold.deci ≠ none ∧ (s.vocOpen = false ∨ qFull .sqRx s.queues.sqRx = false))) →
    exec .deciStep s = .next s)

/-- `DECO_STEP` (R153).
Samples and status are free draws (log 4); the dropped frame is the spec's decision D29. -/
def Obligations.DecoStepTakesPutsOrIsHeld : Prop :=
  (∀ tag l s, s.run.deco = true → s.hold.deco = none → s.queues.sqRx = tag :: l → s.vocOpen = false →
    exec .decoStep s = .next { s with
      run := { s.run with deco := false }
      errstat := s.errstat ||| 0x0080#16
      trace := s.trace ++ [.log .notOpen] }) ∧
  (∀ tag l s, s.run.deco = true → s.hold.deco = none → s.queues.sqRx = tag :: l → s.vocOpen = true →
    exec .decoStep s = .next
      (match Config.getAudioStatus s.draws with
        | .ok => { s with
            queues := { s.queues with sqRx := l }
            hold := { s.hold with deco := some ⟨FixedList.tabulate 160 (Config.getAudioSample s.draws), tag⟩ }
            draws := s.draws + 1 }
        | .ioerr => { s with
            queues := { s.queues with sqRx := l }
            run := { s.run with deco := !tag.getLsbD 6 }
            errstat := s.errstat ||| 0x0040#16
            trace := s.trace ++ [.log .devIo]
            draws := s.draws + 1 })) ∧
  (∀ f s, s.run.deco = true → s.hold.deco = some f → qFull .aqRx s.queues.aqRx = false →
    exec .decoStep s = .next { s with
      queues := { s.queues with aqRx := s.queues.aqRx ++ [f] }
      hold := { s.hold with deco := none }
      run := { s.run with deco := !f.tag.getLsbD 6 } }) ∧
  (∀ s, ¬ (s.run.deco = true ∧ (s.hold.deco = none ∧ s.queues.sqRx ≠ [] ∨
      s.hold.deco ≠ none ∧ qFull .aqRx s.queues.aqRx = false)) →
    exec .decoStep s = .next s)

/-- `PLAY_STEP` (R154): the frame is consumed and put to the device under either status; the stage exits on
the end marker; it is held while it does not run or `AQ_RX` is empty (R154).
The status is a free draw, numbered by the model's counter (log 4); that the frame is consumed under either is the
spec's decision D29. -/
def Obligations.PlayStepPutsTheOldestFrameOrIsHeld : Prop :=
  (∀ f l s, s.run.play = true → s.queues.aqRx = f :: l →
    exec .playStep s = .next
      (match Config.playStatus s.draws with
        | .ok => { s with
            queues := { s.queues with aqRx := l }
            run := { s.run with play := !f.tag.getLsbD 6 }
            trace := s.trace ++ [.playPut f.pcm]
            draws := s.draws + 1 }
        | .ioerr => { s with
            queues := { s.queues with aqRx := l }
            run := { s.run with play := !f.tag.getLsbD 6 }
            errstat := s.errstat ||| 0x0040#16
            trace := s.trace ++ [.playPut f.pcm, .log .devIo]
            draws := s.draws + 1 })) ∧
  (∀ s, s.run.play = false ∨ s.queues.aqRx = [] → exec .playStep s = .next s)

/-- No stage operation of the transmit direction reorders, duplicates or invents a tag (R155, R126): the
tags between the microphone and the outbound queue stay as they are, or one tag is dropped and the step
logged an error.
The spec marks R155 and R126 as derived; that a
failed frame is dropped is its decision D29. -/
def Obligations.TransmitStagesKeepEveryTagInOrder : Prop :=
  ∀ (i : Instr) (s t : State), i = .enciStep ∨ i = .encoStep ∨ i = .frHdr ∨ i = .frVoice →
    exec i s = .next t →
    transmitLine t = transmitLine s ∨
    (∃ a x b c, transmitLine s = a ++ x :: b ∧ transmitLine t = a ++ b ∧
      (c = .devIo ∨ c = .notOpen) ∧ ∃ es, Emitted s t (es ++ [.log c]))

/-- The same for the receive direction, with `DECI_STEP` and `DECO_STEP`; `PLAY_STEP` removes the frame
at the head of `AQ_RX` and its tag, and only when it puts that frame to the device (R155, R126).
The spec marks R155 and R126 as derived; that a failed frame is
dropped is its decision D29. -/
def Obligations.ReceiveStagesKeepEveryTagInOrder : Prop :=
  (∀ (i : Instr) (s t : State), i = .deciStep ∨ i = .decoStep → exec i s = .next t →
    receiveLine t = receiveLine s ∨
    (∃ a x b c, receiveLine s = a ++ x :: b ∧ receiveLine t = a ++ b ∧
      (c = .devIo ∨ c = .notOpen) ∧ ∃ es, Emitted s t (es ++ [.log c]))) ∧
  (∀ s t : State, exec .playStep s = .next t →
    t = s ∨ ∃ (f : AudioFrame) (es : List Event), s.queues.aqRx = f :: t.queues.aqRx ∧
      receiveLine s = f.tag :: receiveLine t ∧ Emitted s t (.playPut f.pcm :: es))

/-- Among the operations other than `RESET`, a stage's run bit goes from 1 to 0 only in a step of that
stage, and only on the frame that carries the end marker or, for a vocoder stage, with the vocoder not open
(R28).
The run bits are the spec's decision D7. -/
def Obligations.StagesStopOnlyOnTheEndMarkerOrAClosedVocoder : Prop :=
  ∀ (i : Instr) (s t : State), i ≠ .reset → exec i s = .next t →
    (s.run.cap = true → t.run.cap = false → (∃ pcm, i = .capTick .ok pcm) ∧ s.seq.stopReq = true) ∧
    (s.run.enci = true → t.run.enci = false → i = .enciStep ∧
      ∃ f, s.hold.enci = some f ∧ (f.tag.getLsbD 6 = true ∨ s.vocOpen = false)) ∧
    (s.run.enco = true → t.run.enco = false → i = .encoStep ∧
      ((∃ f, s.hold.enco = some f ∧ f.tag.getLsbD 6 = true) ∨
        s.hold.enco = none ∧ ∃ tag l, s.queues.sqTx = tag :: l ∧ (tag.getLsbD 6 = true ∨ s.vocOpen = false))) ∧
    (s.run.fr = true → t.run.fr = false → i = .frVoice ∧
      ∃ f, s.hold.fr = some f ∧ f.tag.getLsbD 6 = true) ∧
    (s.run.deci = true → t.run.deci = false → i = .deciStep ∧
      ∃ f, s.hold.deci = some f ∧ (f.tag.getLsbD 6 = true ∨ s.vocOpen = false)) ∧
    (s.run.deco = true → t.run.deco = false → i = .decoStep ∧
      ((∃ f, s.hold.deco = some f ∧ f.tag.getLsbD 6 = true) ∨
        s.hold.deco = none ∧ ∃ tag l, s.queues.sqRx = tag :: l ∧ (tag.getLsbD 6 = true ∨ s.vocOpen = false))) ∧
    (s.run.play = true → t.run.play = false → i = .playStep ∧
      ∃ f l, s.queues.aqRx = f :: l ∧ f.tag.getLsbD 6 = true)

/-- With the vocoder not open, the stage that touches it logs the error, clears its run bit and its hold register
and forwards nothing, no other stage or queue changes, and once every stage has stopped the next `START_TX` starts
a fresh session (R303). -/
def Obligations.AClosedVocoderStopsOnlyTheStageThatTouchedIt : Prop :=
  ∀ s : State, s.vocOpen = false →
    (∀ f, s.run.enci = true → s.hold.enci = some f → exec .enciStep s = .next
      ({ s with hold := { s.hold with enci := none }, run := { s.run with enci := false } }.log .notOpen)) ∧
    (∀ tag l, s.run.enco = true → s.hold.enco = none → s.queues.sqTx = tag :: l → exec .encoStep s = .next
      ({ s with hold := { s.hold with enco := none }, run := { s.run with enco := false } }.log .notOpen)) ∧
    (∀ f, s.run.deci = true → s.hold.deci = some f → exec .deciStep s = .next
      ({ s with hold := { s.hold with deci := none }, run := { s.run with deci := false } }.log .notOpen)) ∧
    (∀ tag l, s.run.deco = true → s.hold.deco = none → s.queues.sqRx = tag :: l → exec .decoStep s = .next
      ({ s with hold := { s.hold with deco := none }, run := { s.run with deco := false } }.log .notOpen)) ∧
    (∀ (i : Instr) (t : State), (i = .enciStep ∨ i = .encoStep ∨ i = .deciStep ∨ i = .decoStep) →
      exec i s = .next t → t.run = ⟨false, false, false, false, false, false, false⟩ → ∀ dest ur sid,
      ∃ u, exec (.startTx dest ur sid) t = .next u ∧ u.queues = ⟨[], [], [], [], [], [], [], [], []⟩ ∧
        u.hold = ⟨none, none, none, none, none⟩ ∧ u.seq.stopReq = false ∧ u.hdrPending = true ∧
        u.run = ⟨true, true, true, true, false, false, false⟩)

/-! ## The queue arbiter (R120 to R130) -/

/-- The primitives of the queue arbiter (R120): a queue is empty exactly when its length is 0, and full exactly
when its depth is finite and equals its length, whatever its depth; a push appends the element, a pop takes the
oldest, a clear leaves nothing; and the elements of each queue are of its type. -/
def Obligations.QueuePrimitivesAreThoseOfTheArbiter : Prop :=
  (∀ (α : Type) (q : QueueId) (l : List α),
    (qEmpty l = true ↔ l.length = 0) ∧
    (qFull q l = true ↔ ∃ d, Config.queueDepth q = some d ∧ l.length = d)) ∧
  (∀ (α : Type) (l : List α) (e : α),
    qPush l e = l ++ [e] ∧ qPop (e :: l) = some (e, l) ∧ qPop ([] : List α) = none) ∧
  (∀ (qs : Queues) (q : QueueId), (clearQueue qs q).elems q = []) ∧
  (∀ (qs : Queues) (q : QueueId) (e : Elem), e ∈ qs.elems q → e.fits q = true)

/-- The queue port operations on every queue (R95, R122, R123, R125): a push appends, a pop removes and
returns the oldest element, a clear empties, `Q_NOP` does nothing, and no other queue or register changes. A
push on a full queue and a pop on an empty one are held.
How a port presents the popped element, who may use a port, and that a clear acts while a
stage of its queue runs and a push or a pop while its stage does not run, is the model's choice (logs 6, 7, 26 and
28); the hold on a full queue is the spec's decision D5. -/
def Obligations.QueuePortOperationsActOnTheirQueueAlone : Prop :=
  (∀ q s, exec (.qNop q) s = .next s) ∧
  (∀ q (e : Elem) s, e.fits q = true → qFull q (s.queues.elems q) = false →
    ∃ t, exec (.qPush q e) s = .next t ∧ t.queues.elems q = s.queues.elems q ++ [e] ∧
      (∀ p, p ≠ q → t.queues.elems p = s.queues.elems p) ∧ t = { s with queues := t.queues }) ∧
  (∀ q (e : Elem) s, e.fits q = true →
    exec (.qPush q e) s = .next s ∨ qFull q (s.queues.elems q) = false) ∧
  (∀ q e l s, s.queues.elems q = e :: l →
    ∃ t, exec (.qPop q) s = .next t ∧ t.queues.elems q = l ∧ t.portOut = some (q, e) ∧
      (∀ p, p ≠ q → t.queues.elems p = s.queues.elems p) ∧
      t = { s with queues := t.queues, portOut := t.portOut }) ∧
  (∀ q s, s.queues.elems q = [] → exec (.qPop q) s = .next s) ∧
  (∀ q s, ∃ t, exec (.qClr q) s = .next t ∧ t.queues.elems q = [] ∧
      (∀ p, p ≠ q → t.queues.elems p = s.queues.elems p) ∧ t = { s with queues := t.queues })

/-- `OQ_POP` hands out the oldest packet of the named outbound queue and leaves the others; on an empty
queue it is held; a destination above 2 is refused at decode (R130).
That the host is the consumer is the spec's decision D33. -/
def Obligations.OutboundPopDeliversTheOldestPacket : Prop :=
  (∀ dest p l s, s.queues.oq dest = p :: l →
    ∃ t, exec (.oqPop dest) s = .next t ∧ t.queues.oq dest = l ∧
      (∀ q, q ≠ oqId dest → t.queues.elems q = s.queues.elems q) ∧
      t = { s with queues := t.queues, trace := s.trace ++ [.oqData dest p] }) ∧
  (∀ dest s, s.queues.oq dest = [] → exec (.oqPop dest) s = .next s) ∧
  (∀ (b : Byte) l, 2 < b.toNat → decode (.cmd (0x08#8 :: b :: l)) = .error (.illegalOperand "dest"))

/-- The FIFO law (R126): over any sequence of pushes and pops on one queue, what was popped followed by what
is left is what was there followed by what was pushed.
The spec marks R126 as derived. -/
def Obligations.QueuesAreStrictlyFirstInFirstOut : Prop :=
  ∀ (ops : List (Option Elem)) (l : List Elem),
    (queueRun ops l).1 ++ (queueRun ops l).2 = l ++ ops.filterMap id

/-! ## The CRC-16 and the packet framer (R180 to R190) -/

/-- The table-driven form of the CRC gives the same value for every input (R181).
The spec marks R181 as derived from R180. -/
def Obligations.TableFormOfTheCrcAgreesWithTheBitwiseForm : Prop :=
  ∀ b : List Byte, crc16Table b = crc16Raw b

/-- Flipping any single bit within the checked bytes changes the CRC (R184).
The spec marks R184 as derived from R180. -/
def Obligations.CrcDetectsEverySingleBitFlip : Prop :=
  ∀ (a c : List Byte) (x : Byte) (k : Nat), k < 8 →
    crc16x (a ++ (x ^^^ (1#8 <<< k)) :: c) ≠ crc16x (a ++ x :: c)

/-- The packets built have the listed field at every offset, and the header packet passes its own check (R185,
R187, R183).
The layout is the spec's decision D11, the constant bytes are the parameter
values of log 11. -/
def Obligations.BuiltPacketsCarryTheirFieldsAndPassTheirCrc : Prop :=
  (∀ s : State,
    (mkHeader s).toList.take 54 =
      [0x44#8, 0x53#8, 0x56#8, 0x54#8, 0x10#8, 0x20#8, 0x00#8, 0x00#8, 0x00#8] ++
      [s.tx.sid.extractLsb' 8 8, s.tx.sid.extractLsb' 0 8, 0x80#8] ++ s.cfg.rptA.toList ++ s.cfg.rptB.toList ++
      s.tx.ur.toList ++ s.cfg.my8.toList ++ List.replicate 10 0x00#8 ∧
    (mkHeader s).toList.drop 54 =
      [(crc16x (((mkHeader s).toList.drop 15).take 39)).extractLsb' 0 8,
       (crc16x (((mkHeader s).toList.drop 15).take 39)).extractLsb' 8 8] ∧
    crcOkWp (mkHeader s) = true) ∧
  (∀ (sid : Half) (payload : Bytes 9) (tag : Tag),
    (mkVoice sid payload tag).toList =
      [0x44#8, 0x53#8, 0x56#8, 0x54#8, 0x20#8, 0x20#8, 0x00#8, 0x00#8, 0x00#8] ++
      [sid.extractLsb' 8 8, sid.extractLsb' 0 8, tag] ++ payload.toList ++ List.replicate 35 0x00#8)

/-- `FR_HDR` pushes the header packet of the session once and clears `FR.hdr_pending`; otherwise it is held
(R186).
The separate step is the spec's decision D36. -/
def Obligations.HeaderStepPushesTheHeaderOnce : Prop :=
  (∀ s : State, s.run.fr = true → s.hdrPending = true →
    qFull (oqId s.tx.dest) (s.queues.oq s.tx.dest) = false →
    ∃ t, exec .frHdr s = .next t ∧ t.queues.oq s.tx.dest = s.queues.oq s.tx.dest ++ [mkHeader s] ∧
      (∀ q, q ≠ oqId s.tx.dest → t.queues.elems q = s.queues.elems q) ∧
      t = { s with queues := t.queues, hdrPending := false }) ∧
  (∀ s : State, ¬ (s.run.fr = true ∧ s.hdrPending = true ∧
      qFull (oqId s.tx.dest) (s.queues.oq s.tx.dest) = false) → exec .frHdr s = .next s)

/-- `FR_VOICE` (R187): it takes a frame only once the header is out, and puts it as the 56-byte voice packet of
the session, its tag unchanged; it exits on the end marker, and is held in every other case. -/
def Obligations.VoiceStepTakesPutsOrIsHeld : Prop :=
  (∀ f l s, s.run.fr = true → s.hdrPending = false → s.hold.fr = none → s.queues.cqTx = f :: l →
    exec .frVoice s =
      .next { s with queues := { s.queues with cqTx := l }, hold := { s.hold with fr := some f } }) ∧
  (∀ f s, s.run.fr = true → s.hold.fr = some f →
    qFull (oqId s.tx.dest) (s.queues.oq s.tx.dest) = false →
    ∃ t p, exec .frVoice s = .next t ∧
      p.toList = Config.wpMagic.toList ++ [Config.cfgVoice, Config.idVal] ++ Config.flagsVal.toList ++
        [s.tx.sid.extractLsb' 8 8, s.tx.sid.extractLsb' 0 8, f.tag] ++ f.payload.toList ++
        Config.slow3.toList ++ List.replicate 32 0x00#8 ∧
      t.queues.oq s.tx.dest = s.queues.oq s.tx.dest ++ [p] ∧
      (∀ q, q ≠ oqId s.tx.dest → t.queues.elems q = s.queues.elems q) ∧
      t = { s with
        queues := t.queues
        hold := { s.hold with fr := none }
        run := { s.run with fr := !f.tag.getLsbD 6 } }) ∧
  (∀ s, ¬ (s.run.fr = true ∧
      (s.hold.fr = none ∧ s.hdrPending = false ∧ s.queues.cqTx ≠ [] ∨
       s.hold.fr ≠ none ∧ qFull (oqId s.tx.dest) (s.queues.oq s.tx.dest) = false)) →
    exec .frVoice s = .next s)

/-- `RX_PACKET` (R188, R189): a packet of the wrong magic or `config` is logged as `E_FORMAT`; a header
packet whose trailer, low byte first, is not the CRC of its bytes 15 to 53 as `E_CRC` (R183); a good header starts
the receive stages if no session is active, and records its stream id.
The tests of magic, `config` and CRC on receipt are the spec's decision D14, the
`config` bytes the parameter values of log 11. -/
def Obligations.ReceivedHeaderStartsOrRefreshesASession : Prop :=
  ∀ (src : RxSource) (pkt : WirePacket) (s : State),
    ((pkt.toList.take 4 ≠ [0x44#8, 0x53#8, 0x56#8, 0x54#8] ∨
        pkt.toList.getD 4 0#8 ≠ 0x10#8 ∧ pkt.toList.getD 4 0#8 ≠ 0x20#8) →
      exec (.rxPacket src pkt) s =
        .next { s with errstat := s.errstat ||| 0x0004#16, trace := s.trace ++ [.log .format] }) ∧
    (pkt.toList.take 4 = [0x44#8, 0x53#8, 0x56#8, 0x54#8] → pkt.toList.getD 4 0#8 = 0x10#8 →
      pkt.toList.getD 55 0#8 ++ pkt.toList.getD 54 0#8 ≠ crc16x ((pkt.toList.drop 15).take 39) →
      exec (.rxPacket src pkt) s =
        .next { s with errstat := s.errstat ||| 0x0010#16, trace := s.trace ++ [.log .crc] }) ∧
    (pkt.toList.take 4 = [0x44#8, 0x53#8, 0x56#8, 0x54#8] → pkt.toList.getD 4 0#8 = 0x10#8 →
      pkt.toList.getD 55 0#8 ++ pkt.toList.getD 54 0#8 = crc16x ((pkt.toList.drop 15).take 39) →
      exec (.rxPacket src pkt) s =
        .next { s with
          run := if s.rx.active then s.run else { s.run with deci := true, deco := true, play := true }
          rx := ⟨true, pkt.toList.getD 9 0#8 ++ pkt.toList.getD 10 0#8⟩ })

/-- `RX_PACKET` on a voice packet (R190): a foreign stream id is logged as `E_SID`; otherwise the payload and
the tag are enqueued, and the end marker makes the session idle; a full `CQ_RX` holds it.
The spec's decision D14; the `config` byte is the parameter value of log 11. -/
def Obligations.ReceivedVoiceIsEnqueuedOrDropped : Prop :=
  ∀ (src : RxSource) (pkt : WirePacket) (s : State),
    pkt.toList.take 4 = [0x44#8, 0x53#8, 0x56#8, 0x54#8] → pkt.toList.getD 4 0#8 = 0x20#8 →
    ((s.rx.active = false ∨ pkt.toList.getD 9 0#8 ++ pkt.toList.getD 10 0#8 ≠ s.rx.sid) →
      exec (.rxPacket src pkt) s =
        .next { s with errstat := s.errstat ||| 0x0020#16, trace := s.trace ++ [.log .sid] }) ∧
    (s.rx.active = true → pkt.toList.getD 9 0#8 ++ pkt.toList.getD 10 0#8 = s.rx.sid →
      exec (.rxPacket src pkt) s =
        if qFull .cqRx s.queues.cqRx then .next s
        else .next { s with
          queues := { s.queues with cqRx := s.queues.cqRx ++ [⟨pkt.slice 12 9, pkt.toList.getD 11 0#8⟩] }
          rx := if (pkt.toList.getD 11 0#8).getLsbD 6 then ⟨false, 0#16⟩ else s.rx })

/-- What the framer builds, the receive side reads back: the header of a session opens a receive session
with its stream id, and each voice packet of that id delivers its payload and tag unchanged (R187, R189,
R190, R191).
The spec marks R191 as derived. -/
def Obligations.PacketsBuiltAreReceivedUnchanged : Prop :=
  (∀ (src : RxSource) (x s : State), s.rx.active = false →
    ∃ t, exec (.rxPacket src (mkHeader x)) s = .next t ∧ t.rx = ⟨true, x.tx.sid⟩ ∧
      t.run.deci = true ∧ t.run.deco = true ∧ t.run.play = true ∧ t.queues = s.queues) ∧
  (∀ (src : RxSource) (f : CompressedFrame) (s : State), s.rx.active = true →
    qFull .cqRx s.queues.cqRx = false →
    ∃ t, exec (.rxPacket src (mkVoice s.rx.sid f.payload f.tag)) s = .next t ∧
      t.queues = { s.queues with cqRx := s.queues.cqRx ++ [f] } ∧ (t.rx.active = !f.tag.getLsbD 6))

/-! ## The callsign codec (R210 to R217) -/

/-- The codec law (R217): decoding the code of a string of at most 9 characters of the alphabet gives the
string padded with spaces to 9; no two distinct canonical strings share a code; every code up to `CS_MAX` is
the code of the string it decodes to; and no greater code decodes (R212).
The spec marks R217 as derived from R211 and R212. -/
def Obligations.CallsignCodecRoundTripsAndIsInjective : Prop :=
  (∀ str : List Byte, str.length ≤ 9 → (∀ c ∈ str, c ∈ csAlphabet) →
    ∃ v out, csEncode str = some v ∧ csDecode v = some out ∧
      out.toList = str ++ List.replicate (9 - str.length) 0x20#8) ∧
  (∀ (a b : Bytes 9) (v : Code), csEncode a.toList = some v → csEncode b.toList = some v → a = b) ∧
  (∀ v : Code, v ≤ 0xEE6B27FFFFFF#48 → ∃ out, csDecode v = some out ∧ csEncode out.toList = some v) ∧
  (∀ v : Code, 0xEE6B27FFFFFF#48 < v → csDecode v = none)

/-- `CS_ENC` and `CS_LOAD` (R213, R214): a valid operand is written to the named register alone and reported
with status 0; an invalid one is logged, reported with status 1, and leaves every register as it was; an
index of 4 or more is refused at decode.
What an invalid character does, and the register file, is the spec's decision D17. -/
def Obligations.CodecLoadsWriteOneRegisterOrNone : Prop :=
  (∀ (idx : Fin 4) (str : Bytes 9) (s : State), (∀ c ∈ str.toList, c ∈ csAlphabet) →
    ∃ v, csEncode str.toList = some v ∧
      exec (.csEnc idx str) s = .next { s with
        cs := ⟨s.cs.toList.set idx.val v, by simp⟩
        trace := s.trace ++ [.csResult 0#8 []] }) ∧
  (∀ (idx : Fin 4) (str : Bytes 9) (s : State), (∃ c ∈ str.toList, c ∉ csAlphabet) →
    exec (.csEnc idx str) s = .next { s with
      errstat := s.errstat ||| 0x0200#16
      trace := s.trace ++ [.log .csInvalid, .csResult 1#8 []] }) ∧
  (∀ (idx : Fin 4) (code : Code) (s : State), code ≤ 0xEE6B27FFFFFF#48 →
    exec (.csLoad idx code) s = .next { s with
      cs := ⟨s.cs.toList.set idx.val code, by simp⟩
      trace := s.trace ++ [.csResult 0#8 []] }) ∧
  (∀ (idx : Fin 4) (code : Code) (s : State), 0xEE6B27FFFFFF#48 < code →
    exec (.csLoad idx code) s = .next { s with
      errstat := s.errstat ||| 0x0200#16
      trace := s.trace ++ [.log .csInvalid, .csResult 1#8 []] }) ∧
  (∀ (b : Byte) l, 4 ≤ b.toNat →
    decode (.cmd (0x10#8 :: b :: l)) = .error (.illegalOperand "idx") ∧
    decode (.cmd (0x11#8 :: b :: l)) = .error (.illegalOperand "idx"))

/-- `CS_DEC` and `CS_EQ` (R215, R216): the one emits the nine characters of a valid register, the other
whether the two raw codes are equal (R215, R216); neither writes anything else; an index of 4 or more is refused
at decode.
The register file is the spec's decision D17, and that it has 4 registers the parameter `NCS` of log 11. -/
def Obligations.CodecReadsReportWithoutWriting : Prop :=
  (∀ (idx : Fin 4) (s : State), s.csGet idx ≤ 0xEE6B27FFFFFF#48 →
    ∃ out, csDecode (s.csGet idx) = some out ∧
      exec (.csDec idx) s = .next { s with trace := s.trace ++ [.csResult 0#8 out.toList] }) ∧
  (∀ (i j : Fin 4) (s : State), exec (.csEq i j) s = .next { s with
    trace := s.trace ++ [.csResult 0#8 [if s.cs.toList[i.val]? = s.cs.toList[j.val]? then 1#8 else 0#8]] }) ∧
  (∀ (b : Byte) l, 4 ≤ b.toNat →
    decode (.cmd (0x12#8 :: b :: l)) = .error (.illegalOperand "idx") ∧
    decode (.cmd (0x13#8 :: b :: l)) = .error (.illegalOperand "i") ∧
    ∀ c : Byte, c.toNat < 4 → decode (.cmd (0x13#8 :: c :: b :: l)) = .error (.illegalOperand "j"))

/-! ## The gateway engine (R230 to R263) -/

/-- `GW_INIT` (R231).
The operation is the spec's decision D34. -/
def Obligations.GatewayInitStartsTheEngineOrReportsFailure : Prop :=
  ∀ (s0 s1 ch : Bool) (s : State),
    (s.gwRun = false → (s0 = true ∧ s1 = true ∧ ch = true) → exec (.gwInit s0 s1 ch) s =
      .next { s with gwRun := true, trace := s.trace ++ [.initResult false] }) ∧
    (s.gwRun = false → (s0 = false ∨ s1 = false ∨ ch = false) → exec (.gwInit s0 s1 ch) s =
      .next { s with
        errstat := s.errstat ||| 0x0100#16
        trace := s.trace ++ [.log .setup, .initResult true] }) ∧
    (s.gwRun = true → exec (.gwInit s0 s1 ch) s = .refused .gatewayAlreadyRunning)

/-- Every gateway operation runs its handler and then evaluates the timers at its `now`, when `GW.run` = 1
and `now` has not decreased (R230, R232).
The order is the spec's decision D20; that `lastNow` holds the last time is
the model's choice (log 5). -/
def Obligations.GatewayOperationsRunTheirHandlerThenTheTimers : Prop :=
  ∀ (now : Time) (s : State), s.gwRun = true → s.lastNow ≤ now →
    (∀ sock addr d, exec (.udpRx now sock addr d) s =
      .next (evalTimers now (datagramHandler now ⟨sock, addr⟩ d { s with lastNow := now }))) ∧
    (∀ m, exec (.localRx now m) s = .next (evalTimers now (localHandler now m { s with lastNow := now }))) ∧
    exec (.tick now) s = .next (evalTimers now { s with lastNow := now }) ∧
    (∀ code m, exec (.linkReq now code m) s =
      .next (evalTimers now (linkReqHandler now code m { s with lastNow := now }))) ∧
    exec (.unlinkReq now) s = .next (evalTimers now (unlinkReqHandler { s with lastNow := now }))

/-- Every operation of the agent GW is refused when `GW.run` = 0, and when its `now` is below that of an
earlier one (R309, R341).
The refusals are the spec's decisions D31 and D19; the model holds the last time
in `lastNow` (log 5) and lets a datagram row stand alone (log 8). -/
def Obligations.GatewayOperationsAreRefusedBeforeInitAndOnDecreasingTime : Prop :=
  ∀ (now : Time) (src : NetAddr) (s : State),
    (s.gwRun = false ∨ now < s.lastNow) →
    ∀ i, (i = .tick now ∨ i = .unlinkReq now ∨ (∃ code m, i = .linkReq now code m) ∨
        (∃ d, i = .udpRx now src.sock src.addr d) ∨ (∃ m, i = .localRx now m) ∨ i = .ackn now src ∨
        i = .nack now src ∨ i = .disc4 now src ∨ (∃ c, i = .ping now src c) ∨ (∃ c, i = .disc10 now src c) ∨
        (∃ f, i = .m17Rx now src f) ∨ (∃ d, i = .dgUnknown now src d)) →
      exec i s = .refused (if s.gwRun = false then .gatewayNotRunning else .timeDecreased)

/-- `UDP_RX` performs exactly the row its datagram decodes to, and then the timers (R232, R91).
That a row can stand alone is the model's choice (log 8). -/
def Obligations.UdpReceiveRunsTheRowItsDatagramDecodesTo : Prop :=
  ∀ (now : Time) (src : NetAddr) (d : List Byte) (s t : State),
    exec (decodeDatagram now src d) s = .next t →
    exec (.udpRx now src.sock src.addr d) s = .next (evalTimers now t)

/-- Every byte string decodes to exactly the row of R91: by length, then by tag.
The rows for an unlisted tag are the spec's decision D39. -/
def Obligations.DatagramsDecodeByLengthThenTag : Prop :=
  ∀ (now : Time) (src : NetAddr) (d : List Byte),
    (decodeDatagram now src d = .ackn now src ↔ d = [0x41#8, 0x43#8, 0x4B#8, 0x4E#8]) ∧
    (decodeDatagram now src d = .nack now src ↔ d = [0x4E#8, 0x41#8, 0x43#8, 0x4B#8]) ∧
    (decodeDatagram now src d = .disc4 now src ↔ d = [0x44#8, 0x49#8, 0x53#8, 0x43#8]) ∧
    ((∃ c, decodeDatagram now src d = .ping now src c) ↔
      d.length = 10 ∧ d.take 4 = [0x50#8, 0x49#8, 0x4E#8, 0x47#8]) ∧
    ((∃ c, decodeDatagram now src d = .disc10 now src c) ↔
      d.length = 10 ∧ d.take 4 = [0x44#8, 0x49#8, 0x53#8, 0x43#8]) ∧
    ((∃ f, decodeDatagram now src d = .m17Rx now src f ∧ f.toList = d) ↔ d.length = 40) ∧
    (decodeDatagram now src d = .dgUnknown now src d ↔ isUnknownDatagram d = true)

/-- A link request from `unlinked` with a valid code (R234): with a route it sends CONN there, notes the
peer, the target, the module and the time, and goes to `linking`; without one nothing happens. In another
state nothing happens, and an invalid code is logged. The timers follow (R230).
Nothing happening in another state, or without a route, is the spec's
decision D21; the route table is fixed for a run (log 12). -/
def Obligations.LinkRequestSendsConnAndStartsLinking : Prop :=
  ∀ (now : Time) (code : Code) (m : Byte) (s : State), s.gwRun = true → s.lastNow ≤ now →
    (s.link.state = .unlinked → code ≤ 0xEE6B27FFFFFF#48 →
      exec (.linkReq now code m) s = .next (evalTimers now
        (match Config.route code with
          | none => { s with lastNow := now }
          | some a => { s with
              lastNow := now
              link := ⟨.linking, true, a, code, m, now, s.link.tPing⟩
              trace := s.trace ++
                [.udpTx a ([0x43#8, 0x4F#8, 0x4E#8, 0x4E#8] ++ (be48 (s.csGet 0)).toList ++ [m])] }))) ∧
    (s.link.state = .unlinked → 0xEE6B27FFFFFF#48 < code →
      exec (.linkReq now code m) s = .next (evalTimers now { s with
        lastNow := now, errstat := s.errstat ||| 0x0200#16, trace := s.trace ++ [.log .csInvalid] })) ∧
    (s.link.state ≠ .unlinked →
      exec (.linkReq now code m) s = .next (evalTimers now { s with lastNow := now }))

/-- `UNLINK_REQ` (R243): the 10-byte DISC goes to a valid peer, and the link state is left as it is until the
timers are evaluated.
The 10-byte form is the spec's decision D22. -/
def Obligations.UnlinkRequestSendsDiscToThePeer : Prop :=
  ∀ (now : Time) (s : State), s.gwRun = true → s.lastNow ≤ now →
    (s.link.peerValid = true → exec (.unlinkReq now) s = .next (evalTimers now { s with
      lastNow := now
      trace := s.trace ++
        [.udpTx s.link.peer ([0x44#8, 0x49#8, 0x53#8, 0x43#8] ++ (be48 (s.csGet 0)).toList)] })) ∧
    (s.link.peerValid = false → exec (.unlinkReq now) s = .next (evalTimers now { s with lastNow := now }))

/-- The 4-byte control datagrams from the current peer (R235, R236, R237).
The cases the source leaves out are the spec's decision D21; that a row stands
alone, without the timers, is the model's choice (log 8). -/
def Obligations.ControlDatagramsFromThePeerMoveTheLink : Prop :=
  ∀ (now : Time) (s : State), s.gwRun = true → s.lastNow ≤ now → s.link.peerValid = true →
    (s.link.state = .linking →
      exec (.ackn now s.link.peer) s =
        .next { s with lastNow := now, link := { s.link with state := .linked, tPing := now } } ∧
      exec (.nack now s.link.peer) s =
        .next { s with lastNow := now, link := { s.link with state := .unlinked, peerValid := false } } ∧
      exec (.disc4 now s.link.peer) s =
        .next { s with lastNow := now, link := { s.link with state := .unlinked, peerValid := false } }) ∧
    (s.link.state = .linked →
      exec (.ackn now s.link.peer) s = .next { s with lastNow := now } ∧
      exec (.nack now s.link.peer) s = .next { s with lastNow := now } ∧
      exec (.disc4 now s.link.peer) s = .next { s with
        lastNow := now
        link := { s.link with state := .unlinked, peerValid := false }
        trace := s.trace ++ [.routeRelease s.link.target] })

/-- PING and the 10-byte DISC from the current peer while `linked` (R238, R239): the one is answered with a
PONG and restarts the keepalive timer, the other releases the route and unlinks.
The spec's decision D22; that a row stands alone, without the timers, is the
model's choice (log 8). -/
def Obligations.KeepaliveDatagramsFromThePeerAreAnswered : Prop :=
  ∀ (now : Time) (code : Code) (s : State), s.gwRun = true → s.lastNow ≤ now → s.link.peerValid = true →
    s.link.state = .linked →
    exec (.ping now s.link.peer code) s = .next { s with
      lastNow := now
      link := { s.link with tPing := now }
      trace := s.trace ++
        [.udpTx s.link.peer ([0x50#8, 0x4F#8, 0x4E#8, 0x47#8] ++ (be48 (s.csGet 0)).toList)] } ∧
    exec (.disc10 now s.link.peer code) s = .next { s with
      lastNow := now
      link := { s.link with state := .unlinked, peerValid := false }
      trace := s.trace ++ [.routeRelease s.link.target] }

/-- A control datagram that is not valid is logged as `E_PEER` and changes nothing else (R233, R304).
That a row stands alone is the model's choice
(log 8). -/
def Obligations.InvalidControlDatagramsAreLoggedAndChangeNothing : Prop :=
  ∀ (now : Time) (src : NetAddr) (code : Code) (s : State), s.gwRun = true → s.lastNow ≤ now →
    (¬ ((s.link.state = .linking ∨ s.link.state = .linked) ∧ s.link.peerValid = true ∧ src = s.link.peer) →
      ∀ i, (i = .ackn now src ∨ i = .nack now src ∨ i = .disc4 now src) → exec i s = .next { s with
        lastNow := now, errstat := s.errstat ||| 0x0008#16, trace := s.trace ++ [.log .peer] }) ∧
    (¬ (s.link.state = .linked ∧ s.link.peerValid = true ∧ src = s.link.peer) →
      ∀ i, (i = .ping now src code ∨ i = .disc10 now src code) → exec i s = .next { s with
        lastNow := now, errstat := s.errstat ||| 0x0008#16, trace := s.trace ++ [.log .peer] })

/-- An unknown datagram is logged, by its length as `E_FORMAT` or `E_LEN`, and discarded (R240).
That a row stands alone is the model's choice (log 8). -/
def Obligations.UnknownDatagramsAreLoggedAndDiscarded : Prop :=
  ∀ (now : Time) (src : NetAddr) (d : List Byte) (s : State), s.gwRun = true → s.lastNow ≤ now →
    isUnknownDatagram d = true →
    exec (.dgUnknown now src d) s = .next
      (if d.length = 4 ∨ d.length = 10 then
        { s with lastNow := now, errstat := s.errstat ||| 0x0004#16, trace := s.trace ++ [.log .format] }
      else { s with lastNow := now, errstat := s.errstat ||| 0x0002#16, trace := s.trace ++ [.log .len] })

/-- `TICK` (R241, R284): the link-establishment timer unlinks without a release, the keepalive timer at
exactly 30000 ms unlinks with one, the relay timer at exactly 2000 ms emits the closing frame and closes the
session; before its limit no timer does anything.
The first timer and its length are the spec's decision D21 and an open parameter
(log 12). -/
def Obligations.TickExpiresEachTimerAtItsLimit : Prop :=
  ∀ (now : Time) (s : State), s.gwRun = true → s.lastNow ≤ now →
    exec (.tick now) s =
      (let relayEnds := s.relay.active = true ∧ 2000 ≤ (now - s.relay.tLast).toNat
       let linkEnds := s.link.state = .linking ∧ Config.tLinkMs ≤ (now - s.link.tLink).toNat
       let pingEnds := s.link.state = .linked ∧ 30000 ≤ (now - s.link.tPing).toNat
       .next { s with
        lastNow := now
        link := if linkEnds ∨ pingEnds then { s.link with state := .unlinked, peerValid := false } else s.link
        relay := if relayEnds then { s.relay with active := false } else s.relay
        trace := s.trace ++ (if pingEnds then [.routeRelease s.link.target] else []) ++
          (if relayEnds then [.localTx (mkClosing s.relay).toList] else []) })

/-- `LOCAL_RX` (R260, R261, R262): a message of the wrong length or magic is logged and discarded; an
M17Frame is routed by the first case that applies. The timers follow (R230).
The spec's decisions D24 and D25; the configuration functions are open
parameters (log 12). -/
def Obligations.LocalFramesAreRoutedByTheFirstCaseThatApplies : Prop :=
  ∀ (now : Time) (m : List Byte) (s : State), s.gwRun = true → s.lastNow ≤ now →
    (m.length ≠ 40 → exec (.localRx now m) s = .next (evalTimers now { s with
      lastNow := now, errstat := s.errstat ||| 0x0002#16, trace := s.trace ++ [.log .len] })) ∧
    (m.length = 40 → m.take 4 ≠ [0x4D#8, 0x31#8, 0x37#8, 0x20#8] →
      exec (.localRx now m) s = .next (evalTimers now { s with
        lastNow := now, errstat := s.errstat ||| 0x0004#16, trace := s.trace ++ [.log .format] })) ∧
    (∀ f : M17Frame, f.toList = m → m.take 4 = [0x4D#8, 0x31#8, 0x37#8, 0x20#8] →
      exec (.localRx now m) s = .next (evalTimers now
        (let s' := { s with lastNow := now }
         let dst : Code := fromBe48 (f.slice 4 6)
         if s.link.peerValid = true ∧ Config.route dst = some s.link.peer then
           (if s.link.state = .linked then { s' with trace := s.trace ++ [.udpTx s.link.peer m] } else s')
         else if Config.reqLink dst = true ∧ s.link.state = .unlinked then
           linkReqHandler now (Config.linkTarget dst) (Config.linkModule dst) s'
         else if dst = Config.unlinkCode then
           (if s.link.peerValid = true then
             { s' with trace := s.trace ++
               [.udpTx s.link.peer ([0x44#8, 0x49#8, 0x53#8, 0x43#8] ++ (be48 (s.csGet 0)).toList)] }
            else s')
         else
           match Config.route dst with
           | some a => { s' with trace := s.trace ++ [.udpTx a m] }
           | none => s')))

/-- The link law (R264): ACKN after a link request yields `linked` and NACK `unlinked`, and from `linked` 30 s
without a PING yields `unlinked` and one route release. It holds for every route table and every
`T_LINK_MS`; with a `T_LINK_MS` of 0 the request itself times out at once and the ACKN finds no peer.
The spec marks R264 as derived. -/
def Obligations.LinkRequestThenAnswerDecidesTheLink : Prop :=
  ∀ (t0 t1 t2 : Time) (code : Code) (m : Byte) (s : State), s.gwRun = true → s.lastNow ≤ t0 → t0 ≤ t1 →
    t1 ≤ t2 → s.link.state = .unlinked → s.relay.active = false → code ≤ 0xEE6B27FFFFFF#48 →
    match Config.route code with
    | none => ∃ t, exec (.linkReq t0 code m) s = .next t ∧ t.link = s.link ∧ t.trace = s.trace
    | some a =>
      (∃ t, execAll [.linkReq t0 code m, .udpRx t1 a.sock a.addr [0x41#8, 0x43#8, 0x4B#8, 0x4E#8]] s = .next t ∧
        if Config.tLinkMs = 0 then t.link.state = .unlinked
        else t.link.state = .linked ∧ t.link.peer = a ∧ t.link.tPing = t1 ∧
          ∃ u, exec (.tick t2) t = .next u ∧
            if 30000 ≤ (t2 - t1).toNat then u.link.state = .unlinked ∧ Emitted t u [.routeRelease code]
            else u.link = t.link ∧ Emitted t u []) ∧
      (∃ t, execAll [.linkReq t0 code m, .udpRx t1 a.sock a.addr [0x4E#8, 0x41#8, 0x43#8, 0x4B#8]] s = .next t ∧
        t.link.state = .unlinked ∧ t.link.peerValid = false)

/-! ## The relay session (R280 to R286) -/

/-- `M17_RX` (R281, R282, R283): the magic, then the CRC, then the stream id are checked; an accepted frame is
forwarded byte for byte, opens or refreshes the session, and closes it if it bears `LAST`.
The spec's decision D26; that a row stands alone, without the timers,
is the model's choice (log 8). -/
def Obligations.RelayedFramesAreCheckedAndForwarded : Prop :=
  ∀ (now : Time) (src : NetAddr) (f : M17Frame) (s : State), s.gwRun = true → s.lastNow ≤ now →
    (f.toList.take 4 ≠ [0x4D#8, 0x31#8, 0x37#8, 0x20#8] → exec (.m17Rx now src f) s = .next { s with
      lastNow := now, errstat := s.errstat ||| 0x0004#16, trace := s.trace ++ [.log .format] }) ∧
    (f.toList.take 4 = [0x4D#8, 0x31#8, 0x37#8, 0x20#8] →
      f.toList.getD 39 0#8 ++ f.toList.getD 38 0#8 ≠ crc16x (f.toList.take 38) →
      exec (.m17Rx now src f) s = .next { s with
        lastNow := now, errstat := s.errstat ||| 0x0010#16, trace := s.trace ++ [.log .crc] }) ∧
    (f.toList.take 4 = [0x4D#8, 0x31#8, 0x37#8, 0x20#8] →
      f.toList.getD 39 0#8 ++ f.toList.getD 38 0#8 = crc16x (f.toList.take 38) →
      exec (.m17Rx now src f) s = .next
        (if s.relay.active = true ∧ f.toList.getD 18 0#8 ++ f.toList.getD 19 0#8 ≠ s.relay.sid then
          { s with lastNow := now, errstat := s.errstat ||| 0x0020#16, trace := s.trace ++ [.log .sid] }
        else { s with
          lastNow := now
          relay :=
            { active := !(f.toList.getD 20 0#8).getLsbD 7
              sid := f.toList.getD 18 0#8 ++ f.toList.getD 19 0#8
              tLast := now
              li := f.slice 4 14
              fn := f.toList.getD 20 0#8 ++ f.toList.getD 21 0#8 }
          trace := s.trace ++ [.localTx f.toList] }))

/-- The synthesized closing frame (R285): it has the listed fields, bears `LAST`, counts on from the last
forwarded frame, and passes the CRC check.
The spec's decision D26; the silence bytes are an open parameter
(log 12). -/
def Obligations.ClosingFrameBearsLastAndPassesItsCrc : Prop :=
  ∀ r : RelayRegs,
    (mkClosing r).toList.take 20 = [0x4D#8, 0x31#8, 0x37#8, 0x20#8] ++ r.li.toList ++
      [r.sid.extractLsb' 8 8, r.sid.extractLsb' 0 8] ∧
    ((mkClosing r).toList.getD 20 0#8 ++ (mkClosing r).toList.getD 21 0#8 : Half) =
      BitVec.ofNat 16 ((r.fn.toNat + 1) % 0x8000 + 0x8000) ∧
    ((mkClosing r).toList.drop 22).take 16 =
      (silence (r.li.toList.getD 12 0#8 ++ r.li.toList.getD 13 0#8)).toList ∧
    ((mkClosing r).toList.getD 39 0#8 ++ (mkClosing r).toList.getD 38 0#8 : Half) =
      crc16x ((mkClosing r).toList.take 38)

/-- The relay law (R286): of any sequence of gateway operations that accept no frame, the first at or after the
limit emits exactly one closing frame, which bears `LAST` and passes the CRC check, and ends the session, and no
other operation emits a frame, whatever the link does.
The spec marks R286 as derived; its closing frame is the spec's decision D26, and the order of time is held in the
model's own `lastNow` (log 5). -/
def Obligations.SilentRelaySessionEndsWithExactlyOneClosingFrame : Prop :=
  ∀ (ops : List Instr) (nows : List Time) (s : State), s.gwRun = true → s.relay.active = true →
    s.relay.tLast ≤ s.lastNow → ops.map gatewayTime = nows.map some →
    List.Pairwise (· ≤ ·) (s.lastNow :: nows) → acceptsNoFrame ops s →
    ∃ t es, execAll ops s = .next t ∧ Emitted s t es ∧
      ((∃ n ∈ nows, s.relay.tLast.toNat + 2000 ≤ n.toNat) →
        t.relay = { s.relay with active := false } ∧
          ∃ g : M17Frame, es.filter (fun e => match e with | .localTx _ => true | _ => false) = [.localTx g.toList] ∧
            g = mkClosing s.relay ∧ (g.toList.getD 20 0#8).getLsbD 7 = true ∧
            (g.toList.getD 39 0#8 ++ g.toList.getD 38 0#8 : Half) = crc16x (g.toList.take 38)) ∧
      ((∀ n ∈ nows, n.toNat < s.relay.tLast.toNat + 2000) →
        t.relay = s.relay ∧ es.filter (fun e => match e with | .localTx _ => true | _ => false) = [])

/-! ## Rules over all operations -/

/-- `ERRSTAT` is sticky and every error is logged (R45, R300): an operation other than `RESET` clears no bit of
`ERRSTAT`, and the bits it sets are exactly those of the `LOG` events it emits at the end of the trace.
The register is the spec's decision D27. -/
def Obligations.ErrorBitsAreStickyAndEachIsLogged : Prop :=
  ∀ (i : Instr) (s t : State), i ≠ .reset → exec i s = .next t →
    s.errstat &&& t.errstat = s.errstat ∧
    ∃ es, Emitted s t es ∧
      t.errstat = es.foldl (fun e ev => match ev with | .log c => e ||| (1#16 <<< errNumber c) | _ => e) s.errstat

/-- Which operations may write which registers (R36, R30, R31, R35, R46, R69): the gateway's registers change
only in an operation of the agent GW or in `RESET`, `cs[*]` only in `CS_ENC`, `CS_LOAD` and `RESET`, `CFG.*`
only in `CFG_WR` and `RESET`, `TX.*` only in `START_TX` and `RESET`, `VOC.open` only in `DEV_OPEN`,
`DEV_CLOSE` and `RESET`, `GW.run` only in `GW_INIT` and `RESET`.
The spec's decision D2 and D35. -/
def Obligations.RegistersAreWrittenOnlyByTheirOwnOperations : Prop :=
  ∀ (i : Instr) (s t : State), i ≠ .reset → exec i s = .next t →
    (agentOf i ≠ some .gw → t.link = s.link ∧ t.relay = s.relay) ∧
    ((∀ idx str, i ≠ .csEnc idx str) → (∀ idx c, i ≠ .csLoad idx c) → t.cs = s.cs) ∧
    ((∀ reg val, i ≠ .cfgWr reg val) → t.cfg = s.cfg) ∧
    ((∀ d u n, i ≠ .startTx d u n) → t.tx = s.tx) ∧
    (i ≠ .devOpen → i ≠ .devClose → t.vocOpen = s.vocOpen) ∧
    ((∀ a b c, i ≠ .gwInit a b c) → t.gwRun = s.gwRun)

/-- The gateway touches nothing of the pipeline: an operation of the agent GW changes no queue, run bit, hold
register, `CFG`, `TX`, `SEQ` or `RX` register, and neither the codec nor `GW.run`.
It follows from the handlers of 44_link.md sections 1 to 3 and of 45_relay.md, none of which writes one of these
(91_not_in_source.md N14: "they share nothing but `cs[0]`"); R280 and R69 say the converse. The spec's decisions D2 and
D26. -/
def Obligations.GatewayOperationsLeaveThePipelineAlone : Prop :=
  ∀ (i : Instr) (s t : State), agentOf i = some .gw → exec i s = .next t →
    t.queues = s.queues ∧ t.run = s.run ∧ t.hold = s.hold ∧ t.cfg = s.cfg ∧ t.tx = s.tx ∧ t.seq = s.seq ∧
      t.hdrPending = s.hdrPending ∧ t.rx = s.rx ∧ t.vocOpen = s.vocOpen ∧ t.cs = s.cs ∧ t.gwRun = s.gwRun

/-- The invariant of DVQ (`StateInvariant`) holds right after reset; the reset values of the model's own fields
are its choice (logs 1, 3, 4, 5 and 6). -/
def Obligations.ResetStateMeetsTheInvariant : Prop := StateInvariant State.reset

/-- Every step keeps the invariant of DVQ (`StateInvariant`), whatever is presented (R29, R32, R36, R39, R241,
R301, R27): the sequence count stays 0 to 20; a stop request stands only while the capture stage runs; every
callsign register and the link target stay at most `CS_MAX`; the hold register of a stage that does not run is
empty; the peer is valid exactly while linking or linked; the unused bits of `ERRSTAT` stay 0; an idle receive
session has stream id 0; the last frame of an active relay session did not bear `LAST`; every running timer was
started no later than the last gateway operation; no queue is longer than its depth. The register file, the timers
as time stamps and the error register are the spec's decisions D17, D19 and D27; `lastNow` is the model's own
field (log 5) and the depths are open parameters (log 12). -/
def Obligations.EveryStepKeepsTheInvariant : Prop :=
  ∀ s t : State, StateInvariant s → step s = .next t → StateInvariant t

/-! ## Decoding, encoding and the step (R93 to R97, R13) -/

/-- Decoding the encoding of a well-formed operation gives it back; a datagram row comes back as the `UDP_RX`
that carries its datagram, and that datagram decodes to the row (R93 to R96, R91).
The formats are the spec's decisions D3 and
D6; the request that carries a datagram row is the model's choice (log 8). -/
def Obligations.DecodeInvertsEncode : Prop :=
  ∀ i : Instr, i.wf = true →
    match datagramBytes i with
    | none => decode (encode i) = .ok i
    | some d => ∃ now src, decode (encode i) = .ok (.udpRx now src.sock src.addr d) ∧
        decodeDatagram now src d = i

/-- What the decoder reads from a command's bytes is well-formed, and its encoding is those bytes: no two
byte strings present one command, and no bit is dropped (R93).
The format is the spec's decision D3; that a wrong length and an unlisted `sock`
are refused is the model's choice (logs 10 and 25). -/
def Obligations.EveryDecodedCommandIsItsOwnEncoding : Prop :=
  ∀ (b : List Byte) (i : Instr), decode (.cmd b) = .ok i → i.wf = true ∧ encode i = .cmd b

/-- Words of the spec's encodings decode to the operations they stand for (R96, R100, R88), and every opcode byte
that R96 does not list is refused by name (R97).
The codes and the refusal are the spec's decisions D3 and D31. -/
def Obligations.ListedWordsDecodeAndReservedOpcodesAreRefused : Prop :=
  decode (.cmd [0x01#8, 0x01#8, 0x43#8, 0x51#8, 0x43#8, 0x51#8, 0x43#8, 0x51#8, 0x20#8, 0x20#8, 0x12#8, 0x34#8]) =
    .ok (.startTx .gw ⟨[0x43#8, 0x51#8, 0x43#8, 0x51#8, 0x43#8, 0x51#8, 0x20#8, 0x20#8], rfl⟩ 0x1234#16) ∧
  decode (.cmd [0x33#8, 0x00#8, 0x00#8, 0x00#8, 0x00#8, 0x00#8, 0x00#8, 0x88#8, 0xB8#8]) =
    .ok (.tick 35000#64) ∧
  decode (.cmd [0x11#8, 0x02#8, 0x06#8, 0x42#8, 0x2C#8, 0x40#8, 0x00#8, 0x00#8]) =
    .ok (.csLoad 2 0x06422C400000#48) ∧
  decodeDatagram 7#64 ⟨1#1, 9#48⟩ [0x50#8, 0x49#8, 0x4E#8, 0x47#8, 0x51#8, 0xC9#8, 0xDC#8, 0x63#8, 0x64#8, 0x41#8] =
    .ping 7#64 ⟨1#1, 9#48⟩ 0x51C9DC636441#48 ∧
  (∀ (opc : Byte) (l : List Byte),
    (0x09 ≤ opc.toNat ∧ opc.toNat ≤ 0x0F ∨ 0x14 ≤ opc.toNat ∧ opc.toNat ≤ 0x1F ∨
      0x23 ≤ opc.toNat ∧ opc.toNat ≤ 0x2F ∨ 0x34 ≤ opc.toNat ∧ opc.toNat ≤ 0x3F ∨ 0x47 ≤ opc.toNat) →
    decode (.cmd (opc :: l)) = .error (.reservedOpcode opc))

/-- A step runs the decoded instruction: where the first request presented decodes to an operation that is
enabled, the step is that operation on the state without the request; where it names none, the step is
refused by name; where nothing is presented, nothing changes. How requests are presented is the model's
choice (logs 1 and 2). -/
def Obligations.AStepRunsTheFirstOperationPresented : Prop :=
  (∀ (r : Request) (todo : List Request) (i : Instr) (s : State), s.pending = r :: todo → decode r = .ok i →
    held i s = false → step s = exec i { s with pending := todo }) ∧
  (∀ (r : Request) (todo : List Request) (e : DecodeError) (s : State), s.pending = r :: todo →
    decode r = .error e → step s = .refused (.badRequest e)) ∧
  (∀ s : State, s.pending = [] → step s = .next s)

/-- Held requests do not stop the others, and a packet never passes a held packet (R13, R6, R340): the first
request that does not wait runs in the next step, and those ahead of it stay presented in their order; a request
waits while its operation is held, and a `RX_PACKET`, enabled or not, while a `RX_PACKET` ahead of it is held.
Where everything presented waits, nothing changes, and an operation that is held changes nothing itself. How held
requests are kept, and that a request may pass a held one of the same agent, is the model's choice (logs 2 and 27). -/
def Obligations.HeldOperationsStayPresentedAndLetOthersRun : Prop :=
  (∀ (ahead todo : List Request) (r : Request) (i : Instr) (s : State), s.pending = ahead ++ r :: todo →
    (∀ a q b, ahead = a ++ q :: b → waits s a q) → ¬ waits s ahead r → decode r = .ok i →
    step s = exec i { s with pending := ahead ++ todo }) ∧
  (∀ s : State, (∀ a q b, s.pending = a ++ q :: b → waits s a q) → step s = .next s) ∧
  (∀ (src src' : RxSource) (pkt pkt' : WirePacket) (s : State),
    s.pending = [encode (.rxPacket src pkt), encode (.rxPacket src' pkt')] → held (.rxPacket src pkt) s = true →
    step s = .next s) ∧
  (∀ (i : Instr) (s : State), held i s = true → exec i s = .next s)

/-- The status port (R46): a register number that R46 does not list names no register; the read of each listed
register has the width and the value of R46's table, `STAGE.run` with its seven bits in that order, a byte string
with its byte 0 most significant, the read of a queue length the number of its elements; and every read fits its
width.
The numbers are the spec's decision D35, the widths of the address and of the register file the parameters of
log 11; the order of bytes is the model's choice (log 24), and so is that the width of a queue length is left
open (log 20). -/
def Obligations.StatusPortReadsGiveEachRegisterItsWidthAndValue : Prop :=
  (∀ (s : State) (n : Byte), statusRead s n = none ↔
    ¬ (n.toNat ≤ 0x02 ∨ 0x10 ≤ n.toNat ∧ n.toNat ≤ 0x18 ∨ 0x20 ≤ n.toNat ∧ n.toNat ≤ 0x26 ∨
      0x28 ≤ n.toNat ∧ n.toNat ≤ 0x2B ∨ n.toNat = 0x30 ∨ 0x40 ≤ n.toNat ∧ n.toNat ≤ 0x43 ∨
      0x50 ≤ n.toNat ∧ n.toNat ≤ 0x58)) ∧
  (∀ (s : State) (n : Byte) (r : RegRead) (w : Nat), statusRead s n = some r → r.width = some w →
    r.value < 2 ^ w) ∧
  (∀ s : State,
    let bytes (l : List Byte) : Nat :=
      ((List.range l.length).map fun k => (l.getD k 0#8).toNat * 256 ^ (l.length - 1 - k)).sum
    statusRead s 0x00#8 = some ⟨some 64, bytes s.cfg.my8.toList⟩ ∧
    statusRead s 0x01#8 = some ⟨some 64, bytes s.cfg.rptA.toList⟩ ∧
    statusRead s 0x02#8 = some ⟨some 64, bytes s.cfg.rptB.toList⟩ ∧
    statusRead s 0x10#8 = some ⟨some 2, match s.tx.dest with | .loop => 0 | .gw => 1 | .link => 2⟩ ∧
    statusRead s 0x11#8 = some ⟨some 64, bytes s.tx.ur.toList⟩ ∧
    statusRead s 0x12#8 = some ⟨some 16, s.tx.sid.toNat⟩ ∧
    statusRead s 0x13#8 = some ⟨some 5, s.seq.count.toNat⟩ ∧
    statusRead s 0x14#8 = some ⟨some 1, s.seq.stopReq.toNat⟩ ∧
    statusRead s 0x15#8 = some ⟨some 7, s.run.cap.toNat + 2 * s.run.enci.toNat + 4 * s.run.enco.toNat +
      8 * s.run.fr.toNat + 16 * s.run.deci.toNat + 32 * s.run.deco.toNat + 64 * s.run.play.toNat⟩ ∧
    statusRead s 0x16#8 = some ⟨some 1, s.hdrPending.toNat⟩ ∧
    statusRead s 0x17#8 = some ⟨some 17, 0x10000 * s.rx.active.toNat + s.rx.sid.toNat⟩ ∧
    statusRead s 0x18#8 = some ⟨some 1, s.vocOpen.toNat⟩ ∧
    statusRead s 0x20#8 = some ⟨some 1, s.gwRun.toNat⟩ ∧
    statusRead s 0x21#8 =
      some ⟨some 2, match s.link.state with | .unlinked => 0 | .linking => 1 | .linked => 2⟩ ∧
    statusRead s 0x22#8 = some ⟨some 50,
      0x2000000000000 * s.link.peerValid.toNat + 0x1000000000000 * s.link.peer.sock.toNat + s.link.peer.addr.toNat⟩ ∧
    statusRead s 0x23#8 = some ⟨some 48, s.link.target.toNat⟩ ∧
    statusRead s 0x24#8 = some ⟨some 8, s.link.modByte.toNat⟩ ∧
    statusRead s 0x25#8 = some ⟨some 64, s.link.tLink.toNat⟩ ∧
    statusRead s 0x26#8 = some ⟨some 64, s.link.tPing.toNat⟩ ∧
    statusRead s 0x28#8 = some ⟨some 17, 0x10000 * s.relay.active.toNat + s.relay.sid.toNat⟩ ∧
    statusRead s 0x29#8 = some ⟨some 64, s.relay.tLast.toNat⟩ ∧
    statusRead s 0x2A#8 = some ⟨some 112, bytes s.relay.li.toList⟩ ∧
    statusRead s 0x2B#8 = some ⟨some 16, s.relay.fn.toNat⟩ ∧
    statusRead s 0x30#8 = some ⟨some 16, s.errstat.toNat⟩ ∧
    statusRead s 0x40#8 = some ⟨some 48, (s.cs.toList.getD 0 0#48).toNat⟩ ∧
    statusRead s 0x41#8 = some ⟨some 48, (s.cs.toList.getD 1 0#48).toNat⟩ ∧
    statusRead s 0x42#8 = some ⟨some 48, (s.cs.toList.getD 2 0#48).toNat⟩ ∧
    statusRead s 0x43#8 = some ⟨some 48, (s.cs.toList.getD 3 0#48).toNat⟩ ∧
    statusRead s 0x50#8 = some ⟨none, s.queues.aqTx.length⟩ ∧
    statusRead s 0x51#8 = some ⟨none, s.queues.sqTx.length⟩ ∧
    statusRead s 0x52#8 = some ⟨none, s.queues.cqTx.length⟩ ∧
    statusRead s 0x53#8 = some ⟨none, s.queues.oqLoop.length⟩ ∧
    statusRead s 0x54#8 = some ⟨none, s.queues.oqGw.length⟩ ∧
    statusRead s 0x55#8 = some ⟨none, s.queues.oqLink.length⟩ ∧
    statusRead s 0x56#8 = some ⟨none, s.queues.cqRx.length⟩ ∧
    statusRead s 0x57#8 = some ⟨none, s.queues.sqRx.length⟩ ∧
    statusRead s 0x58#8 = some ⟨none, s.queues.aqRx.length⟩)
end

