-- ==== Sys2Proof/Laws/Bytes.lean ====
section
/-!
SUPPORT. Byte strings and byte order: each field encoding and its inverse (00_scope.md R11), and the samples
of a period (30_encoding.md R94).
-/

namespace Sys2Proof

/-! ## Numbers as bytes, most significant first -/

theorem beNat_cons (x : Byte) (b : List Byte) : beNat (x :: b) = x.toNat * 256 ^ b.length + beNat b := by
  have shift : ∀ (b : List Byte) (v : Nat),
      b.foldl (fun v x => v * 256 + x.toNat) v = v * 256 ^ b.length + beNat b := by
    intro b
    induction b with
    | nil => intro v; simp [beNat]
    | cons y b ih =>
      intro v
      have h0 := ih (0 * 256 + y.toNat)
      simp only [beNat, List.foldl_cons, List.length_cons] at ih h0 ⊢
      rw [ih, h0]
      ring
  show b.foldl _ (0 * 256 + x.toNat) = _
  rw [shift]
  ring

theorem beNat_lt (b : List Byte) : beNat b < 256 ^ b.length := by
  induction b with
  | nil => simp [beNat]
  | cons x b ih =>
    rw [beNat_cons, List.length_cons, pow_succ]
    have hx := x.isLt
    nlinarith

theorem beNat_beBytes (n v : Nat) : beNat (beBytes n v) = v % 256 ^ n := by
  induction n with
  | zero => simp [beBytes, beNat, Nat.mod_one]
  | succ n ih =>
    rw [beBytes, beNat_cons, ih, beBytes_length, BitVec.toNat_ofNat, show (2 : Nat) ^ 8 = 256 from rfl,
      pow_succ, Nat.mod_mul]
    rw [Nat.mul_comm, Nat.add_comm]

theorem beBytes_mod (n v : Nat) : beBytes n (v % 256 ^ n) = beBytes n v := by
  have step : ∀ m k, m ≤ k → beBytes m (v % 256 ^ k) = beBytes m v := by
    intro m
    induction m with
    | zero => intro k _; rfl
    | succ m ih =>
      intro k hk
      rw [beBytes, beBytes, ih k (by omega)]
      congr 1
      apply BitVec.eq_of_toNat_eq
      obtain ⟨j, rfl⟩ : ∃ j, k = m + 1 + j := ⟨k - (m + 1), by omega⟩
      rw [BitVec.toNat_ofNat, BitVec.toNat_ofNat, pow_add, pow_succ, mul_assoc, Nat.mod_mul_right_div_self]
      rw [show (2 : Nat) ^ 8 = 256 from rfl, Nat.mod_mul_right_mod]
  exact step n n le_rfl

theorem beBytes_beNat (b : List Byte) : beBytes b.length (beNat b) = b := by
  induction b with
  | nil => rfl
  | cons x b ih =>
    have hb := beNat_lt b
    rw [List.length_cons, beBytes, beNat_cons]
    congr 1
    · rw [Nat.mul_comm, Nat.mul_add_div (by positivity), Nat.div_eq_of_lt hb]
      simp
    · rw [← beBytes_mod, Nat.mul_comm, Nat.mul_add_mod, Nat.mod_eq_of_lt hb, ih]

/-! ## Fields and their inverses -/

@[simp] theorem fromBe16_be16 (v : Half) : fromBe16 (be16 v) = v := by
  apply BitVec.eq_of_toNat_eq
  simp [fromBe16, be16, beNat_beBytes, Nat.mod_eq_of_lt v.isLt]

@[simp] theorem fromLe16_le16 (v : Half) : fromLe16 (le16 v) = v := by
  apply BitVec.eq_of_toNat_eq
  simp [fromLe16, le16, beNat_beBytes, Nat.mod_eq_of_lt v.isLt]

@[simp] theorem fromBe48_be48 (v : Code) : fromBe48 (be48 v) = v := by
  apply BitVec.eq_of_toNat_eq
  simp [fromBe48, be48, beNat_beBytes, Nat.mod_eq_of_lt v.isLt]

@[simp] theorem fromBe64_be64 (v : Time) : fromBe64 (be64 v) = v := by
  apply BitVec.eq_of_toNat_eq
  simp [fromBe64, be64, beNat_beBytes, Nat.mod_eq_of_lt v.isLt]

/-- The bytes of a number that a string spells are the string. -/
theorem beBytes_beNat_of_length {b : List Byte} {n : Nat} (h : b.length = n) (m : Nat) (hm : m = 256 ^ n) :
    beBytes n (beNat b % m) = b := by
  subst hm; subst h
  rw [beBytes_mod, beBytes_beNat]

@[simp] theorem be16_fromBe16 (b : Bytes 2) : be16 (fromBe16 b) = b :=
  FixedList.ext_toList (by
    simp only [be16, fromBe16, BitVec.toNat_ofNat]
    exact beBytes_beNat_of_length b.size _ (by norm_num))

@[simp] theorem be48_fromBe48 (b : Bytes 6) : be48 (fromBe48 b) = b :=
  FixedList.ext_toList (by
    simp only [be48, fromBe48, BitVec.toNat_ofNat]
    exact beBytes_beNat_of_length b.size _ (by norm_num))

@[simp] theorem be64_fromBe64 (b : Bytes 8) : be64 (fromBe64 b) = b :=
  FixedList.ext_toList (by
    simp only [be64, fromBe64, BitVec.toNat_ofNat]
    exact beBytes_beNat_of_length b.size _ (by norm_num))

/-- A big-endian 16-bit field as its two bytes. -/
theorem be16_toList (v : Half) : (be16 v).toList = [v.extractLsb' 8 8, v.extractLsb' 0 8] := by
  simp only [be16, beBytes, List.cons.injEq, and_true]
  constructor
  · apply BitVec.eq_of_toNat_eq; simp [BitVec.extractLsb'_toNat, Nat.shiftRight_eq_div_pow]
  · apply BitVec.eq_of_toNat_eq; simp [BitVec.extractLsb'_toNat]

/-- A little-endian 16-bit field as its two bytes. -/
theorem le16_toList (v : Half) : (le16 v).toList = [v.extractLsb' 0 8, v.extractLsb' 8 8] := by
  have h := be16_toList v
  simp only [be16] at h
  simp [le16, h]

theorem beNat_pair (x y : Byte) : BitVec.ofNat 16 (beNat [x, y]) = (x ++ y : Half) := by
  apply BitVec.eq_of_toNat_eq
  have hx := x.isLt
  have hy := y.isLt
  simp only [beNat, List.foldl_cons, List.foldl_nil, BitVec.toNat_ofNat, BitVec.toNat_append]
  rw [Nat.mod_eq_of_lt (by omega), ← Nat.shiftLeft_add_eq_or_of_lt hy, Nat.shiftLeft_eq]
  omega

/-! ## Samples -/

theorem bytesSamples_sampleBytes (l : List Sample) : bytesSamples (sampleBytes l) = l := by
  induction l with
  | nil => rfl
  | cons x xs ih =>
    simp only [sampleBytes, bytesSamples, ih, List.cons.injEq, and_true]
    apply BitVec.eq_of_getLsbD_eq
    intro i hi
    refine (BitVec.getLsbD_append).trans ?_
    by_cases h : i < 8
    · simp [h]
    · have e : 8 + (i - 8) = i := by omega
      have e' : i - 8 < 8 := by omega
      simp [h, e, e']

theorem sampleBytes_bytesSamples : ∀ l : List Byte, l.length % 2 = 0 → sampleBytes (bytesSamples l) = l
  | [], _ => rfl
  | [_], h => by simp at h
  | x :: y :: rest, h => by
    simp only [bytesSamples, sampleBytes, List.cons.injEq]
    refine ⟨?_, ?_, sampleBytes_bytesSamples rest (by simp at h; omega)⟩
    · apply BitVec.eq_of_getLsbD_eq
      intro i hi
      have e := BitVec.getLsbD_append (x := x) (y := y) (i := 8 + i)
      simp only [BitVec.getLsbD_extractLsb', hi, decide_true, Bool.true_and]
      refine e.trans ?_
      simp
    · apply BitVec.eq_of_getLsbD_eq
      intro i hi
      have e := BitVec.getLsbD_append (x := x) (y := y) (i := 0 + i)
      simp only [BitVec.getLsbD_extractLsb', hi, decide_true, Bool.true_and]
      refine e.trans ?_
      simp [hi]

@[simp] theorem bytesPcm_pcmBytes (p : Pcm) : bytesPcm (pcmBytes p) = p :=
  FixedList.ext_toList (bytesSamples_sampleBytes p.toList)

@[simp] theorem pcmBytes_bytesPcm (b : Bytes 320) : pcmBytes (bytesPcm b) = b :=
  FixedList.ext_toList (sampleBytes_bytesSamples b.toList (by rw [b.size]))

end Sys2Proof
end

