-- ==== Sys2Proof/Laws/Decode.lean ====
section
/-!
SUPPORT. What each operand reader answers, in both directions: on an encoded operand it answers the operand
and the bytes after it, and whatever it answers, the operand's encoding stood there (30_encoding.md R93,
R94).
-/

namespace Sys2Proof

@[simp] theorem except_ok_bind {ε α β : Type} (a : α) (f : α → Except ε β) :
    (Except.ok a >>= f) = f a := rfl

@[simp] theorem except_error_bind {ε α β : Type} (e : ε) (f : α → Except ε β) :
    ((Except.error e : Except ε α) >>= f) = Except.error e := rfl

/-- A bind that answers has an answer on its left. -/
theorem bind_eq_ok {ε α β : Type} {x : Except ε α} {f : α → Except ε β} {b : β} (h : (x >>= f) = .ok b) :
    ∃ a, x = .ok a ∧ f a = .ok b := by
  cases x with
  | error e => cases h
  | ok a => exact ⟨a, rfl, h⟩

theorem takeBytes_append {n : Nat} (x : Bytes n) (r : List Byte) : takeBytes n (x.toList ++ r) = some (x, r) := by
  have hl := x.size
  unfold takeBytes
  rw [dif_pos (by simp [hl])]
  congr 1
  refine Prod.ext (FixedList.ext_toList ?_) ?_ <;> simp [hl]

theorem takeBytes_eq_some {n : Nat} {l r : List Byte} {x : Bytes n} (h : takeBytes n l = some (x, r)) :
    l = x.toList ++ r := by
  unfold takeBytes at h
  split at h
  · injection h with h
    injection h with h1 h2
    subst h1 h2
    simp
  · cases h

/-! ## Readers on encoded operands -/

@[simp] theorem readByte_cons (b : Byte) (r : List Byte) : readByte (b :: r) = .ok (b, r) := rfl

@[simp] theorem readBytes_append {n : Nat} (x : Bytes n) (r : List Byte) :
    readBytes n (x.toList ++ r) = .ok (x, r) := by
  simp [readBytes, takeBytes_append]

@[simp] theorem readBytes_self {n : Nat} (x : Bytes n) : readBytes n x.toList = .ok (x, []) := by
  simpa using readBytes_append x []

theorem readCoded_of {α : Type} {name : String} {f : Byte → Option α} {b : Byte} {x : α} {r : List Byte}
    (h : f b = some x) : readCoded name f (b :: r) = .ok (x, r) := by
  simp [readCoded, h]

/-- An operand byte of no legal code is refused by the operand's name (R94). -/
theorem readCoded_illegal {α : Type} {name : String} {f : Byte → Option α} {b : Byte} {r : List Byte}
    (h : f b = none) : readCoded name f (b :: r) = .error (.illegalOperand name) := by
  simp [readCoded, h]

@[simp] theorem readHalf_be16 (v : Half) (r : List Byte) : readHalf ((be16 v).toList ++ r) = .ok (v, r) := by
  simp [readHalf]

@[simp] theorem readHalf_be16_self (v : Half) : readHalf (be16 v).toList = .ok (v, []) := by simp [readHalf]

@[simp] theorem readCode_be48 (v : Code) (r : List Byte) : readCode ((be48 v).toList ++ r) = .ok (v, r) := by
  simp [readCode]

@[simp] theorem readCode_be48_self (v : Code) : readCode (be48 v).toList = .ok (v, []) := by simp [readCode]

@[simp] theorem readTime_be64 (v : Time) (r : List Byte) : readTime ((be64 v).toList ++ r) = .ok (v, r) := by
  simp [readTime]

@[simp] theorem readTime_be64_self (v : Time) : readTime (be64 v).toList = .ok (v, []) := by simp [readTime]

/-- A counted operand that the 16-bit length can hold reads back. -/
theorem readCounted_self {d : List Byte} (h : fitsLen d = true) :
    readCounted ((be16 (BitVec.ofNat 16 d.length)).toList ++ d) = .ok (d, []) := by
  have hl : d.length < 65536 := by simpa [fitsLen] using h
  simp [readCounted, Nat.mod_eq_of_lt hl]

@[simp] theorem finish_nil (i : Instr) : finish [] i = .ok i := rfl

/-! ## What stood there when a reader answered -/

theorem readByte_eq_ok {l r : List Byte} {b : Byte} (h : readByte l = .ok (b, r)) : l = b :: r := by
  cases l with
  | nil => cases h
  | cons x l => cases h; rfl

theorem readBytes_eq_ok {n : Nat} {l r : List Byte} {x : Bytes n} (h : readBytes n l = .ok (x, r)) :
    l = x.toList ++ r := by
  unfold readBytes at h
  split at h
  · cases h
  · rename_i y hy
    cases h
    exact takeBytes_eq_some hy

theorem readCoded_eq_ok {α : Type} {name : String} {f : Byte → Option α} {l r : List Byte} {x : α}
    (h : readCoded name f l = .ok (x, r)) : ∃ b, l = b :: r ∧ f b = some x := by
  obtain ⟨⟨b, r'⟩, h1, h2⟩ := bind_eq_ok h
  dsimp only at h2
  split at h2
  · rename_i y hy
    cases h2
    exact ⟨b, readByte_eq_ok h1, hy⟩
  · cases h2

theorem readHalf_eq_ok {l r : List Byte} {v : Half} (h : readHalf l = .ok (v, r)) :
    l = (be16 v).toList ++ r := by
  obtain ⟨⟨b, r'⟩, h1, h2⟩ := bind_eq_ok h
  cases h2
  simpa using readBytes_eq_ok h1

theorem readCode_eq_ok {l r : List Byte} {v : Code} (h : readCode l = .ok (v, r)) :
    l = (be48 v).toList ++ r := by
  obtain ⟨⟨b, r'⟩, h1, h2⟩ := bind_eq_ok h
  cases h2
  simpa using readBytes_eq_ok h1

theorem readTime_eq_ok {l r : List Byte} {v : Time} (h : readTime l = .ok (v, r)) :
    l = (be64 v).toList ++ r := by
  obtain ⟨⟨b, r'⟩, h1, h2⟩ := bind_eq_ok h
  cases h2
  simpa using readBytes_eq_ok h1

theorem readCounted_eq_ok {l d r : List Byte} (h : readCounted l = .ok (d, r)) :
    l = (be16 (BitVec.ofNat 16 d.length)).toList ++ (d ++ r) ∧ fitsLen d = true := by
  obtain ⟨⟨n, r'⟩, h1, h2⟩ := bind_eq_ok h
  dsimp only at h2
  split at h2
  · rename_i hn
    cases h2
    have hlt := n.isLt
    have hlen : (r'.take n.toNat).length = n.toNat := by simp only [List.length_take]; omega
    constructor
    · rw [hlen, List.take_append_drop, BitVec.ofNat_toNat, BitVec.setWidth_eq]
      exact readHalf_eq_ok h1
    · simp only [fitsLen, hlen]
      exact decide_eq_true hlt
  · cases h2

theorem finish_eq_ok {r : List Byte} {i j : Instr} (h : finish r i = .ok j) : r = [] ∧ i = j := by
  cases r with
  | nil => exact ⟨rfl, by simpa using h⟩
  | cons b r => cases h

/-! ## Operand codes (R94) -/

@[simp] theorem Dest.ofCode_code (d : Dest) : Dest.ofCode d.code = some d := by cases d <;> rfl
@[simp] theorem RxSource.ofCode_code (x : RxSource) : RxSource.ofCode x.code = some x := by cases x <;> rfl
@[simp] theorem CfgReg.ofCode_code (x : CfgReg) : CfgReg.ofCode x.code = some x := by cases x <;> rfl
@[simp] theorem DevStatus.ofCode_code (x : DevStatus) : DevStatus.ofCode x.code = some x := by cases x <;> rfl
@[simp] theorem flagOfCode_flagCode (b : Bool) : flagOfCode (flagCode b) = some b := by cases b <;> rfl
@[simp] theorem sockOfCode_sockCode : ∀ s : BitVec 1, sockOfCode (sockCode s) = some s := by decide
@[simp] theorem indexOfCode_indexCode : ∀ i : Fin Config.ncs, indexOfCode (indexCode i) = some i := by decide

/-- A byte whose number is `n` is that byte. -/
theorem byte_eq_of_toNat {b : Byte} {n : Nat} (h : b.toNat = n) : b = BitVec.ofNat 8 n := by
  subst h; simp

theorem Dest.code_of_ofCode {b : Byte} {d : Dest} (h : Dest.ofCode b = some d) : b = d.code := by
  unfold Dest.ofCode at h
  split at h <;> cases h <;> (rename_i hb; exact byte_eq_of_toNat hb)

theorem RxSource.code_of_ofCode {b : Byte} {x : RxSource} (h : RxSource.ofCode b = some x) : b = x.code := by
  unfold RxSource.ofCode at h
  split at h <;> cases h <;> (rename_i hb; exact byte_eq_of_toNat hb)

theorem CfgReg.code_of_ofCode {b : Byte} {x : CfgReg} (h : CfgReg.ofCode b = some x) : b = x.code := by
  unfold CfgReg.ofCode at h
  split at h <;> cases h <;> (rename_i hb; exact byte_eq_of_toNat hb)

theorem DevStatus.code_of_ofCode {b : Byte} {x : DevStatus} (h : DevStatus.ofCode b = some x) :
    b = x.code := by
  unfold DevStatus.ofCode at h
  split at h <;> cases h <;> (rename_i hb; exact byte_eq_of_toNat hb)

theorem flagCode_of_flagOfCode {b : Byte} {x : Bool} (h : flagOfCode b = some x) : b = flagCode x := by
  unfold flagOfCode at h
  split at h <;> cases h <;> (rename_i hb; exact byte_eq_of_toNat hb)

theorem sockCode_of_sockOfCode {b : Byte} {x : BitVec 1} (h : sockOfCode b = some x) : b = sockCode x := by
  unfold sockOfCode at h
  split at h <;> cases h <;> (rename_i hb; exact byte_eq_of_toNat hb)

theorem indexCode_of_indexOfCode {b : Byte} {i : Fin Config.ncs} (h : indexOfCode b = some i) : b = indexCode i := by
  unfold indexOfCode at h
  split at h <;> cases h
  exact byte_eq_of_toNat rfl

/-- A destination code above 2 is illegal (R94). -/
theorem Dest.ofCode_illegal {b : Byte} (h : 2 < b.toNat) : Dest.ofCode b = none := by
  unfold Dest.ofCode; split <;> first | omega | rfl

/-- A register number above 2 is illegal (R94). -/
theorem CfgReg.ofCode_illegal {b : Byte} (h : 2 < b.toNat) : CfgReg.ofCode b = none := by
  unfold CfgReg.ofCode; split <;> first | omega | rfl

/-- A register index of `NCS` or more is illegal (R94). -/
theorem indexOfCode_illegal {b : Byte} (h : Config.ncs ≤ b.toNat) : indexOfCode b = none :=
  dif_neg (Nat.not_lt.mpr h)

end Sys2Proof
end

