-- ==== Sys2Proof/Laws/Operands.lean ====
section
/-!
SUPPORT. The fields of packets and frames as the bytes at their offsets (30_encoding.md R82 to R87).
-/

namespace Sys2Proof.Machine

/-- A slice of two bytes is the two bytes at its offset. -/
theorem slice_two {n : Nat} (p : Bytes n) (k : Nat) (h : k + 2 ≤ n) :
    (p.slice k 2 h).toList = [p.toList.getD k 0#8, p.toList.getD (k + 1) 0#8] := by
  have hl := p.size
  have h0 : k < p.toList.length := by omega
  have h1 : k + 1 < p.toList.length := by omega
  simp only [FixedList.slice, List.getD_eq_getElem _ _ h0, List.getD_eq_getElem _ _ h1]
  rw [List.drop_eq_getElem_cons h0, List.drop_eq_getElem_cons h1]
  rfl

/-- A big-endian 16-bit field is its two bytes in their order. -/
theorem be16_slice {n : Nat} (p : Bytes n) (k : Nat) (h : k + 2 ≤ n) :
    fromBe16 (p.slice k 2 h) = (p.toList.getD k 0#8 ++ p.toList.getD (k + 1) 0#8 : Half) := by
  rw [fromBe16, slice_two]
  exact beNat_pair _ _

/-- A little-endian 16-bit field is its two bytes swapped. -/
theorem le16_slice {n : Nat} (p : Bytes n) (k : Nat) (h : k + 2 ≤ n) :
    fromLe16 (p.slice k 2 h) = (p.toList.getD (k + 1) 0#8 ++ p.toList.getD k 0#8 : Half) := by
  rw [fromLe16, slice_two]
  exact beNat_pair _ _

/-- A fixed list is another exactly when their items are. -/
theorem fixedList_eq_iff {α : Type} {n : Nat} {x y : FixedList α n} : x = y ↔ x.toList = y.toList :=
  ⟨fun h => h ▸ rfl, FixedList.ext_toList⟩

/-- The magic is the first four bytes (R82). -/
theorem wpMagic_eq_iff (p : WirePacket) :
    wpMagic p = Config.wpMagic ↔ p.toList.take 4 = [0x44#8, 0x53#8, 0x56#8, 0x54#8] :=
  fixedList_eq_iff

theorem wpStreamId_eq (p : WirePacket) : wpStreamId p = (p.toList.getD 9 0#8 ++ p.toList.getD 10 0#8 : Half) :=
  be16_slice p 9 (by decide)

theorem m17StreamId_eq (f : M17Frame) : m17StreamId f = (f.toList.getD 18 0#8 ++ f.toList.getD 19 0#8 : Half) :=
  be16_slice f 18 (by decide)

theorem m17Fn_eq (f : M17Frame) : m17Fn f = (f.toList.getD 20 0#8 ++ f.toList.getD 21 0#8 : Half) :=
  be16_slice f 20 (by decide)

/-- The CRC check of a frame compares the trailer, low byte first, with the CRC of the bytes before it
(R183). -/
theorem crcOkM17_iff (f : M17Frame) :
    crcOkM17 f = true ↔ (f.toList.getD 39 0#8 ++ f.toList.getD 38 0#8 : Half) = crc16x (f.toList.take 38) := by
  unfold crcOkM17
  rw [beq_iff_eq, le16_slice f 38 (by decide)]

/-- The CRC check of a header packet (R183). -/
theorem crcOkWp_iff (p : WirePacket) :
    crcOkWp p = true ↔ (p.toList.getD 55 0#8 ++ p.toList.getD 54 0#8 : Half) = crc16x (wpCrcSpan p) := by
  unfold crcOkWp
  rw [beq_iff_eq, le16_slice p 54 (by decide)]

/-- A frame number bears `LAST` exactly when the top bit of its first byte is 1 (R87). -/
theorem lastMark_append (x y : Byte) : lastMark (x ++ y : Half) = x.getLsbD 7 := by
  have h := BitVec.getLsbD_append (x := x) (y := y) (i := 15)
  exact h

/-- Past the end of a fixed list nothing is left. -/
theorem fixedList_drop_past {α : Type} {n k : Nat} (x : FixedList α n) (h : n ≤ k) : x.toList.drop k = [] :=
  List.drop_eq_nil_of_le (by simpa using h)

/-- Every field of the header packet built stands at its offset `WP_OFF` (R82, R83, R185). -/
theorem mkHeader_fields (s : State) :
    wpMagic (mkHeader s) = Config.wpMagic ∧ wpConfig (mkHeader s) = Config.cfgHdr ∧
    (mkHeader s).toList.getD Config.wpOff.id 0#8 = Config.idVal ∧
    (mkHeader s).slice Config.wpOff.flags 3 = Config.flagsVal ∧
    (mkHeader s).slice Config.wpOff.streamId 2 = be16 s.tx.sid ∧ wpControl (mkHeader s) = Config.hdrCtrl ∧
    (mkHeader s).slice Config.wpOff.rptA 8 = s.cfg.rptA ∧ (mkHeader s).slice Config.wpOff.rptB 8 = s.cfg.rptB ∧
    (mkHeader s).slice Config.wpOff.dest 8 = s.tx.ur ∧ (mkHeader s).slice Config.wpOff.source 8 = s.cfg.my8 ∧
    (mkHeader s).slice Config.wpOff.hdrRsvd 10 = FixedList.fill 10 0x00#8 ∧
    (mkHeader s).slice Config.wpOff.crc 2 = le16 (crc16x (wpCrcSpan (mkHeader s))) := by
  refine ⟨?_, ?_, ?_, ?_, ?_, ?_, ?_, ?_, ?_, ?_, ?_, ?_⟩
  all_goals (try apply FixedList.ext_toList)
  all_goals simp [wpMagic, wpConfig, wpControl, wpCrcSpan, mkHeader, headerBody, wpPreamble, FixedList.slice,
    List.drop_append, List.take_append, fixedList_drop_past, Config.wpMagic, Config.flagsVal, Config.crcSpanOff,
    Config.crcSpanLen]

/-- Every field of a voice packet built stands at its offset `WP_OFF` (R82, R84, R187). -/
theorem mkVoice_fields (sid : Half) (payload : Bytes 9) (tag : Tag) :
    wpMagic (mkVoice sid payload tag) = Config.wpMagic ∧ wpConfig (mkVoice sid payload tag) = Config.cfgVoice ∧
    (mkVoice sid payload tag).toList.getD Config.wpOff.id 0#8 = Config.idVal ∧
    (mkVoice sid payload tag).slice Config.wpOff.flags 3 = Config.flagsVal ∧
    (mkVoice sid payload tag).slice Config.wpOff.streamId 2 = be16 sid ∧ wpControl (mkVoice sid payload tag) = tag ∧
    wpPayload (mkVoice sid payload tag) = payload ∧
    (mkVoice sid payload tag).slice Config.wpOff.slow 3 = Config.slow3 ∧
    (mkVoice sid payload tag).slice Config.wpOff.voiceRsvd 32 = FixedList.fill 32 0x00#8 := by
  refine ⟨?_, ?_, ?_, ?_, ?_, ?_, ?_, ?_, ?_⟩
  all_goals (try apply FixedList.ext_toList)
  all_goals simp [wpMagic, wpConfig, wpControl, wpPayload, mkVoice, wpPreamble, FixedList.slice, List.drop_append,
    List.take_append, fixedList_drop_past, Config.wpMagic, Config.flagsVal, Config.slow3]

end Sys2Proof.Machine
end

