-- ==== Sys2Proof/Laws/State.lean ====
section
/-!
SUPPORT. What each named update of the state leaves in each field, so that no proof unfolds a record update.
-/

namespace Sys2Proof.Machine

/-! ## `emit` -/

@[simp] theorem emit_queues (s : State) (e : Event) : (State.emit s e).queues = s.queues := rfl
@[simp] theorem emit_run (s : State) (e : Event) : (State.emit s e).run = s.run := rfl
@[simp] theorem emit_hold (s : State) (e : Event) : (State.emit s e).hold = s.hold := rfl
@[simp] theorem emit_cfg (s : State) (e : Event) : (State.emit s e).cfg = s.cfg := rfl
@[simp] theorem emit_tx (s : State) (e : Event) : (State.emit s e).tx = s.tx := rfl
@[simp] theorem emit_seq (s : State) (e : Event) : (State.emit s e).seq = s.seq := rfl
@[simp] theorem emit_hdrPending (s : State) (e : Event) : (State.emit s e).hdrPending = s.hdrPending := rfl
@[simp] theorem emit_rx (s : State) (e : Event) : (State.emit s e).rx = s.rx := rfl
@[simp] theorem emit_vocOpen (s : State) (e : Event) : (State.emit s e).vocOpen = s.vocOpen := rfl
@[simp] theorem emit_cs (s : State) (e : Event) : (State.emit s e).cs = s.cs := rfl
@[simp] theorem emit_gwRun (s : State) (e : Event) : (State.emit s e).gwRun = s.gwRun := rfl
@[simp] theorem emit_link (s : State) (e : Event) : (State.emit s e).link = s.link := rfl
@[simp] theorem emit_relay (s : State) (e : Event) : (State.emit s e).relay = s.relay := rfl
@[simp] theorem emit_errstat (s : State) (e : Event) : (State.emit s e).errstat = s.errstat := rfl
@[simp] theorem emit_pending (s : State) (e : Event) : (State.emit s e).pending = s.pending := rfl
@[simp] theorem emit_trace (s : State) (e : Event) : (State.emit s e).trace = s.trace ++ [e] := rfl
@[simp] theorem emit_draws (s : State) (e : Event) : (State.emit s e).draws = s.draws := rfl
@[simp] theorem emit_lastNow (s : State) (e : Event) : (State.emit s e).lastNow = s.lastNow := rfl
@[simp] theorem emit_portOut (s : State) (e : Event) : (State.emit s e).portOut = s.portOut := rfl

/-! ## `log` -/

@[simp] theorem log_queues (s : State) (c : ErrCode) : (State.log s c).queues = s.queues := rfl
@[simp] theorem log_run (s : State) (c : ErrCode) : (State.log s c).run = s.run := rfl
@[simp] theorem log_hold (s : State) (c : ErrCode) : (State.log s c).hold = s.hold := rfl
@[simp] theorem log_cfg (s : State) (c : ErrCode) : (State.log s c).cfg = s.cfg := rfl
@[simp] theorem log_tx (s : State) (c : ErrCode) : (State.log s c).tx = s.tx := rfl
@[simp] theorem log_seq (s : State) (c : ErrCode) : (State.log s c).seq = s.seq := rfl
@[simp] theorem log_hdrPending (s : State) (c : ErrCode) : (State.log s c).hdrPending = s.hdrPending := rfl
@[simp] theorem log_rx (s : State) (c : ErrCode) : (State.log s c).rx = s.rx := rfl
@[simp] theorem log_vocOpen (s : State) (c : ErrCode) : (State.log s c).vocOpen = s.vocOpen := rfl
@[simp] theorem log_cs (s : State) (c : ErrCode) : (State.log s c).cs = s.cs := rfl
@[simp] theorem log_gwRun (s : State) (c : ErrCode) : (State.log s c).gwRun = s.gwRun := rfl
@[simp] theorem log_link (s : State) (c : ErrCode) : (State.log s c).link = s.link := rfl
@[simp] theorem log_relay (s : State) (c : ErrCode) : (State.log s c).relay = s.relay := rfl
@[simp] theorem log_errstat (s : State) (c : ErrCode) : (State.log s c).errstat = setErr s.errstat c := rfl
@[simp] theorem log_pending (s : State) (c : ErrCode) : (State.log s c).pending = s.pending := rfl
@[simp] theorem log_trace (s : State) (c : ErrCode) : (State.log s c).trace = s.trace ++ [.log c] := rfl
@[simp] theorem log_draws (s : State) (c : ErrCode) : (State.log s c).draws = s.draws := rfl
@[simp] theorem log_lastNow (s : State) (c : ErrCode) : (State.log s c).lastNow = s.lastNow := rfl
@[simp] theorem log_portOut (s : State) (c : ErrCode) : (State.log s c).portOut = s.portOut := rfl

/-! ## `nextDraw` -/

@[simp] theorem nextDraw_queues (s : State) : (State.nextDraw s).queues = s.queues := rfl
@[simp] theorem nextDraw_run (s : State) : (State.nextDraw s).run = s.run := rfl
@[simp] theorem nextDraw_hold (s : State) : (State.nextDraw s).hold = s.hold := rfl
@[simp] theorem nextDraw_cfg (s : State) : (State.nextDraw s).cfg = s.cfg := rfl
@[simp] theorem nextDraw_tx (s : State) : (State.nextDraw s).tx = s.tx := rfl
@[simp] theorem nextDraw_seq (s : State) : (State.nextDraw s).seq = s.seq := rfl
@[simp] theorem nextDraw_hdrPending (s : State) : (State.nextDraw s).hdrPending = s.hdrPending := rfl
@[simp] theorem nextDraw_rx (s : State) : (State.nextDraw s).rx = s.rx := rfl
@[simp] theorem nextDraw_vocOpen (s : State) : (State.nextDraw s).vocOpen = s.vocOpen := rfl
@[simp] theorem nextDraw_cs (s : State) : (State.nextDraw s).cs = s.cs := rfl
@[simp] theorem nextDraw_gwRun (s : State) : (State.nextDraw s).gwRun = s.gwRun := rfl
@[simp] theorem nextDraw_link (s : State) : (State.nextDraw s).link = s.link := rfl
@[simp] theorem nextDraw_relay (s : State) : (State.nextDraw s).relay = s.relay := rfl
@[simp] theorem nextDraw_errstat (s : State) : (State.nextDraw s).errstat = s.errstat := rfl
@[simp] theorem nextDraw_pending (s : State) : (State.nextDraw s).pending = s.pending := rfl
@[simp] theorem nextDraw_trace (s : State) : (State.nextDraw s).trace = s.trace := rfl
@[simp] theorem nextDraw_draws (s : State) : (State.nextDraw s).draws = s.draws + 1 := rfl
@[simp] theorem nextDraw_lastNow (s : State) : (State.nextDraw s).lastNow = s.lastNow := rfl
@[simp] theorem nextDraw_portOut (s : State) : (State.nextDraw s).portOut = s.portOut := rfl

/-! ## `csSet` -/

@[simp] theorem csSet_queues (s : State) (i : Fin Config.ncs) (v : Code) : (State.csSet s i v).queues = s.queues := rfl
@[simp] theorem csSet_run (s : State) (i : Fin Config.ncs) (v : Code) : (State.csSet s i v).run = s.run := rfl
@[simp] theorem csSet_hold (s : State) (i : Fin Config.ncs) (v : Code) : (State.csSet s i v).hold = s.hold := rfl
@[simp] theorem csSet_cfg (s : State) (i : Fin Config.ncs) (v : Code) : (State.csSet s i v).cfg = s.cfg := rfl
@[simp] theorem csSet_tx (s : State) (i : Fin Config.ncs) (v : Code) : (State.csSet s i v).tx = s.tx := rfl
@[simp] theorem csSet_seq (s : State) (i : Fin Config.ncs) (v : Code) : (State.csSet s i v).seq = s.seq := rfl
@[simp] theorem csSet_hdrPending (s : State) (i : Fin Config.ncs) (v : Code) : (State.csSet s i v).hdrPending = s.hdrPending := rfl
@[simp] theorem csSet_rx (s : State) (i : Fin Config.ncs) (v : Code) : (State.csSet s i v).rx = s.rx := rfl
@[simp] theorem csSet_vocOpen (s : State) (i : Fin Config.ncs) (v : Code) : (State.csSet s i v).vocOpen = s.vocOpen := rfl
@[simp] theorem csSet_gwRun (s : State) (i : Fin Config.ncs) (v : Code) : (State.csSet s i v).gwRun = s.gwRun := rfl
@[simp] theorem csSet_link (s : State) (i : Fin Config.ncs) (v : Code) : (State.csSet s i v).link = s.link := rfl
@[simp] theorem csSet_relay (s : State) (i : Fin Config.ncs) (v : Code) : (State.csSet s i v).relay = s.relay := rfl
@[simp] theorem csSet_errstat (s : State) (i : Fin Config.ncs) (v : Code) : (State.csSet s i v).errstat = s.errstat := rfl
@[simp] theorem csSet_pending (s : State) (i : Fin Config.ncs) (v : Code) : (State.csSet s i v).pending = s.pending := rfl
@[simp] theorem csSet_trace (s : State) (i : Fin Config.ncs) (v : Code) : (State.csSet s i v).trace = s.trace := rfl
@[simp] theorem csSet_draws (s : State) (i : Fin Config.ncs) (v : Code) : (State.csSet s i v).draws = s.draws := rfl
@[simp] theorem csSet_lastNow (s : State) (i : Fin Config.ncs) (v : Code) : (State.csSet s i v).lastNow = s.lastNow := rfl
@[simp] theorem csSet_portOut (s : State) (i : Fin Config.ncs) (v : Code) : (State.csSet s i v).portOut = s.portOut := rfl

/-! ## `pushOut` -/

@[simp] theorem pushOut_queues (s : State) (p : WirePacket) : (pushOut p s).queues = s.queues.setOq s.tx.dest (qPush (s.queues.oq s.tx.dest) p) := rfl
@[simp] theorem pushOut_run (s : State) (p : WirePacket) : (pushOut p s).run = s.run := rfl
@[simp] theorem pushOut_hold (s : State) (p : WirePacket) : (pushOut p s).hold = s.hold := rfl
@[simp] theorem pushOut_cfg (s : State) (p : WirePacket) : (pushOut p s).cfg = s.cfg := rfl
@[simp] theorem pushOut_tx (s : State) (p : WirePacket) : (pushOut p s).tx = s.tx := rfl
@[simp] theorem pushOut_seq (s : State) (p : WirePacket) : (pushOut p s).seq = s.seq := rfl
@[simp] theorem pushOut_hdrPending (s : State) (p : WirePacket) : (pushOut p s).hdrPending = s.hdrPending := rfl
@[simp] theorem pushOut_rx (s : State) (p : WirePacket) : (pushOut p s).rx = s.rx := rfl
@[simp] theorem pushOut_vocOpen (s : State) (p : WirePacket) : (pushOut p s).vocOpen = s.vocOpen := rfl
@[simp] theorem pushOut_cs (s : State) (p : WirePacket) : (pushOut p s).cs = s.cs := rfl
@[simp] theorem pushOut_gwRun (s : State) (p : WirePacket) : (pushOut p s).gwRun = s.gwRun := rfl
@[simp] theorem pushOut_link (s : State) (p : WirePacket) : (pushOut p s).link = s.link := rfl
@[simp] theorem pushOut_relay (s : State) (p : WirePacket) : (pushOut p s).relay = s.relay := rfl
@[simp] theorem pushOut_errstat (s : State) (p : WirePacket) : (pushOut p s).errstat = s.errstat := rfl
@[simp] theorem pushOut_pending (s : State) (p : WirePacket) : (pushOut p s).pending = s.pending := rfl
@[simp] theorem pushOut_trace (s : State) (p : WirePacket) : (pushOut p s).trace = s.trace := rfl
@[simp] theorem pushOut_draws (s : State) (p : WirePacket) : (pushOut p s).draws = s.draws := rfl
@[simp] theorem pushOut_lastNow (s : State) (p : WirePacket) : (pushOut p s).lastNow = s.lastNow := rfl
@[simp] theorem pushOut_portOut (s : State) (p : WirePacket) : (pushOut p s).portOut = s.portOut := rfl

/-! ## `captureFrame` -/

@[simp] theorem captureFrame_hold (s : State) (pcm : Pcm) : (captureFrame pcm s).hold = s.hold := rfl
@[simp] theorem captureFrame_cfg (s : State) (pcm : Pcm) : (captureFrame pcm s).cfg = s.cfg := rfl
@[simp] theorem captureFrame_tx (s : State) (pcm : Pcm) : (captureFrame pcm s).tx = s.tx := rfl
@[simp] theorem captureFrame_seq (s : State) (pcm : Pcm) : (captureFrame pcm s).seq = ⟨nextSeq s.seq.count, false⟩ := rfl
@[simp] theorem captureFrame_hdrPending (s : State) (pcm : Pcm) : (captureFrame pcm s).hdrPending = s.hdrPending := rfl
@[simp] theorem captureFrame_rx (s : State) (pcm : Pcm) : (captureFrame pcm s).rx = s.rx := rfl
@[simp] theorem captureFrame_vocOpen (s : State) (pcm : Pcm) : (captureFrame pcm s).vocOpen = s.vocOpen := rfl
@[simp] theorem captureFrame_cs (s : State) (pcm : Pcm) : (captureFrame pcm s).cs = s.cs := rfl
@[simp] theorem captureFrame_gwRun (s : State) (pcm : Pcm) : (captureFrame pcm s).gwRun = s.gwRun := rfl
@[simp] theorem captureFrame_link (s : State) (pcm : Pcm) : (captureFrame pcm s).link = s.link := rfl
@[simp] theorem captureFrame_relay (s : State) (pcm : Pcm) : (captureFrame pcm s).relay = s.relay := rfl
@[simp] theorem captureFrame_errstat (s : State) (pcm : Pcm) : (captureFrame pcm s).errstat = s.errstat := rfl
@[simp] theorem captureFrame_pending (s : State) (pcm : Pcm) : (captureFrame pcm s).pending = s.pending := rfl
@[simp] theorem captureFrame_trace (s : State) (pcm : Pcm) : (captureFrame pcm s).trace = s.trace := rfl
@[simp] theorem captureFrame_draws (s : State) (pcm : Pcm) : (captureFrame pcm s).draws = s.draws := rfl
@[simp] theorem captureFrame_lastNow (s : State) (pcm : Pcm) : (captureFrame pcm s).lastNow = s.lastNow := rfl
@[simp] theorem captureFrame_portOut (s : State) (pcm : Pcm) : (captureFrame pcm s).portOut = s.portOut := rfl

@[simp] theorem csSet_cs (s : State) (i : Fin Config.ncs) (v : Code) :
    (State.csSet s i v).cs.toList = s.cs.toList.set i.val v := rfl

@[simp] theorem captureFrame_run (s : State) (pcm : Pcm) :
    (captureFrame pcm s).run = { s.run with cap := !s.seq.stopReq } := rfl

@[simp] theorem captureFrame_queues (s : State) (pcm : Pcm) :
    (captureFrame pcm s).queues =
      { s.queues with aqTx := qPush s.queues.aqTx ⟨pcm, mkTag s.seq.stopReq s.seq.count⟩ } := rfl

/-! ## `toUnlinked` (R242) -/

@[simp] theorem toUnlinked_queues (r : Bool) (s : State) : (toUnlinked r s).queues = s.queues := by cases r <;> rfl
@[simp] theorem toUnlinked_run (r : Bool) (s : State) : (toUnlinked r s).run = s.run := by cases r <;> rfl
@[simp] theorem toUnlinked_hold (r : Bool) (s : State) : (toUnlinked r s).hold = s.hold := by cases r <;> rfl
@[simp] theorem toUnlinked_cfg (r : Bool) (s : State) : (toUnlinked r s).cfg = s.cfg := by cases r <;> rfl
@[simp] theorem toUnlinked_tx (r : Bool) (s : State) : (toUnlinked r s).tx = s.tx := by cases r <;> rfl
@[simp] theorem toUnlinked_seq (r : Bool) (s : State) : (toUnlinked r s).seq = s.seq := by cases r <;> rfl
@[simp] theorem toUnlinked_hdrPending (r : Bool) (s : State) : (toUnlinked r s).hdrPending = s.hdrPending := by cases r <;> rfl
@[simp] theorem toUnlinked_rx (r : Bool) (s : State) : (toUnlinked r s).rx = s.rx := by cases r <;> rfl
@[simp] theorem toUnlinked_vocOpen (r : Bool) (s : State) : (toUnlinked r s).vocOpen = s.vocOpen := by cases r <;> rfl
@[simp] theorem toUnlinked_cs (r : Bool) (s : State) : (toUnlinked r s).cs = s.cs := by cases r <;> rfl
@[simp] theorem toUnlinked_gwRun (r : Bool) (s : State) : (toUnlinked r s).gwRun = s.gwRun := by cases r <;> rfl
@[simp] theorem toUnlinked_link (r : Bool) (s : State) :
    (toUnlinked r s).link = { s.link with state := .unlinked, peerValid := false } := rfl
@[simp] theorem toUnlinked_relay (r : Bool) (s : State) : (toUnlinked r s).relay = s.relay := by cases r <;> rfl
@[simp] theorem toUnlinked_errstat (r : Bool) (s : State) : (toUnlinked r s).errstat = s.errstat := by cases r <;> rfl
@[simp] theorem toUnlinked_pending (r : Bool) (s : State) : (toUnlinked r s).pending = s.pending := by cases r <;> rfl
@[simp] theorem toUnlinked_trace (r : Bool) (s : State) :
    (toUnlinked r s).trace = if r then s.trace ++ [.routeRelease s.link.target] else s.trace := by
  cases r <;> rfl
@[simp] theorem toUnlinked_draws (r : Bool) (s : State) : (toUnlinked r s).draws = s.draws := by cases r <;> rfl
@[simp] theorem toUnlinked_lastNow (r : Bool) (s : State) : (toUnlinked r s).lastNow = s.lastNow := by cases r <;> rfl
@[simp] theorem toUnlinked_portOut (r : Bool) (s : State) : (toUnlinked r s).portOut = s.portOut := by cases r <;> rfl

/-! ## Outbound queues by destination -/

@[simp] theorem setOq_oq (q : Queues) (d : Dest) (l : List WirePacket) : (q.setOq d l).oq d = l := by
  cases d <;> rfl

@[simp] theorem setOq_aqTx (q : Queues) (d : Dest) (l : List WirePacket) : (q.setOq d l).aqTx = q.aqTx := by
  cases d <;> rfl
@[simp] theorem setOq_sqTx (q : Queues) (d : Dest) (l : List WirePacket) : (q.setOq d l).sqTx = q.sqTx := by
  cases d <;> rfl
@[simp] theorem setOq_cqTx (q : Queues) (d : Dest) (l : List WirePacket) : (q.setOq d l).cqTx = q.cqTx := by
  cases d <;> rfl
@[simp] theorem setOq_cqRx (q : Queues) (d : Dest) (l : List WirePacket) : (q.setOq d l).cqRx = q.cqRx := by
  cases d <;> rfl
@[simp] theorem setOq_sqRx (q : Queues) (d : Dest) (l : List WirePacket) : (q.setOq d l).sqRx = q.sqRx := by
  cases d <;> rfl
@[simp] theorem setOq_aqRx (q : Queues) (d : Dest) (l : List WirePacket) : (q.setOq d l).aqRx = q.aqRx := by
  cases d <;> rfl

/-- Replacing one outbound queue leaves every other queue. -/
theorem setOq_elems_other (q : Queues) (d : Dest) (l : List WirePacket) (p : QueueId) (h : p ≠ oqId d) :
    (q.setOq d l).elems p = q.elems p := by
  cases d <;> cases p <;> first | rfl | exact absurd rfl h

@[simp] theorem setOq_elems (q : Queues) (d : Dest) (l : List WirePacket) :
    (q.setOq d l).elems (oqId d) = l.map .wire := by
  cases d <;> rfl

@[simp] theorem elems_oqId (q : Queues) (d : Dest) : q.elems (oqId d) = (q.oq d).map .wire := by
  cases d <;> rfl

end Sys2Proof.Machine
end

