-- ==== Sys2Proof/Laws/Ops.lean ====
section
/-!
SUPPORT. What the shared operations can do, said once each: the queue primitives, the held form, the gateway
guard and the gateway operation.
-/

namespace Sys2Proof.Machine

/-! ## Queue primitives (R120 to R125) -/

@[simp] theorem qPush_eq {α : Type} (l : List α) (e : α) : qPush l e = l ++ [e] := rfl

@[simp] theorem qPop_nil {α : Type} : qPop ([] : List α) = none := rfl

@[simp] theorem qPop_cons {α : Type} (e : α) (l : List α) : qPop (e :: l) = some (e, l) := rfl

theorem qPop_eq_some {α : Type} {l rest : List α} {e : α} : qPop l = some (e, rest) ↔ l = e :: rest := by
  cases l <;> simp [qPop]

theorem qPop_eq_none {α : Type} {l : List α} : qPop l = none ↔ l = [] := by
  cases l <;> simp [qPop]

@[simp] theorem qFull_nil {α : Type} (q : QueueId) : qFull q ([] : List α) = false := rfl

/-- Whether a queue is full depends on its length alone. -/
@[simp] theorem qFull_map {α β : Type} (q : QueueId) (f : α → β) (l : List α) :
    qFull q (l.map f) = qFull q l := by
  cases l <;> simp [qFull]

/-- A finite depth is positive (R127). -/
theorem queueDepth_pos {q : QueueId} {d : Nat} (h : Config.queueDepth q = some d) : 0 < d := by
  unfold Config.queueDepth at h
  cases hq : Config.queueDepthLessOne q with
  | none => simp [hq] at h
  | some k => simp [hq] at h; omega

/-- A push on a queue that is not full keeps it within its depth (R27, R122). -/
theorem length_push_le {α : Type} {q : QueueId} {l : List α} {d : Nat} (e : α) (hf : qFull q l = false)
    (hd : Config.queueDepth q = some d) (hl : l.length ≤ d) : (qPush l e).length ≤ d := by
  cases l with
  | nil =>
    have := queueDepth_pos hd
    simp; omega
  | cons x xs =>
    simp only [qFull, hd, beq_eq_false_iff_ne, ne_eq] at hf
    simp only [qPush, List.length_append, List.length_cons, List.length_nil] at hf hl ⊢
    omega

/-! ## The held form (R13) -/

@[simp] theorem orHeld_none (s : State) : orHeld s none = .next s := rfl

@[simp] theorem orHeld_some (s t : State) : orHeld s (some t) = .next t := rfl

/-- What an operation that may be held answers. -/
theorem orHeld_cases {s t : State} {r : Option State} (h : orHeld s r = .next t) :
    r = some t ∨ r = none ∧ t = s := by
  cases r with
  | none => simp at h; exact .inr ⟨rfl, h.symm⟩
  | some u => simp at h; exact .inl (by rw [h])

/-! ## The gateway guard and the gateway operation (R230, R309, R341) -/

theorem gatewayHandler_run {now : Time} {h : State → State} {s : State} (hr : s.gwRun = true)
    (ht : s.lastNow ≤ now) : gatewayHandler now h s = .next (h { s with lastNow := now }) := by
  simp [gatewayHandler, hr, BitVec.not_lt.mpr ht]

/-- Where a handler answers a next state, the gateway runs, time has not decreased, and the state is what the
handler makes. -/
theorem gatewayHandler_cases {now : Time} {h : State → State} {s t : State}
    (hx : gatewayHandler now h s = .next t) :
    s.gwRun = true ∧ s.lastNow ≤ now ∧ t = h { s with lastNow := now } := by
  unfold gatewayHandler at hx
  split at hx
  · cases hx
  · rename_i hr
    split at hx
    · cases hx
    · rename_i ht
      injection hx with hx
      exact ⟨by simpa using hr, BitVec.not_lt.mp ht, hx.symm⟩

theorem gatewayOp_run {now : Time} {h : State → State} {s : State} (hr : s.gwRun = true)
    (ht : s.lastNow ≤ now) : gatewayOp now h s = .next (evalTimers now (h { s with lastNow := now })) :=
  gatewayHandler_run hr ht

/-- Where a gateway operation answers a next state, it is the handler's, after the timers. -/
theorem gatewayOp_cases {now : Time} {h : State → State} {s t : State} (hx : gatewayOp now h s = .next t) :
    s.gwRun = true ∧ s.lastNow ≤ now ∧ t = evalTimers now (h { s with lastNow := now }) :=
  gatewayHandler_cases hx

/-! ## The timers (R241, R284) -/

/-- What `relay_timeout` can do. -/
theorem relayTimeout_cases (now : Time) (s : State) :
    relayTimeout now s = s ∨
    s.relay.active = true ∧ relayTimeout now s =
      { s.emit (.localTx (mkClosing s.relay).toList) with relay := { s.relay with active := false } } := by
  unfold relayTimeout
  split
  · rename_i h
    exact .inr ⟨by simp [relayExpired] at h; exact h.1, rfl⟩
  · exact .inl rfl

/-- What `eval_timers` does before the relay timer: nothing, or one way back to `unlinked`. -/
theorem evalTimers_cases (now : Time) (s : State) :
    evalTimers now s = relayTimeout now s ∨
    s.link.state = .linking ∧ evalTimers now s = relayTimeout now (toUnlinked false s) ∨
    s.link.state = .linked ∧ evalTimers now s = relayTimeout now (toUnlinked true s) := by
  unfold evalTimers
  by_cases hl : linkExpired now s = true
  · refine .inr (.inl ⟨?_, ?_⟩)
    · simp [linkExpired] at hl; exact hl.1
    · simp [hl, pingExpired]
  · by_cases hp : pingExpired now s = true
    · refine .inr (.inr ⟨?_, ?_⟩)
      · simp [pingExpired] at hp; exact hp.1
      · simp [hl, hp]
    · exact .inl (by simp [hl, hp])

end Sys2Proof.Machine
end

