-- ==== Sys2Proof/Laws/Stages.lean ====
section
/-!
SUPPORT. What each operation that may be held can do, said once: the stage steps (41_sequencer.md R150 to
R154), the framer (42_framer.md R186 to R190) and the pops and pushes of queues (40_queue.md R122, R123, R130).
-/

namespace Sys2Proof.Machine

/-! ## ENCI -/

theorem enciPut_cases {f : AudioFrame} {s t : State} (h : enciPut f s = some t) :
    s.vocOpen = false ∧
      t = { s with hold := { s.hold with enci := none }, run := { s.run with enci := false } }.log .notOpen ∨
    s.vocOpen = true ∧ qFull .sqTx s.queues.sqTx = false ∧
      (Config.sendAudioStatus s.draws = .ok ∧ t = { s with
          queues := { s.queues with sqTx := s.queues.sqTx ++ [f.tag] }
          hold := { s.hold with enci := none }
          run := { s.run with enci := s.run.enci && !endMark f.tag }
          trace := s.trace ++ [.vocSendAudio f.pcm]
          draws := s.draws + 1 } ∨
       Config.sendAudioStatus s.draws = .ioerr ∧ t = State.log { s with
          hold := { s.hold with enci := none }
          run := { s.run with enci := s.run.enci && !endMark f.tag }
          trace := s.trace ++ [.vocSendAudio f.pcm]
          draws := s.draws + 1 } .devIo) := by
  unfold enciPut at h
  split at h
  · cases h; exact .inl ⟨by assumption, rfl⟩
  · rename_i hv
    split at h
    · cases h
    · rename_i hf
      refine .inr ⟨by simpa using hv, by simpa using hf, ?_⟩
      cases hc : Config.sendAudioStatus s.draws <;> rw [hc] at h <;> cases h
      · exact .inl ⟨rfl, rfl⟩
      · exact .inr ⟨rfl, rfl⟩

theorem enciPhase_cases {s t : State} (h : enciPhase s = some t) :
    s.run.enci = true ∧
    ((∃ f l, s.hold.enci = none ∧ s.queues.aqTx = f :: l ∧
        t = { s with queues := { s.queues with aqTx := l }, hold := { s.hold with enci := some f } }) ∨
     ∃ f, s.hold.enci = some f ∧ enciPut f s = some t) := by
  unfold enciPhase at h
  split at h
  · cases h
  · rename_i hr
    refine ⟨by simpa using hr, ?_⟩
    cases hh : s.hold.enci with
    | some f => rw [hh] at h; exact .inr ⟨f, rfl, h⟩
    | none =>
      rw [hh] at h
      cases hq : s.queues.aqTx with
      | nil => rw [hq] at h; cases h
      | cons f l => rw [hq] at h; cases h; exact .inl ⟨f, l, rfl, rfl, rfl⟩

/-! ## ENCO -/

theorem encoTake_cases (tag : Tag) (l : List Tag) (s : State) :
    s.vocOpen = false ∧ encoTake tag l s = { s with run := { s.run with enco := false } }.log .notOpen ∨
    s.vocOpen = true ∧
      (Config.getDataStatus s.draws = .ok ∧ encoTake tag l s = { s with
          queues := { s.queues with sqTx := l }
          hold := { s.hold with enco := some ⟨drawnPayload s.draws, tag⟩ }
          draws := s.draws + 1 } ∨
       Config.getDataStatus s.draws = .ioerr ∧ encoTake tag l s = State.log { s with
          queues := { s.queues with sqTx := l }
          run := { s.run with enco := s.run.enco && !endMark tag }
          draws := s.draws + 1 } .devIo) := by
  unfold encoTake
  split
  · exact .inl ⟨by assumption, rfl⟩
  · rename_i hv
    refine .inr ⟨by simpa using hv, ?_⟩
    cases hc : Config.getDataStatus s.draws
    · exact .inl ⟨rfl, rfl⟩
    · exact .inr ⟨rfl, rfl⟩

theorem encoPhase_cases {s t : State} (h : encoPhase s = some t) :
    s.run.enco = true ∧
    ((∃ tag l, s.hold.enco = none ∧ s.queues.sqTx = tag :: l ∧ t = encoTake tag l s) ∨
     ∃ f, s.hold.enco = some f ∧ qFull .cqTx s.queues.cqTx = false ∧ t = { s with
       queues := { s.queues with cqTx := s.queues.cqTx ++ [f] }
       hold := { s.hold with enco := none }
       run := { s.run with enco := s.run.enco && !endMark f.tag } }) := by
  unfold encoPhase at h
  split at h
  · cases h
  · rename_i hr
    refine ⟨by simpa using hr, ?_⟩
    cases hh : s.hold.enco with
    | some f =>
      rw [hh] at h
      dsimp only at h
      split at h
      · cases h
      · rename_i hf
        cases h
        exact .inr ⟨f, rfl, by simpa using hf, rfl⟩
    | none =>
      rw [hh] at h
      cases hq : s.queues.sqTx with
      | nil => rw [hq] at h; cases h
      | cons f l => rw [hq] at h; cases h; exact .inl ⟨f, l, rfl, rfl, rfl⟩

/-! ## DECI -/

theorem deciPut_cases {f : CompressedFrame} {s t : State} (h : deciPut f s = some t) :
    s.vocOpen = false ∧
      t = { s with hold := { s.hold with deci := none }, run := { s.run with deci := false } }.log .notOpen ∨
    s.vocOpen = true ∧ qFull .sqRx s.queues.sqRx = false ∧
      (Config.sendDataStatus s.draws = .ok ∧ t = { s with
          queues := { s.queues with sqRx := s.queues.sqRx ++ [f.tag] }
          hold := { s.hold with deci := none }
          run := { s.run with deci := s.run.deci && !endMark f.tag }
          trace := s.trace ++ [.vocSendData f.payload]
          draws := s.draws + 1 } ∨
       Config.sendDataStatus s.draws = .ioerr ∧ t = State.log { s with
          hold := { s.hold with deci := none }
          run := { s.run with deci := s.run.deci && !endMark f.tag }
          trace := s.trace ++ [.vocSendData f.payload]
          draws := s.draws + 1 } .devIo) := by
  unfold deciPut at h
  split at h
  · cases h; exact .inl ⟨by assumption, rfl⟩
  · rename_i hv
    split at h
    · cases h
    · rename_i hf
      refine .inr ⟨by simpa using hv, by simpa using hf, ?_⟩
      cases hc : Config.sendDataStatus s.draws <;> rw [hc] at h <;> cases h
      · exact .inl ⟨rfl, rfl⟩
      · exact .inr ⟨rfl, rfl⟩

theorem deciPhase_cases {s t : State} (h : deciPhase s = some t) :
    s.run.deci = true ∧
    ((∃ f l, s.hold.deci = none ∧ s.queues.cqRx = f :: l ∧
        t = { s with queues := { s.queues with cqRx := l }, hold := { s.hold with deci := some f } }) ∨
     ∃ f, s.hold.deci = some f ∧ deciPut f s = some t) := by
  unfold deciPhase at h
  split at h
  · cases h
  · rename_i hr
    refine ⟨by simpa using hr, ?_⟩
    cases hh : s.hold.deci with
    | some f => rw [hh] at h; exact .inr ⟨f, rfl, h⟩
    | none =>
      rw [hh] at h
      cases hq : s.queues.cqRx with
      | nil => rw [hq] at h; cases h
      | cons f l => rw [hq] at h; cases h; exact .inl ⟨f, l, rfl, rfl, rfl⟩

/-! ## DECO -/

theorem decoTake_cases (tag : Tag) (l : List Tag) (s : State) :
    s.vocOpen = false ∧ decoTake tag l s = { s with run := { s.run with deco := false } }.log .notOpen ∨
    s.vocOpen = true ∧
      (Config.getAudioStatus s.draws = .ok ∧ decoTake tag l s = { s with
          queues := { s.queues with sqRx := l }
          hold := { s.hold with deco := some ⟨drawnPcm s.draws, tag⟩ }
          draws := s.draws + 1 } ∨
       Config.getAudioStatus s.draws = .ioerr ∧ decoTake tag l s = State.log { s with
          queues := { s.queues with sqRx := l }
          run := { s.run with deco := s.run.deco && !endMark tag }
          draws := s.draws + 1 } .devIo) := by
  unfold decoTake
  split
  · exact .inl ⟨by assumption, rfl⟩
  · rename_i hv
    refine .inr ⟨by simpa using hv, ?_⟩
    cases hc : Config.getAudioStatus s.draws
    · exact .inl ⟨rfl, rfl⟩
    · exact .inr ⟨rfl, rfl⟩

theorem decoPhase_cases {s t : State} (h : decoPhase s = some t) :
    s.run.deco = true ∧
    ((∃ tag l, s.hold.deco = none ∧ s.queues.sqRx = tag :: l ∧ t = decoTake tag l s) ∨
     ∃ f, s.hold.deco = some f ∧ qFull .aqRx s.queues.aqRx = false ∧ t = { s with
       queues := { s.queues with aqRx := s.queues.aqRx ++ [f] }
       hold := { s.hold with deco := none }
       run := { s.run with deco := s.run.deco && !endMark f.tag } }) := by
  unfold decoPhase at h
  split at h
  · cases h
  · rename_i hr
    refine ⟨by simpa using hr, ?_⟩
    cases hh : s.hold.deco with
    | some f =>
      rw [hh] at h
      dsimp only at h
      split at h
      · cases h
      · rename_i hf
        cases h
        exact .inr ⟨f, rfl, by simpa using hf, rfl⟩
    | none =>
      rw [hh] at h
      cases hq : s.queues.sqRx with
      | nil => rw [hq] at h; cases h
      | cons f l => rw [hq] at h; cases h; exact .inl ⟨f, l, rfl, rfl, rfl⟩

/-! ## PLAY -/

theorem playFrame_cases (f : AudioFrame) (l : List AudioFrame) (s : State) :
    playFrame f l s = { s with
      queues := { s.queues with aqRx := l }
      run := { s.run with play := s.run.play && !endMark f.tag }
      trace := s.trace ++ [.playPut f.pcm]
      draws := s.draws + 1 } ∨
    playFrame f l s = State.log { s with
      queues := { s.queues with aqRx := l }
      run := { s.run with play := s.run.play && !endMark f.tag }
      trace := s.trace ++ [.playPut f.pcm]
      draws := s.draws + 1 } .devIo := by
  unfold playFrame
  cases hc : Config.playStatus s.draws
  · exact .inl rfl
  · exact .inr rfl

theorem playPhase_cases {s t : State} (h : playPhase s = some t) :
    s.run.play = true ∧ ∃ f l, s.queues.aqRx = f :: l ∧ t = playFrame f l s := by
  unfold playPhase at h
  split at h
  · cases h
  · rename_i hr
    refine ⟨by simpa using hr, ?_⟩
    cases hq : s.queues.aqRx with
    | nil => rw [hq] at h; cases h
    | cons f l => rw [hq] at h; cases h; exact ⟨f, l, rfl, rfl⟩

/-! ## The framer -/

theorem frHdrPhase_cases {s t : State} (h : frHdrPhase s = some t) :
    s.run.fr = true ∧ s.hdrPending = true ∧ outFull s = false ∧
      t = { pushOut (mkHeader s) s with hdrPending := false } := by
  unfold frHdrPhase at h
  split at h
  · rename_i hc
    cases h
    simp only [Bool.and_eq_true, Bool.not_eq_true'] at hc
    exact ⟨hc.1.1, hc.1.2, hc.2, rfl⟩
  · cases h

theorem frVoicePhase_cases {s t : State} (h : frVoicePhase s = some t) :
    s.run.fr = true ∧
    ((∃ f l, s.hold.fr = none ∧ s.hdrPending = false ∧ s.queues.cqTx = f :: l ∧
        t = { s with queues := { s.queues with cqTx := l }, hold := { s.hold with fr := some f } }) ∨
     ∃ f, s.hold.fr = some f ∧ outFull s = false ∧
        t = { pushOut (mkVoice s.tx.sid f.payload f.tag) s with
          hold := { s.hold with fr := none }
          run := { s.run with fr := s.run.fr && !endMark f.tag } }) := by
  unfold frVoicePhase at h
  split at h
  · cases h
  · rename_i hr
    refine ⟨by simpa using hr, ?_⟩
    cases hh : s.hold.fr with
    | some f =>
      rw [hh] at h
      dsimp only at h
      split at h
      · cases h
      · rename_i hf
        cases h
        exact .inr ⟨f, rfl, by simpa using hf, rfl⟩
    | none =>
      rw [hh] at h
      dsimp only at h
      split at h
      · cases h
      · rename_i hp
        cases hq : s.queues.cqTx with
        | nil => rw [hq] at h; cases h
        | cons f l => rw [hq] at h; cases h; exact .inl ⟨f, l, rfl, by simpa using hp, rfl, rfl⟩

/-! ## RX_PACKET -/

/-- The packet of a good magic and the header `config` is a header packet (R188). -/
theorem rxPhase_header {pkt : WirePacket} (s : State)
    (hm : pkt.toList.take 4 = [0x44#8, 0x53#8, 0x56#8, 0x54#8]) (hc : pkt.toList.getD 4 0#8 = 0x10#8) :
    rxPhase pkt s = some (rxHeader pkt s) := by
  unfold rxPhase
  rw [if_neg (not_not.2 ((wpMagic_eq_iff _).2 hm)), if_pos (show wpConfig pkt = Config.cfgHdr from hc)]

/-- The packet of a good magic and the voice `config` is a voice packet (R188). -/
theorem rxPhase_voice {pkt : WirePacket} (s : State)
    (hm : pkt.toList.take 4 = [0x44#8, 0x53#8, 0x56#8, 0x54#8]) (hc : pkt.toList.getD 4 0#8 = 0x20#8) :
    rxPhase pkt s = rxVoice pkt s := by
  unfold rxPhase
  have hn : wpConfig pkt ≠ Config.cfgHdr := by unfold wpConfig; rw [hc]; decide
  rw [if_neg (not_not.2 ((wpMagic_eq_iff _).2 hm)), if_neg hn,
    if_pos (show wpConfig pkt = Config.cfgVoice from hc)]

/-- What `RX_PACKET` can do where it is enabled. -/
theorem rxPhase_cases {pkt : WirePacket} {s t : State} (h : rxPhase pkt s = some t) :
    (∃ c, (c = .format ∨ c = .crc ∨ c = .sid) ∧ t = s.log c) ∨
    (∃ r, t = { s with run := r, rx := ⟨true, wpStreamId pkt⟩ } ∧
      (r = s.run ∨ r = { s.run with deci := true, deco := true, play := true })) ∨
    s.rx.active = true ∧ wpStreamId pkt = s.rx.sid ∧ qFull .cqRx s.queues.cqRx = false ∧ t = { s with
      queues := { s.queues with cqRx := s.queues.cqRx ++ [⟨wpPayload pkt, wpControl pkt⟩] }
      rx := if endMark (wpControl pkt) then ⟨false, 0#16⟩ else s.rx } := by
  unfold rxPhase at h
  split at h
  · cases h; exact .inl ⟨.format, .inl rfl, rfl⟩
  · split at h
    · cases h
      unfold rxHeader
      split
      · exact .inl ⟨.crc, .inr (.inl rfl), rfl⟩
      · split
        · rename_i ha
          refine .inr (.inl ⟨s.run, ?_, .inl rfl⟩)
          show { s with rx := ⟨s.rx.active, wpStreamId pkt⟩ } = _
          rw [ha]
        · exact .inr (.inl ⟨_, rfl, .inr rfl⟩)
    · split at h
      · unfold rxVoice at h
        split at h
        · cases h; exact .inl ⟨.sid, .inr (.inr rfl), rfl⟩
        · rename_i hs
          split at h
          · cases h
          · rename_i hf
            cases h
            simp only [Bool.or_eq_true, Bool.not_eq_true', bne_iff_ne, not_or, Bool.not_eq_false,
              not_not] at hs
            exact .inr (.inr ⟨hs.1, hs.2, by simpa using hf, rfl⟩)
      · cases h; exact .inl ⟨.format, .inl rfl, rfl⟩

/-! ## Queue ports -/

/-- Queue `q` of the queues `qs` with its elements as they are and every other queue unchanged. -/
def SameBut (q : QueueId) (qs qs' : Queues) : Prop := ∀ p, p ≠ q → qs'.elems p = qs.elems p

theorem queuePush_cases {s t : State} {q : QueueId} {e : Elem} (h : queuePush s q e = some t) :
    qFull q (s.queues.elems q) = false ∧ t.queues.elems q = s.queues.elems q ++ [e] ∧
      SameBut q s.queues t.queues ∧ t = { s with queues := t.queues } := by
  cases q <;> cases e <;> simp only [queuePush, reduceCtorEq] at h <;> split at h <;> cases h <;>
    (rename_i hf
     refine ⟨by simpa [Queues.elems] using hf, by simp [Queues.elems], ?_, rfl⟩
     intro p hp
     cases p <;> first | rfl | exact absurd rfl hp)

theorem queuePop_cases {s t : State} {q : QueueId} (h : queuePop s q = some t) :
    ∃ e, s.queues.elems q = e :: t.queues.elems q ∧ t.portOut = some (q, e) ∧
      SameBut q s.queues t.queues ∧ t = { s with queues := t.queues, portOut := t.portOut } := by
  cases q <;> simp only [queuePop, Option.map_eq_some_iff, Prod.exists, qPop_eq_some] at h <;>
    (obtain ⟨e, l, hq, rfl⟩ := h
     refine ⟨_, by simp only [Queues.elems, hq]; rfl, rfl, ?_, rfl⟩
     intro p hp
     cases p <;> first | rfl | exact absurd rfl hp)

theorem clearQueue_cases (qs : Queues) (q : QueueId) :
    (clearQueue qs q).elems q = [] ∧ SameBut q qs (clearQueue qs q) := by
  refine ⟨by cases q <;> rfl, ?_⟩
  intro p hp
  cases q <;> cases p <;> first | rfl | exact absurd rfl hp

theorem oqPopStep_cases {dest : Dest} {s t : State} (h : oqPopStep dest s = some t) :
    ∃ p l, s.queues.oq dest = p :: l ∧
      t = State.emit { s with queues := s.queues.setOq dest l } (.oqData dest p) := by
  unfold oqPopStep at h
  cases hq : s.queues.oq dest with
  | nil => rw [hq] at h; cases h
  | cons p l => rw [hq] at h; cases h; exact ⟨p, l, rfl, rfl⟩

end Sys2Proof.Machine
end

