-- ==== Sys2Proof/Laws/Effects.lean ====
section
/-!
SUPPORT. Everything an operation can do, said once: `exec_effect` takes a next state apart into one of the
effects below, so that a statement over all operations is a case split on `Effect` and, for the gateway, on
`LinkEffect`.
-/

namespace Sys2Proof.Machine

/-! ## The gateway -/

/-- One thing that a handler or a timer of the gateway can do at `now` (44_link.md, 45_relay.md). -/
inductive LinkEffect (now : Time) (s : State) : State → Prop
  | none : LinkEffect now s s
  | logged (c : ErrCode) : LinkEffect now s (s.log c)
  | udp (a : NetAddr) (d : List Byte) : LinkEffect now s (s.emit (.udpTx a d))
  | linking (a : NetAddr) (code : Code) (m : Byte) (hu : s.link.state = .unlinked)
      (hc : code ≤ Config.csMax) (hr : Config.route code = some a) :
      LinkEffect now s (State.emit { s with link := ⟨.linking, true, a, code, m, now, s.link.tPing⟩ }
        (.udpTx a (mkConn (s.csGet 0) m)))
  | linked (hl : s.link.state = .linking) (hp : s.link.peerValid = true) :
      LinkEffect now s { s with link := { s.link with state := .linked, tPing := now } }
  | pinged (hl : s.link.state = .linked) (hp : s.link.peerValid = true) :
      LinkEffect now s
        { s.emit (.udpTx s.link.peer (mkPong (s.csGet 0))) with link := { s.link with tPing := now } }
  | unlinked (release : Bool)
      (hl : s.link.state = if release then .linked else .linking) : LinkEffect now s (toUnlinked release s)
  | relayed (f : M17Frame) (hc : crcOkM17 f = true)
      (hs : s.relay.active = true → m17StreamId f = s.relay.sid) :
      LinkEffect now s (State.emit
        { s with relay := ⟨!lastMark (m17Fn f), m17StreamId f, now, m17LinkInfo f, m17Fn f⟩ } (.localTx f.toList))
  | closed (ha : s.relay.active = true) (ht : Config.tRelayMs ≤ (now - s.relay.tLast).toNat) :
      LinkEffect now s
        { s.emit (.localTx (mkClosing s.relay).toList) with relay := { s.relay with active := false } }

theorem relayTimeout_effect (now : Time) (s : State) : LinkEffect now s (relayTimeout now s) := by
  unfold relayTimeout
  split
  · rename_i h
    simp only [relayExpired, Bool.and_eq_true, decide_eq_true_eq] at h
    exact .closed h.1 h.2
  · exact .none

/-- `eval_timers` is at most one way back to `unlinked`, then at most one closing frame. -/
theorem evalTimers_effect (now : Time) (s : State) :
    ∃ m, LinkEffect now s m ∧ LinkEffect now m (evalTimers now s) := by
  rcases evalTimers_cases now s with h | ⟨hl, h⟩ | ⟨hl, h⟩ <;> rw [h]
  · exact ⟨s, .none, relayTimeout_effect now s⟩
  · exact ⟨_, .unlinked false hl, relayTimeout_effect now _⟩
  · exact ⟨_, .unlinked true hl, relayTimeout_effect now _⟩

theorem linkReqHandler_effect (now : Time) (code : Code) (m : Byte) (s : State) :
    LinkEffect now s (linkReqHandler now code m s) := by
  unfold linkReqHandler
  split
  · exact .none
  · rename_i hu
    split
    · exact .logged _
    · rename_i hc
      split
      · exact .none
      · rename_i a ha
        refine .linking a code m (not_not.1 hu) ?_ ha
        simpa [csInvalid, BitVec.not_lt] using hc

theorem unlinkReqHandler_effect (now : Time) (s : State) : LinkEffect now s (unlinkReqHandler s) := by
  unfold unlinkReqHandler
  split
  · exact .udp _ _
  · exact .none

/-- What the check of a 4-byte control datagram says where it passes (R233). -/
theorem valid4_iff {src : NetAddr} {s : State} :
    valid4 src s = true ↔
      (s.link.state = .linking ∨ s.link.state = .linked) ∧ s.link.peerValid = true ∧ src = s.link.peer := by
  simp [valid4, fromPeer]

/-- What the check of a 10-byte control datagram says where it passes (R233). -/
theorem valid10_iff {src : NetAddr} {s : State} :
    valid10 src s = true ↔ s.link.state = .linked ∧ s.link.peerValid = true ∧ src = s.link.peer := by
  simp [valid10, fromPeer]

theorem acknHandler_effect (now : Time) (src : NetAddr) (s : State) :
    LinkEffect now s (acknHandler now src s) := by
  unfold acknHandler
  split
  · exact .logged _
  · rename_i hv
    simp only [Bool.not_eq_true', Bool.not_eq_false, valid4_iff] at hv
    split
    · exact .linked (by assumption) hv.2.1
    · exact .none

theorem nackHandler_effect (now : Time) (src : NetAddr) (s : State) :
    LinkEffect now s (nackHandler src s) := by
  unfold nackHandler
  split
  · exact .logged _
  · split
    · exact .unlinked false (by assumption)
    · exact .none

theorem disc4Handler_effect (now : Time) (src : NetAddr) (s : State) :
    LinkEffect now s (disc4Handler src s) := by
  unfold disc4Handler
  split
  · exact .logged _
  · rename_i hv
    simp only [Bool.not_eq_true', Bool.not_eq_false, valid4_iff] at hv
    split
    · exact .unlinked true (by assumption)
    · rename_i hl
      exact .unlinked false (hv.1.resolve_right hl)

theorem pingHandler_effect (now : Time) (src : NetAddr) (s : State) :
    LinkEffect now s (pingHandler now src s) := by
  unfold pingHandler
  split
  · exact .logged _
  · rename_i hv
    simp only [Bool.not_eq_true', Bool.not_eq_false, valid10_iff] at hv
    exact .pinged hv.1 hv.2.1

theorem disc10Handler_effect (now : Time) (src : NetAddr) (s : State) :
    LinkEffect now s (disc10Handler src s) := by
  unfold disc10Handler
  split
  · exact .logged _
  · rename_i hv
    simp only [Bool.not_eq_true', Bool.not_eq_false, valid10_iff] at hv
    exact .unlinked true hv.1

theorem m17Handler_effect (now : Time) (f : M17Frame) (s : State) :
    LinkEffect now s (m17Handler now f s) := by
  unfold m17Handler
  split
  · exact .logged _
  · split
    · exact .logged _
    · rename_i hc
      unfold relayAccept
      split
      · exact .logged _
      · rename_i hs
        have hs' : s.relay.active = true → m17StreamId f = s.relay.sid := by
          intro ha
          simpa [ha] using hs
        have e := LinkEffect.relayed (now := now) (s := s) f (by simpa using hc) hs'
        cases ha : s.relay.active
        · exact e
        · rw [hs' ha] at e
          exact e

theorem datagramHandler_effect (now : Time) (src : NetAddr) (d : List Byte) (s : State) :
    LinkEffect now s (datagramHandler now src d s) := by
  unfold datagramHandler
  split
  · exact acknHandler_effect now src s
  · exact nackHandler_effect now src s
  · exact disc4Handler_effect now src s
  · exact pingHandler_effect now src s
  · exact disc10Handler_effect now src s
  · exact m17Handler_effect now _ s
  · exact .logged _

theorem localHandler_effect (now : Time) (m : List Byte) (s : State) :
    LinkEffect now s (localHandler now m s) := by
  unfold localHandler
  split
  · split
    · unfold routeFrame
      split
      · split
        · exact .udp _ _
        · exact .none
      · split
        · exact linkReqHandler_effect now _ _ s
        · split
          · exact unlinkReqHandler_effect now s
          · split
            · exact .udp _ _
            · exact .none
    · exact .logged _
  · exact .logged _

/-- A handler alone is one effect, and the timers' two are none. -/
theorem gatewayHandler_effect {now : Time} {h : State → State} {s t : State}
    (he : ∀ s, LinkEffect now s (h s)) (hx : gatewayHandler now h s = .next t) :
    s.gwRun = true ∧ s.lastNow ≤ now ∧ ∃ a b, LinkEffect now { s with lastNow := now } a ∧
      LinkEffect now a b ∧ LinkEffect now b t := by
  obtain ⟨hr, ht, rfl⟩ := gatewayHandler_cases hx
  exact ⟨hr, ht, _, _, he _, .none, .none⟩

/-- A gateway operation is the effect of its handler and the two of the timers. -/
theorem gatewayOp_effect {now : Time} {h : State → State} {s t : State}
    (he : ∀ s, LinkEffect now s (h s)) (hx : gatewayOp now h s = .next t) :
    s.gwRun = true ∧ s.lastNow ≤ now ∧ ∃ a b, LinkEffect now { s with lastNow := now } a ∧
      LinkEffect now a b ∧ LinkEffect now b t := by
  obtain ⟨hr, ht, rfl⟩ := gatewayOp_cases hx
  obtain ⟨m, h1, h2⟩ := evalTimers_effect now (h { s with lastNow := now })
  exact ⟨hr, ht, _, m, he _, h1, h2⟩

/-! ## All operations -/

/-- What operation `i` does in state `s` when it answers a next state. -/
inductive Effect (s : State) : Instr → State → Prop
  | none {i : Instr} (hi : i ≠ .reset) : Effect s i s
  | reset : Effect s .reset { State.reset with pending := s.pending, trace := s.trace, draws := s.draws }
  | startTx {dest : Dest} {ur : Bytes 8} {sid : Half} (hr : s.run.any = false) :
      Effect s (.startTx dest ur sid) { s with
        queues := noQueues, hold := noHolds, tx := ⟨dest, ur, sid⟩, seq := ⟨0#5, false⟩, hdrPending := true
        run := { s.run with cap := true, enci := true, enco := true, fr := true } }
  | stopTx (hr : s.run.cap = true) : Effect s .stopTx { s with seq := { s.seq with stopReq := true } }
  | startPlayback (hr : s.run.any = false) :
      Effect s .startPlayback { s with run := { s.run with deci := true, deco := true, play := true } }
  | devOpen : Effect s .devOpen { s with vocOpen := true }
  | devClose : Effect s .devClose { s with vocOpen := false }
  | cfgWr {reg : CfgReg} {val : Bytes 8} (c : CfgRegs) : Effect s (.cfgWr reg val) { s with cfg := c }
  | captureError {st : DevStatus} {pcm : Pcm} : Effect s (.capTick st pcm) (s.log .devIo)
  | captured {pcm : Pcm} (hr : s.run.cap = true) (hf : qFull .aqTx s.queues.aqTx = false) :
      Effect s (.capTick .ok pcm) (captureFrame pcm s)
  | oqPop {dest : Dest} (p : WirePacket) (l : List WirePacket) (hq : s.queues.oq dest = p :: l) :
      Effect s (.oqPop dest) (State.emit { s with queues := s.queues.setOq dest l } (.oqData dest p))
  | csEncoded {idx : Fin Config.ncs} {str : Bytes 9} (v : Code) (hv : csEncode str.toList = some v) :
      Effect s (.csEnc idx str) ((s.csSet idx v).emit (.csResult 0#8 []))
  | csEncInvalid {idx : Fin Config.ncs} {str : Bytes 9} (hv : csEncode str.toList = .none) :
      Effect s (.csEnc idx str) ((s.log .csInvalid).emit (.csResult 1#8 []))
  | csLoaded {idx : Fin Config.ncs} {code : Code} (hv : code ≤ Config.csMax) :
      Effect s (.csLoad idx code) ((s.csSet idx code).emit (.csResult 0#8 []))
  | csLoadInvalid {idx : Fin Config.ncs} {code : Code} (hv : Config.csMax < code) :
      Effect s (.csLoad idx code) ((s.log .csInvalid).emit (.csResult 1#8 []))
  | csDec {idx : Fin Config.ncs} (status : Byte) (data : List Byte) : Effect s (.csDec idx) (s.emit (.csResult status data))
  | csEq {i j : Fin Config.ncs} (data : List Byte) : Effect s (.csEq i j) (s.emit (.csResult 0#8 data))
  | gwInit {a b c : Bool} (hr : s.gwRun = false) :
      Effect s (.gwInit a b c) (State.emit { s with gwRun := true } (.initResult false))
  | gwInitFailed {a b c : Bool} (hr : s.gwRun = false) :
      Effect s (.gwInit a b c) ((s.log .setup).emit (.initResult true))
  | gateway {i : Instr} {t : State} (hi : agentOf i = some .gw) (hr : s.gwRun = true) (now : Time)
      (ht : s.lastNow ≤ now) (a b : State) (h1 : LinkEffect now { s with lastNow := now } a)
      (h2 : LinkEffect now a b) (h3 : LinkEffect now b t) : Effect s i t
  | rxLogged {src : RxSource} {pkt : WirePacket} (c : ErrCode) : Effect s (.rxPacket src pkt) (s.log c)
  | rxHeader {src : RxSource} {pkt : WirePacket} (r : RunBits)
      (hr : r = s.run ∨ r = { s.run with deci := true, deco := true, play := true }) :
      Effect s (.rxPacket src pkt) { s with run := r, rx := ⟨true, wpStreamId pkt⟩ }
  | rxVoice {src : RxSource} {pkt : WirePacket} (ha : s.rx.active = true) (hs : wpStreamId pkt = s.rx.sid)
      (hf : qFull .cqRx s.queues.cqRx = false) :
      Effect s (.rxPacket src pkt) { s with
        queues := { s.queues with cqRx := s.queues.cqRx ++ [⟨wpPayload pkt, wpControl pkt⟩] }
        rx := if endMark (wpControl pkt) then ⟨false, 0#16⟩ else s.rx }
  | enciTake (f : AudioFrame) (l : List AudioFrame) (hr : s.run.enci = true) (hh : s.hold.enci = .none)
      (hq : s.queues.aqTx = f :: l) :
      Effect s .enciStep
        { s with queues := { s.queues with aqTx := l }, hold := { s.hold with enci := some f } }
  | enciClosed (f : AudioFrame) (hr : s.run.enci = true) (hh : s.hold.enci = some f) (hv : s.vocOpen = false) :
      Effect s .enciStep
        ({ s with hold := { s.hold with enci := .none }, run := { s.run with enci := false } }.log .notOpen)
  | enciSent (f : AudioFrame) (hr : s.run.enci = true) (hh : s.hold.enci = some f) (hv : s.vocOpen = true)
      (hf : qFull .sqTx s.queues.sqTx = false) :
      Effect s .enciStep { s with
        queues := { s.queues with sqTx := s.queues.sqTx ++ [f.tag] }
        hold := { s.hold with enci := .none }
        run := { s.run with enci := s.run.enci && !endMark f.tag }
        trace := s.trace ++ [.vocSendAudio f.pcm]
        draws := s.draws + 1 }
  | enciFailed (f : AudioFrame) (hr : s.run.enci = true) (hh : s.hold.enci = some f) (hv : s.vocOpen = true) :
      Effect s .enciStep (State.log { s with
        hold := { s.hold with enci := .none }
        run := { s.run with enci := s.run.enci && !endMark f.tag }
        trace := s.trace ++ [.vocSendAudio f.pcm]
        draws := s.draws + 1 } .devIo)
  | encoClosed (tag : Tag) (l : List Tag) (hr : s.run.enco = true) (hh : s.hold.enco = .none)
      (hq : s.queues.sqTx = tag :: l) (hv : s.vocOpen = false) :
      Effect s .encoStep ({ s with run := { s.run with enco := false } }.log .notOpen)
  | encoTaken (tag : Tag) (l : List Tag) (hr : s.run.enco = true) (hh : s.hold.enco = .none)
      (hq : s.queues.sqTx = tag :: l) (hv : s.vocOpen = true) :
      Effect s .encoStep { s with
        queues := { s.queues with sqTx := l }
        hold := { s.hold with enco := some ⟨drawnPayload s.draws, tag⟩ }
        draws := s.draws + 1 }
  | encoFailed (tag : Tag) (l : List Tag) (hr : s.run.enco = true) (hh : s.hold.enco = .none)
      (hq : s.queues.sqTx = tag :: l) (hv : s.vocOpen = true) :
      Effect s .encoStep (State.log { s with
        queues := { s.queues with sqTx := l }
        run := { s.run with enco := s.run.enco && !endMark tag }
        draws := s.draws + 1 } .devIo)
  | encoPut (f : CompressedFrame) (hr : s.run.enco = true) (hh : s.hold.enco = some f)
      (hf : qFull .cqTx s.queues.cqTx = false) :
      Effect s .encoStep { s with
        queues := { s.queues with cqTx := s.queues.cqTx ++ [f] }
        hold := { s.hold with enco := .none }
        run := { s.run with enco := s.run.enco && !endMark f.tag } }
  | deciTake (f : CompressedFrame) (l : List CompressedFrame) (hr : s.run.deci = true)
      (hh : s.hold.deci = .none) (hq : s.queues.cqRx = f :: l) :
      Effect s .deciStep
        { s with queues := { s.queues with cqRx := l }, hold := { s.hold with deci := some f } }
  | deciClosed (f : CompressedFrame) (hr : s.run.deci = true) (hh : s.hold.deci = some f)
      (hv : s.vocOpen = false) :
      Effect s .deciStep
        ({ s with hold := { s.hold with deci := .none }, run := { s.run with deci := false } }.log .notOpen)
  | deciSent (f : CompressedFrame) (hr : s.run.deci = true) (hh : s.hold.deci = some f)
      (hv : s.vocOpen = true) (hf : qFull .sqRx s.queues.sqRx = false) :
      Effect s .deciStep { s with
        queues := { s.queues with sqRx := s.queues.sqRx ++ [f.tag] }
        hold := { s.hold with deci := .none }
        run := { s.run with deci := s.run.deci && !endMark f.tag }
        trace := s.trace ++ [.vocSendData f.payload]
        draws := s.draws + 1 }
  | deciFailed (f : CompressedFrame) (hr : s.run.deci = true) (hh : s.hold.deci = some f)
      (hv : s.vocOpen = true) :
      Effect s .deciStep (State.log { s with
        hold := { s.hold with deci := .none }
        run := { s.run with deci := s.run.deci && !endMark f.tag }
        trace := s.trace ++ [.vocSendData f.payload]
        draws := s.draws + 1 } .devIo)
  | decoClosed (tag : Tag) (l : List Tag) (hr : s.run.deco = true) (hh : s.hold.deco = .none)
      (hq : s.queues.sqRx = tag :: l) (hv : s.vocOpen = false) :
      Effect s .decoStep ({ s with run := { s.run with deco := false } }.log .notOpen)
  | decoTaken (tag : Tag) (l : List Tag) (hr : s.run.deco = true) (hh : s.hold.deco = .none)
      (hq : s.queues.sqRx = tag :: l) (hv : s.vocOpen = true) :
      Effect s .decoStep { s with
        queues := { s.queues with sqRx := l }
        hold := { s.hold with deco := some ⟨drawnPcm s.draws, tag⟩ }
        draws := s.draws + 1 }
  | decoFailed (tag : Tag) (l : List Tag) (hr : s.run.deco = true) (hh : s.hold.deco = .none)
      (hq : s.queues.sqRx = tag :: l) (hv : s.vocOpen = true) :
      Effect s .decoStep (State.log { s with
        queues := { s.queues with sqRx := l }
        run := { s.run with deco := s.run.deco && !endMark tag }
        draws := s.draws + 1 } .devIo)
  | decoPut (f : AudioFrame) (hr : s.run.deco = true) (hh : s.hold.deco = some f)
      (hf : qFull .aqRx s.queues.aqRx = false) :
      Effect s .decoStep { s with
        queues := { s.queues with aqRx := s.queues.aqRx ++ [f] }
        hold := { s.hold with deco := .none }
        run := { s.run with deco := s.run.deco && !endMark f.tag } }
  | played (f : AudioFrame) (l : List AudioFrame) (hr : s.run.play = true) (hq : s.queues.aqRx = f :: l) :
      Effect s .playStep { s with
        queues := { s.queues with aqRx := l }
        run := { s.run with play := s.run.play && !endMark f.tag }
        trace := s.trace ++ [.playPut f.pcm]
        draws := s.draws + 1 }
  | playFailed (f : AudioFrame) (l : List AudioFrame) (hr : s.run.play = true) (hq : s.queues.aqRx = f :: l) :
      Effect s .playStep (State.log { s with
        queues := { s.queues with aqRx := l }
        run := { s.run with play := s.run.play && !endMark f.tag }
        trace := s.trace ++ [.playPut f.pcm]
        draws := s.draws + 1 } .devIo)
  | frHdr (hr : s.run.fr = true) (hp : s.hdrPending = true) (hf : outFull s = false) :
      Effect s .frHdr { pushOut (mkHeader s) s with hdrPending := false }
  | frTake (f : CompressedFrame) (l : List CompressedFrame) (hr : s.run.fr = true) (hh : s.hold.fr = .none)
      (hp : s.hdrPending = false) (hq : s.queues.cqTx = f :: l) :
      Effect s .frVoice { s with queues := { s.queues with cqTx := l }, hold := { s.hold with fr := some f } }
  | frPut (f : CompressedFrame) (hr : s.run.fr = true) (hh : s.hold.fr = some f) (hf : outFull s = false) :
      Effect s .frVoice { pushOut (mkVoice s.tx.sid f.payload f.tag) s with
        hold := { s.hold with fr := .none }
        run := { s.run with fr := s.run.fr && !endMark f.tag } }
  | qPush {q : QueueId} {e : Elem} {qs : Queues} (hf : qFull q (s.queues.elems q) = false)
      (he : qs.elems q = s.queues.elems q ++ [e]) (ho : SameBut q s.queues qs) :
      Effect s (.qPush q e) { s with queues := qs }
  | qPop {q : QueueId} {qs : Queues} (e : Elem) (he : s.queues.elems q = e :: qs.elems q)
      (ho : SameBut q s.queues qs) :
      Effect s (.qPop q) { s with queues := qs, portOut := some (q, e) }
  | qClr {q : QueueId} {qs : Queues} (he : qs.elems q = []) (ho : SameBut q s.queues qs) :
      Effect s (.qClr q) { s with queues := qs }

/-- An operation that may be held, by what it does where it is enabled. -/
theorem effect_of_held {s t : State} {i : Instr} {r : Option State} (hi : i ≠ .reset)
    (he : ∀ u, r = some u → Effect s i u) (h : orHeld s r = .next t) : Effect s i t := by
  rcases orHeld_cases h with h | ⟨_, rfl⟩
  · exact he t h
  · exact .none hi

theorem enciStep_effect {s t : State} (h : enciPhase s = some t) : Effect s .enciStep t := by
  obtain ⟨hr, ⟨f, l, hh, hq, rfl⟩ | ⟨f, hh, h⟩⟩ := enciPhase_cases h
  · exact .enciTake f l hr hh hq
  · rcases enciPut_cases h with ⟨hv, rfl⟩ | ⟨hv, hf, ⟨_, rfl⟩ | ⟨_, rfl⟩⟩
    · exact .enciClosed f hr hh hv
    · exact .enciSent f hr hh hv hf
    · exact .enciFailed f hr hh hv

theorem encoStep_effect {s t : State} (h : encoPhase s = some t) : Effect s .encoStep t := by
  obtain ⟨hr, ⟨tag, l, hh, hq, rfl⟩ | ⟨f, hh, hf, rfl⟩⟩ := encoPhase_cases h
  · rcases encoTake_cases tag l s with ⟨hv, e⟩ | ⟨hv, ⟨_, e⟩ | ⟨_, e⟩⟩ <;> rw [e]
    · exact .encoClosed tag l hr hh hq hv
    · exact .encoTaken tag l hr hh hq hv
    · exact .encoFailed tag l hr hh hq hv
  · exact .encoPut f hr hh hf

theorem deciStep_effect {s t : State} (h : deciPhase s = some t) : Effect s .deciStep t := by
  obtain ⟨hr, ⟨f, l, hh, hq, rfl⟩ | ⟨f, hh, h⟩⟩ := deciPhase_cases h
  · exact .deciTake f l hr hh hq
  · rcases deciPut_cases h with ⟨hv, rfl⟩ | ⟨hv, hf, ⟨_, rfl⟩ | ⟨_, rfl⟩⟩
    · exact .deciClosed f hr hh hv
    · exact .deciSent f hr hh hv hf
    · exact .deciFailed f hr hh hv

theorem decoStep_effect {s t : State} (h : decoPhase s = some t) : Effect s .decoStep t := by
  obtain ⟨hr, ⟨tag, l, hh, hq, rfl⟩ | ⟨f, hh, hf, rfl⟩⟩ := decoPhase_cases h
  · rcases decoTake_cases tag l s with ⟨hv, e⟩ | ⟨hv, ⟨_, e⟩ | ⟨_, e⟩⟩ <;> rw [e]
    · exact .decoClosed tag l hr hh hq hv
    · exact .decoTaken tag l hr hh hq hv
    · exact .decoFailed tag l hr hh hq hv
  · exact .decoPut f hr hh hf

theorem playStep_effect {s t : State} (h : playPhase s = some t) : Effect s .playStep t := by
  obtain ⟨hr, f, l, hq, rfl⟩ := playPhase_cases h
  rcases playFrame_cases f l s with e | e <;> rw [e]
  · exact .played f l hr hq
  · exact .playFailed f l hr hq

theorem frHdr_effect {s t : State} (h : frHdrPhase s = some t) : Effect s .frHdr t := by
  obtain ⟨hr, hp, hf, rfl⟩ := frHdrPhase_cases h
  exact .frHdr hr hp hf

theorem frVoice_effect {s t : State} (h : frVoicePhase s = some t) : Effect s .frVoice t := by
  obtain ⟨hr, ⟨f, l, hh, hp, hq, rfl⟩ | ⟨f, hh, hf, rfl⟩⟩ := frVoicePhase_cases h
  · exact .frTake f l hr hh hp hq
  · exact .frPut f hr hh hf

theorem rxPacket_effect {src : RxSource} {pkt : WirePacket} {s t : State} (h : rxPhase pkt s = some t) :
    Effect s (.rxPacket src pkt) t := by
  rcases rxPhase_cases h with ⟨c, _, rfl⟩ | ⟨r, rfl, hr⟩ | ⟨ha, hs, hf, rfl⟩
  · exact .rxLogged c
  · exact .rxHeader r hr
  · exact .rxVoice ha hs hf

theorem capTick_effect {st : DevStatus} {pcm : Pcm} {s t : State} (h : execCapTick st pcm s = .next t) :
    Effect s (.capTick st pcm) t := by
  unfold execCapTick at h
  split at h
  · cases h; exact .none (by simp)
  · rename_i hr
    split at h
    · cases h; exact .captureError
    · split at h
      · cases h
      · rename_i hf
        cases h
        exact .captured (by simpa using hr) (by simpa using hf)

theorem csEnc_effect {idx : Fin Config.ncs} {str : Bytes 9} {s t : State} (h : execCsEnc idx str s = .next t) :
    Effect s (.csEnc idx str) t := by
  unfold execCsEnc at h
  split at h
  · rename_i hv; cases h; exact .csEncInvalid hv
  · rename_i v hv; cases h; exact .csEncoded v hv

theorem csLoad_effect {idx : Fin Config.ncs} {code : Code} {s t : State} (h : execCsLoad idx code s = .next t) :
    Effect s (.csLoad idx code) t := by
  unfold execCsLoad at h
  split at h
  · rename_i hv
    cases h
    exact .csLoadInvalid (by simpa [csInvalid] using hv)
  · rename_i hv
    cases h
    exact .csLoaded (by simpa [csInvalid, BitVec.not_lt] using hv)

theorem gwInit_effect {a b c : Bool} {s t : State} (h : execGwInit a b c s = .next t) :
    Effect s (.gwInit a b c) t := by
  unfold execGwInit at h
  split at h
  · cases h
  · rename_i hr
    split at h
    · cases h; exact .gwInit (by simpa using hr)
    · cases h; exact .gwInitFailed (by simpa using hr)

/-- An operation of the gateway, by the effect of its handler. -/
theorem effect_of_gatewayOp {s t : State} {i : Instr} {now : Time} {h : State → State}
    (hi : agentOf i = some .gw) (he : ∀ s, LinkEffect now s (h s)) (hx : gatewayOp now h s = .next t) :
    Effect s i t := by
  obtain ⟨hr, ht, a, b, h1, h2, h3⟩ := gatewayOp_effect he hx
  exact .gateway hi hr now ht a b h1 h2 h3

theorem effect_of_gatewayHandler {s t : State} {i : Instr} {now : Time} {h : State → State}
    (hi : agentOf i = some .gw) (he : ∀ s, LinkEffect now s (h s)) (hx : gatewayHandler now h s = .next t) :
    Effect s i t := by
  obtain ⟨hr, ht, a, b, h1, h2, h3⟩ := gatewayHandler_effect he hx
  exact .gateway hi hr now ht a b h1 h2 h3

/-- Everything an operation can do when it answers a next state. -/
theorem exec_effect {i : Instr} {s t : State} (h : exec i s = .next t) : Effect s i t := by
  cases i with
  | reset => cases h; exact .reset
  | startTx dest ur sid =>
    change execStartTx dest ur sid s = .next t at h
    unfold execStartTx at h
    split at h
    · cases h
    · rename_i hr; cases h; exact .startTx (by simpa using hr)
  | stopTx =>
    change execStopTx s = .next t at h
    unfold execStopTx at h
    split at h
    · rename_i hr; cases h; exact .stopTx hr
    · cases h; exact .none (by simp)
  | startPlayback =>
    change execStartPlayback s = .next t at h
    unfold execStartPlayback at h
    split at h
    · cases h
    · rename_i hr; cases h; exact .startPlayback (by simpa using hr)
  | rxPacket src pkt => exact effect_of_held (by simp) (fun _ => rxPacket_effect) h
  | devOpen => cases h; exact .devOpen
  | devClose => cases h; exact .devClose
  | cfgWr reg val => cases reg <;> (injection h with h; subst h; exact .cfgWr _)
  | oqPop dest =>
    refine effect_of_held (by simp) (fun u hu => ?_) h
    obtain ⟨p, l, hq, rfl⟩ := oqPopStep_cases hu
    exact .oqPop p l hq
  | csEnc idx str => exact csEnc_effect h
  | csLoad idx code => exact csLoad_effect h
  | csDec idx =>
    change execCsDec idx s = .next t at h
    unfold execCsDec at h
    split at h <;> cases h
    · exact .csDec _ _
    · exact .csDec _ _
  | csEq i j => cases h; exact .csEq _
  | gwInit a b c => exact gwInit_effect h
  | linkReq now code m => exact effect_of_gatewayOp rfl (linkReqHandler_effect now code m) h
  | unlinkReq now => exact effect_of_gatewayOp rfl (unlinkReqHandler_effect now) h
  | capTick st pcm => exact capTick_effect h
  | udpRx now sock addr d => exact effect_of_gatewayOp rfl (datagramHandler_effect now ⟨sock, addr⟩ d) h
  | localRx now m => exact effect_of_gatewayOp rfl (localHandler_effect now m) h
  | tick now => exact effect_of_gatewayOp rfl (fun _ => .none) h
  | enciStep => exact effect_of_held (by simp) (fun _ => enciStep_effect) h
  | encoStep => exact effect_of_held (by simp) (fun _ => encoStep_effect) h
  | frHdr => exact effect_of_held (by simp) (fun _ => frHdr_effect) h
  | frVoice => exact effect_of_held (by simp) (fun _ => frVoice_effect) h
  | deciStep => exact effect_of_held (by simp) (fun _ => deciStep_effect) h
  | decoStep => exact effect_of_held (by simp) (fun _ => decoStep_effect) h
  | playStep => exact effect_of_held (by simp) (fun _ => playStep_effect) h
  | ackn now src => exact effect_of_gatewayHandler rfl (acknHandler_effect now src) h
  | nack now src => exact effect_of_gatewayHandler rfl (nackHandler_effect now src) h
  | disc4 now src => exact effect_of_gatewayHandler rfl (disc4Handler_effect now src) h
  | ping now src code => exact effect_of_gatewayHandler rfl (pingHandler_effect now src) h
  | disc10 now src code => exact effect_of_gatewayHandler rfl (disc10Handler_effect now src) h
  | m17Rx now src f => exact effect_of_gatewayHandler rfl (m17Handler_effect now f) h
  | dgUnknown now src d => exact effect_of_gatewayHandler rfl (fun _ => .logged _) h
  | qNop q => cases h; exact .none (by simp)
  | qPush q e =>
    change execQPush q e s = .next t at h
    unfold execQPush at h
    split at h
    · refine effect_of_held (by simp) (fun u hu => ?_) h
      obtain ⟨hf, he, ho, e⟩ := queuePush_cases hu
      rw [e]
      exact .qPush hf he ho
    · cases h
  | qPop q =>
    refine effect_of_held (by simp) (fun u hu => ?_) h
    obtain ⟨x, he, hp, ho, e⟩ := queuePop_cases hu
    rw [e, hp]
    exact .qPop x he ho
  | qClr q =>
    cases h
    exact .qClr (clearQueue_cases s.queues q).1 (clearQueue_cases s.queues q).2

end Sys2Proof.Machine
end

