-- ==== Sys2Proof/Laws/PerInstr.lean ====
section
/-!
SUPPORT. The per-instruction family `EncodedLength`: a command that encodes an operation is as long as its
row of the operation table says (`length_bytes`, 30_encoding.md R93 to R96), the counted bytes of a datagram
or message included.
-/

namespace Sys2Proof.Laws

/-- The bytes that encode a well-formed operation are as many as `cmdLength` reads off their opcode. -/
def EncodedLength.Statement (i : Instr) : Prop :=
  ∀ b, i.wf = true → encode i = .cmd b → cmdLength b = b.length

/-- The two bytes of a length that fits 16 bits spell it. -/
theorem beNat_be16_length {d : List Byte} (h : fitsLen d = true) :
    beNat (be16 (BitVec.ofNat 16 d.length)).toList = d.length := by
  have hl : d.length < 65536 := by simpa [fitsLen] using h
  simp [be16, beNat_beBytes, Nat.mod_eq_of_lt hl]

/-- `UDP_RX` of any datagram that fits. -/
theorem cmdLength_udpRxBytes (now : Time) (sock : BitVec 1) (addr : BitVec Config.addrW) {d : List Byte}
    (h : fitsLen d = true) : cmdLength (udpRxBytes now sock addr d) = (udpRxBytes now sock addr d).length := by
  have e := beNat_be16_length h
  have e15 : (be64 now).toList.drop 15 = [] := List.drop_eq_nil_of_le (by simp)
  simp [cmdLength, udpRxBytes, List.drop_append, e15, e]
  omega

theorem EncodedLength.reset : Statement .reset := by
  intro b _ h; cases h; rfl

theorem EncodedLength.startTx (dest : Dest) (ur : Bytes 8) (sid : Half) : Statement (.startTx dest ur sid) := by
  intro b _ h; cases h; simp [cmdLength]

theorem EncodedLength.stopTx : Statement .stopTx := by
  intro b _ h; cases h; rfl

theorem EncodedLength.startPlayback : Statement .startPlayback := by
  intro b _ h; cases h; rfl

theorem EncodedLength.rxPacket (src : RxSource) (pkt : WirePacket) : Statement (.rxPacket src pkt) := by
  intro b _ h; injection h with h; subst h; simp [cmdLength]

theorem EncodedLength.devOpen : Statement .devOpen := by
  intro b _ h; cases h; rfl

theorem EncodedLength.devClose : Statement .devClose := by
  intro b _ h; cases h; rfl

theorem EncodedLength.cfgWr (reg : CfgReg) (val : Bytes 8) : Statement (.cfgWr reg val) := by
  intro b _ h; injection h with h; subst h; simp [cmdLength]

theorem EncodedLength.oqPop (dest : Dest) : Statement (.oqPop dest) := by
  intro b _ h; cases h; rfl

theorem EncodedLength.csEnc (idx : Fin Config.ncs) (str : Bytes 9) : Statement (.csEnc idx str) := by
  intro b _ h; injection h with h; subst h; simp [cmdLength]

theorem EncodedLength.csLoad (idx : Fin Config.ncs) (code : Code) : Statement (.csLoad idx code) := by
  intro b _ h; injection h with h; subst h; simp [cmdLength]

theorem EncodedLength.csDec (idx : Fin Config.ncs) : Statement (.csDec idx) := by
  intro b _ h; cases h; rfl

theorem EncodedLength.csEq (i j : Fin Config.ncs) : Statement (.csEq i j) := by
  intro b _ h; cases h; rfl

theorem EncodedLength.gwInit (s0 s1 ch : Bool) : Statement (.gwInit s0 s1 ch) := by
  intro b _ h; cases h; rfl

theorem EncodedLength.linkReq (now : Time) (code : Code) (modByte : Byte) :
    Statement (.linkReq now code modByte) := by
  intro b _ h; injection h with h; subst h; simp [cmdLength]

theorem EncodedLength.unlinkReq (now : Time) : Statement (.unlinkReq now) := by
  intro b _ h; injection h with h; subst h; simp [cmdLength]

theorem EncodedLength.capTick (st : DevStatus) (pcm : Pcm) : Statement (.capTick st pcm) := by
  intro b _ h; injection h with h; subst h; simp [cmdLength]

theorem EncodedLength.udpRx (now : Time) (sock : BitVec 1) (addr : BitVec Config.addrW) (datagram : List Byte) :
    Statement (.udpRx now sock addr datagram) := by
  intro b hw h; injection h with h; subst h
  exact cmdLength_udpRxBytes now sock addr hw

theorem EncodedLength.localRx (now : Time) (message : List Byte) : Statement (.localRx now message) := by
  intro b hw h; injection h with h; subst h
  have e := beNat_be16_length (d := message) hw
  simp [cmdLength, e]
  omega

theorem EncodedLength.tick (now : Time) : Statement (.tick now) := by
  intro b _ h; injection h with h; subst h; simp [cmdLength]

theorem EncodedLength.enciStep : Statement .enciStep := by
  intro b _ h; cases h; rfl

theorem EncodedLength.encoStep : Statement .encoStep := by
  intro b _ h; cases h; rfl

theorem EncodedLength.frHdr : Statement .frHdr := by
  intro b _ h; cases h; rfl

theorem EncodedLength.frVoice : Statement .frVoice := by
  intro b _ h; cases h; rfl

theorem EncodedLength.deciStep : Statement .deciStep := by
  intro b _ h; cases h; rfl

theorem EncodedLength.decoStep : Statement .decoStep := by
  intro b _ h; cases h; rfl

theorem EncodedLength.playStep : Statement .playStep := by
  intro b _ h; cases h; rfl

theorem EncodedLength.ackn (now : Time) (src : NetAddr) : Statement (.ackn now src) := by
  intro b _ h; injection h with h; subst h
  exact cmdLength_udpRxBytes _ _ _ rfl

theorem EncodedLength.nack (now : Time) (src : NetAddr) : Statement (.nack now src) := by
  intro b _ h; injection h with h; subst h
  exact cmdLength_udpRxBytes _ _ _ rfl

theorem EncodedLength.disc4 (now : Time) (src : NetAddr) : Statement (.disc4 now src) := by
  intro b _ h; injection h with h; subst h
  exact cmdLength_udpRxBytes _ _ _ rfl

theorem EncodedLength.ping (now : Time) (src : NetAddr) (code : Code) : Statement (.ping now src code) := by
  intro b _ h; injection h with h; subst h
  exact cmdLength_udpRxBytes _ _ _ (by simp [fitsLen, tagPing])

theorem EncodedLength.disc10 (now : Time) (src : NetAddr) (code : Code) : Statement (.disc10 now src code) := by
  intro b _ h; injection h with h; subst h
  exact cmdLength_udpRxBytes _ _ _ (by simp [fitsLen, tagDisc])

theorem EncodedLength.m17Rx (now : Time) (src : NetAddr) (frame : M17Frame) :
    Statement (.m17Rx now src frame) := by
  intro b _ h; injection h with h; subst h
  exact cmdLength_udpRxBytes _ _ _ (by simp [fitsLen, Config.m17Len])

theorem EncodedLength.dgUnknown (now : Time) (src : NetAddr) (datagram : List Byte) :
    Statement (.dgUnknown now src datagram) := by
  intro b hw h; injection h with h; subst h
  have hw' : (fitsLen datagram && isUnknownDatagram datagram) = true := hw
  exact cmdLength_udpRxBytes _ _ _ (Bool.and_eq_true _ _ ▸ hw').1

theorem EncodedLength.qNop (q : QueueId) : Statement (.qNop q) := by
  intro b _ h; cases h

theorem EncodedLength.qPush (q : QueueId) (e : Elem) : Statement (.qPush q e) := by
  intro b _ h; cases h

theorem EncodedLength.qPop (q : QueueId) : Statement (.qPop q) := by
  intro b _ h; cases h

theorem EncodedLength.qClr (q : QueueId) : Statement (.qClr q) := by
  intro b _ h; cases h

end Sys2Proof.Laws
end

