-- ==== Sys2Proof/Laws/Step.lean ====
section
/-!
SUPPORT. What a step can do, said once: nothing, or the meaning of the one presented operation it chose.
-/

namespace Sys2Proof.Machine

@[simp] theorem presentFirst_pending (r : Request) (s : State) : (presentFirst r s).pending = r :: s.pending := rfl

/-- The operation chosen is an enabled one of the requests looked at, and the others stay in their order. -/
theorem chooseFrom_run {s : State} {before todo rest : List Request} {w : Bool} {i : Instr}
    (h : chooseFrom s before w todo = .run i rest) :
    ∃ ahead r after, todo = ahead ++ r :: after ∧ rest = before ++ ahead ++ after ∧ decode r = .ok i ∧
      held i s = false := by
  induction todo generalizing before w with
  | nil => cases h
  | cons r todo ih =>
    rw [chooseFrom] at h
    split at h
    · cases h
    · rename_i j hd
      split at h
      · obtain ⟨ahead, r', after, rfl, rfl, hr, hh⟩ := ih h
        exact ⟨r :: ahead, r', after, rfl, by simp, hr, hh⟩
      · rename_i hn
        cases h
        simp only [Bool.or_eq_true, not_or, Bool.not_eq_true] at hn
        exact ⟨[], r, todo, rfl, by simp, hd, hn.1⟩

/-- A step that answers a next state changed nothing, or ran the operation it chose on the state without the
request. -/
theorem step_cases {s t : State} (h : step s = .next t) :
    t = s ∨ ∃ i rest, choose s = .run i rest ∧ exec i { s with pending := rest } = .next t := by
  unfold step at h
  split at h
  · cases h; exact .inl rfl
  · cases h
  · rename_i i rest hc; exact .inr ⟨i, rest, hc, h⟩

end Sys2Proof.Machine
end

