-- ==== Sys2Proof/Tests/Slice0.lean ====
section
/-!
SUPPORT. Tests of the model. A test marked V<n>, P<n> or S<n> takes its expected result from that vector of
spec/95_test_vectors.md; the others from the rule their comment names. The last part has, for every obligation
with hypotheses, a `witness_` theorem: a concrete state and operands that meet all of them together. The open
parameters and the draws of the environment have no value (logs 4 and 12), so a clause that only a value of one
of them separates has no witness here, and no test expects one.
-/

namespace Sys2Proof.Tests

open Sys2Proof Sys2Proof.Machine

-- One theorem at a time: evaluated side by side they wait for one another, each in a thread of its own.
set_option Elab.async false

/-! ## Bytes of the vectors -/

/-- "HL4CNR  " as bytes. -/
def hl4cnr8 : Bytes 8 := ⟨[0x48#8, 0x4C#8, 0x34#8, 0x43#8, 0x4E#8, 0x52#8, 0x20#8, 0x20#8], rfl⟩

/-- "HL4CNR B", V20. -/
def rptB : Bytes 8 := ⟨[0x48#8, 0x4C#8, 0x34#8, 0x43#8, 0x4E#8, 0x52#8, 0x20#8, 0x42#8], rfl⟩

/-- "HL4CNR G", V20. -/
def rptG : Bytes 8 := ⟨[0x48#8, 0x4C#8, 0x34#8, 0x43#8, 0x4E#8, 0x52#8, 0x20#8, 0x47#8], rfl⟩

/-- "CQCQCQ  ", V20. -/
def cqcqcq : Bytes 8 := ⟨[0x43#8, 0x51#8, 0x43#8, 0x51#8, 0x43#8, 0x51#8, 0x20#8, 0x20#8], rfl⟩

/-- V20, the header packet. -/
def v20 : WirePacket := ⟨
  [0x44#8, 0x53#8, 0x56#8, 0x54#8, 0x10#8, 0x20#8, 0x00#8, 0x00#8, 0x00#8, 0x12#8, 0x34#8, 0x80#8,
   0x48#8, 0x4C#8, 0x34#8, 0x43#8, 0x4E#8, 0x52#8, 0x20#8, 0x42#8,
   0x48#8, 0x4C#8, 0x34#8, 0x43#8, 0x4E#8, 0x52#8, 0x20#8, 0x47#8,
   0x43#8, 0x51#8, 0x43#8, 0x51#8, 0x43#8, 0x51#8, 0x20#8, 0x20#8,
   0x48#8, 0x4C#8, 0x34#8, 0x43#8, 0x4E#8, 0x52#8, 0x20#8, 0x20#8,
   0x00#8, 0x00#8, 0x00#8, 0x00#8, 0x00#8, 0x00#8, 0x00#8, 0x00#8, 0x00#8, 0x00#8, 0x1A#8, 0x52#8], rfl⟩

/-- A packet with one byte replaced. -/
def setByte {n : Nat} (p : Bytes n) (k : Nat) (b : Byte) : Bytes n := ⟨p.toList.set k b, by simp⟩

/-- V22, a voice packet of stream 0x1234 with tag 0x00. -/
def v22 : WirePacket := ⟨
  [0x44#8, 0x53#8, 0x56#8, 0x54#8, 0x20#8, 0x20#8, 0x00#8, 0x00#8, 0x00#8, 0x12#8, 0x34#8, 0x00#8,
   0x01#8, 0x02#8, 0x03#8, 0x04#8, 0x05#8, 0x06#8, 0x07#8, 0x08#8, 0x09#8, 0x00#8, 0x00#8, 0x00#8] ++
  List.replicate 32 0x00#8, rfl⟩

/-- V23, a voice packet of stream 0x1234 with tag 0x54. -/
def v23 : WirePacket := ⟨
  [0x44#8, 0x53#8, 0x56#8, 0x54#8, 0x20#8, 0x20#8, 0x00#8, 0x00#8, 0x00#8, 0x12#8, 0x34#8, 0x54#8] ++
  List.replicate 44 0x00#8, rfl⟩

/-- The payload of V22. -/
def c1 : Bytes 9 := ⟨[0x01#8, 0x02#8, 0x03#8, 0x04#8, 0x05#8, 0x06#8, 0x07#8, 0x08#8, 0x09#8], rfl⟩

/-- Bytes 4 to 17 of the relay frames of vectors 2.8. -/
def li : Bytes 14 :=
  ⟨[0x51#8, 0xC9#8, 0xDC#8, 0x63#8, 0x64#8, 0x41#8, 0x57#8, 0x7B#8, 0x2A#8, 0x46#8, 0xF8#8, 0x00#8, 0x00#8, 0x05#8],
    rfl⟩

/-- The magic and link-info block of the relay frames. -/
def relayHead : List Byte := [0x4D#8, 0x31#8, 0x37#8, 0x20#8] ++ li.toList

/-- F0 of vectors 2.8. -/
def f0 : M17Frame := ⟨relayHead ++
  [0xBE#8, 0xEF#8, 0x00#8, 0x00#8, 0x00#8, 0x01#8, 0x02#8, 0x03#8, 0x04#8, 0x05#8, 0x06#8, 0x07#8, 0x08#8, 0x09#8,
   0x0A#8, 0x0B#8, 0x0C#8, 0x0D#8, 0x0E#8, 0x0F#8, 0xF1#8, 0x69#8], rfl⟩

/-- F1 of vectors 2.8. -/
def f1 : M17Frame := ⟨relayHead ++
  [0xBE#8, 0xEF#8, 0x00#8, 0x01#8, 0x10#8, 0x11#8, 0x12#8, 0x13#8, 0x14#8, 0x15#8, 0x16#8, 0x17#8, 0x18#8, 0x19#8,
   0x1A#8, 0x1B#8, 0x1C#8, 0x1D#8, 0x1E#8, 0x1F#8, 0xAB#8, 0x64#8], rfl⟩

/-- FL of vectors 2.8, the last frame of its stream. -/
def fl : M17Frame := ⟨relayHead ++
  [0xBE#8, 0xEF#8, 0x80#8, 0x02#8, 0x20#8, 0x21#8, 0x22#8, 0x23#8, 0x24#8, 0x25#8, 0x26#8, 0x27#8, 0x28#8, 0x29#8,
   0x2A#8, 0x2B#8, 0x2C#8, 0x2D#8, 0x2E#8, 0x2F#8, 0x4A#8, 0xFF#8], rfl⟩

/-- FX of vectors 2.8, a foreign stream. -/
def fx : M17Frame := ⟨relayHead ++ [0x11#8, 0x11#8, 0x00#8, 0x07#8] ++ List.replicate 16 0x00#8 ++ [0xD1#8, 0xD0#8], rfl⟩

/-- A period of silence. -/
def silent : Pcm := FixedList.fill 160 0#16

/-- The addresses A and B of vectors 2.7. -/
def addrA : NetAddr := ⟨0#1, 0xC0A8000A4268#48⟩
def addrB : NetAddr := ⟨0#1, 0xC0A8000B4268#48⟩

/-! ## States -/

/-- The gateway runs, and its last operation was at 1000. -/
def gwOn : State := { State.reset with gwRun := true, lastNow := 1000#64, cs := ⟨[0x3196705FF400#48, 0, 0, 0], rfl⟩ }

/-- As vectors 2.7, linking to A since 1000. -/
def linkingA : State :=
  { gwOn with link := ⟨.linking, true, addrA, 0x51C9DC636441#48, 0x41#8, 1000#64, 0#64⟩ }

/-- As vectors 2.7, linked to A, the last PING at 1000. -/
def linkedA : State :=
  { gwOn with link := ⟨.linked, true, addrA, 0x51C9DC636441#48, 0x41#8, 0#64, 1000#64⟩ }

/-- After V71 with `RELAY.t_last` = 1000: a session of stream 0xBEEF whose last frame was number 1. -/
def relaying : State := { gwOn with relay := ⟨true, 0xBEEF#16, 1000#64, li, 0x0001#16⟩ }

/-- A transmit session to the gateway destination, just started; `n` is the sequence count. -/
def transmitting (n : BitVec 5) (stop : Bool) : State :=
  { State.reset with
    run := ⟨true, true, true, true, false, false, false⟩
    tx := ⟨.gw, cqcqcq, 0x1234#16⟩
    seq := ⟨n, stop⟩
    hdrPending := true
    cfg := ⟨hl4cnr8, rptB, rptG⟩ }

/-- The same with the header already out. -/
def framing : State := { transmitting 0#5 false with hdrPending := false }

/-- A receive session of stream 0x1234. -/
def receiving : State :=
  { State.reset with run := ⟨false, false, false, false, true, true, true⟩, rx := ⟨true, 0x1234#16⟩ }

/-- The state a result answers, the given one where it stops. -/
def after (d : State) : Result → State
  | .next t => t
  | .fault _ => d
  | .refused _ => d

/-- One operation performed. -/
def did (i : Instr) (s : State) : State := after s (exec i s)

/-! ## Ill-formed terms are refused (WellFormed) -/

theorem test_wf_udp_rx_too_long : Instr.wf (.udpRx 0#64 0#1 0#48 (List.replicate 65536 0#8)) = false := by
  rw [Instr.wf, fitsLen, List.length_replicate]; rfl

theorem test_wf_local_rx_too_long : Instr.wf (.localRx 0#64 (List.replicate 65536 0#8)) = false := by
  rw [Instr.wf, fitsLen, List.length_replicate]; rfl

theorem test_wf_unknown_too_long : Instr.wf (.dgUnknown 0#64 addrA (List.replicate 65536 0#8)) = false := by
  rw [Instr.wf, fitsLen, List.length_replicate]; exact Bool.false_and _

theorem test_wf_unknown_listed_tag : Instr.wf (.dgUnknown 0#64 addrA tagAckn) = false := by decide

theorem test_wf_unknown_ping : Instr.wf (.dgUnknown 0#64 addrA (tagPing ++ List.replicate 6 0#8)) = false := by
  decide

theorem test_wf_unknown_of_frame_length : Instr.wf (.dgUnknown 0#64 addrA f0.toList) = false := by decide

theorem test_wf_push_wrong_element : Instr.wf (.qPush .cqTx (.tag 0#8)) = false := by decide

/-! ## Words of the spec's encodings decode to their operations (R96, R88 to R91, R95) -/

/-- P1. -/
theorem test_decode_reset : decode (.cmd [0x00#8]) = .ok .reset := rfl

/-- P1. -/
theorem test_decode_start_tx : decode (.cmd (0x01#8 :: 0x01#8 :: (cqcqcq.toList ++ [0x12#8, 0x34#8]))) =
    .ok (.startTx .gw cqcqcq 0x1234#16) := rfl

/-- P1. -/
theorem test_decode_stop_tx : decode (.cmd [0x02#8]) = .ok .stopTx := rfl

theorem test_decode_start_playback : decode (.cmd [0x03#8]) = .ok .startPlayback := rfl

/-- P2. -/
theorem test_decode_rx_packet : decode (.cmd (0x04#8 :: 0x00#8 :: v20.toList)) = .ok (.rxPacket .gw v20) := rfl

theorem test_decode_rx_packet_link : decode (.cmd (0x04#8 :: 0x01#8 :: v20.toList)) = .ok (.rxPacket .link v20) := rfl

/-- P1, P7. -/
theorem test_decode_devices : decode (.cmd [0x05#8]) = .ok .devOpen ∧ decode (.cmd [0x06#8]) = .ok .devClose :=
  ⟨rfl, rfl⟩

/-- P1. -/
theorem test_decode_cfg_wr : decode (.cmd (0x07#8 :: 0x01#8 :: rptB.toList)) = .ok (.cfgWr .rptA rptB) := rfl

/-- P1. -/
theorem test_decode_oq_pop : decode (.cmd [0x08#8, 0x01#8]) = .ok (.oqPop .gw) := rfl

/-- P5. -/
theorem test_decode_cs_enc :
    decode (.cmd [0x10#8, 0x03#8, 0x61#8, 0x62#8, 0x20#8, 0x20#8, 0x20#8, 0x20#8, 0x20#8, 0x20#8, 0x20#8]) =
    .ok (.csEnc 3 ⟨[0x61#8, 0x62#8, 0x20#8, 0x20#8, 0x20#8, 0x20#8, 0x20#8, 0x20#8, 0x20#8], rfl⟩) := rfl

/-- P5. -/
theorem test_decode_cs_load :
    decode (.cmd [0x11#8, 0x01#8, 0xEE#8, 0x6B#8, 0x28#8, 0x00#8, 0x00#8, 0x00#8]) =
    .ok (.csLoad 1 0xEE6B28000000#48) := rfl

/-- P5. -/
theorem test_decode_cs_reads :
    decode (.cmd [0x12#8, 0x01#8]) = .ok (.csDec 1) ∧ decode (.cmd [0x13#8, 0x01#8, 0x02#8]) = .ok (.csEq 1 2) :=
  ⟨rfl, rfl⟩

/-- V69c. -/
theorem test_decode_gw_init : decode (.cmd [0x20#8, 0x01#8, 0x00#8, 0x01#8]) = .ok (.gwInit true false true) := rfl

/-- P3. -/
theorem test_decode_link_req :
    decode (.cmd [0x21#8, 0x00#8, 0x00#8, 0x00#8, 0x00#8, 0x00#8, 0x00#8, 0x00#8, 0x00#8,
      0x51#8, 0xC9#8, 0xDC#8, 0x63#8, 0x64#8, 0x41#8, 0x41#8]) = .ok (.linkReq 0#64 0x51C9DC636441#48 0x41#8) := rfl

theorem test_decode_unlink_req :
    decode (.cmd [0x22#8, 0x00#8, 0x00#8, 0x00#8, 0x00#8, 0x00#8, 0x00#8, 0x17#8, 0x70#8]) =
    .ok (.unlinkReq 6000#64) := rfl

/-- A sample is two bytes, high byte first (R94). -/
theorem test_decode_cap_tick :
    (match decode (.cmd (0x30#8 :: 0x01#8 :: 0x12#8 :: 0x34#8 :: List.replicate 318 0#8)) with
      | .ok (.capTick st pcm) => decide (st = .ioerr ∧ pcm.toList = 0x1234#16 :: List.replicate 159 0#16)
      | _ => false) = true := by decide +kernel

/-- P3. -/
theorem test_decode_udp_rx :
    decode (.cmd [0x31#8, 0x00#8, 0x00#8, 0x00#8, 0x00#8, 0x00#8, 0x00#8, 0x00#8, 0x32#8, 0x00#8,
      0xC0#8, 0xA8#8, 0x00#8, 0x0B#8, 0x42#8, 0x68#8, 0x00#8, 0x04#8, 0x41#8, 0x43#8, 0x4B#8, 0x4E#8]) =
    .ok (.udpRx 50#64 0#1 0xC0A8000B4268#48 [0x41#8, 0x43#8, 0x4B#8, 0x4E#8]) := rfl

theorem test_decode_local_rx :
    decode (.cmd [0x32#8, 0x00#8, 0x00#8, 0x00#8, 0x00#8, 0x00#8, 0x00#8, 0x03#8, 0xE8#8, 0x00#8, 0x02#8,
      0xAA#8, 0xBB#8]) = .ok (.localRx 1000#64 [0xAA#8, 0xBB#8]) := rfl

/-- P3. -/
theorem test_decode_tick :
    decode (.cmd [0x33#8, 0x00#8, 0x00#8, 0x00#8, 0x00#8, 0x00#8, 0x00#8, 0x88#8, 0xB7#8]) =
    .ok (.tick 34999#64) := rfl

theorem test_decode_stage_grants :
    decode (.cmd [0x40#8]) = .ok .enciStep ∧ decode (.cmd [0x41#8]) = .ok .encoStep ∧
    decode (.cmd [0x42#8]) = .ok .frHdr ∧ decode (.cmd [0x43#8]) = .ok .frVoice ∧
    decode (.cmd [0x44#8]) = .ok .deciStep ∧ decode (.cmd [0x45#8]) = .ok .decoStep ∧
    decode (.cmd [0x46#8]) = .ok .playStep := ⟨rfl, rfl, rfl, rfl, rfl, rfl, rfl⟩

/-- V50, V51, V52. -/
theorem test_decode_datagrams_of_four :
    decodeDatagram 7#64 addrA [0x41#8, 0x43#8, 0x4B#8, 0x4E#8] = .ackn 7#64 addrA ∧
    decodeDatagram 7#64 addrA [0x4E#8, 0x41#8, 0x43#8, 0x4B#8] = .nack 7#64 addrA ∧
    decodeDatagram 7#64 addrA [0x44#8, 0x49#8, 0x53#8, 0x43#8] = .disc4 7#64 addrA := by decide

/-- V53, V54. -/
theorem test_decode_datagrams_of_ten :
    decodeDatagram 7#64 addrA [0x50#8, 0x49#8, 0x4E#8, 0x47#8, 0x51#8, 0xC9#8, 0xDC#8, 0x63#8, 0x64#8, 0x41#8] =
      .ping 7#64 addrA 0x51C9DC636441#48 ∧
    decodeDatagram 7#64 addrA [0x44#8, 0x49#8, 0x53#8, 0x43#8, 0x51#8, 0xC9#8, 0xDC#8, 0x63#8, 0x64#8, 0x41#8] =
      .disc10 7#64 addrA 0x51C9DC636441#48 := by decide

/-- V59. -/
theorem test_decode_datagram_of_forty : decodeDatagram 7#64 addrA f0.toList = .m17Rx 7#64 addrA f0 := by decide

/-- V55, V56. -/
theorem test_decode_datagrams_unlisted :
    decodeDatagram 7#64 addrA [0x50#8, 0x4F#8, 0x4E#8, 0x47#8, 0x51#8, 0xC9#8, 0xDC#8, 0x63#8, 0x64#8, 0x41#8] =
      .dgUnknown 7#64 addrA [0x50#8, 0x4F#8, 0x4E#8, 0x47#8, 0x51#8, 0xC9#8, 0xDC#8, 0x63#8, 0x64#8, 0x41#8] ∧
    decodeDatagram 7#64 addrA [0x41#8, 0x43#8, 0x4B#8, 0x58#8] =
      .dgUnknown 7#64 addrA [0x41#8, 0x43#8, 0x4B#8, 0x58#8] := by decide

/-- V57, V58. -/
theorem test_decode_datagrams_of_other_lengths :
    decodeDatagram 7#64 addrA [] = .dgUnknown 7#64 addrA [] ∧
    decodeDatagram 7#64 addrA v20.toList = .dgUnknown 7#64 addrA v20.toList ∧
    decodeDatagram 7#64 addrA (List.replicate 39 0#8) = .dgUnknown 7#64 addrA (List.replicate 39 0#8) ∧
    decodeDatagram 7#64 addrA (List.replicate 41 0#8) = .dgUnknown 7#64 addrA (List.replicate 41 0#8) := by decide

theorem test_decode_queue_ports :
    decode (.port .cqRx 0#2 none) = .ok (.qNop .cqRx) ∧
    decode (.port .sqTx 1#2 (some (.tag 0x14#8))) = .ok (.qPush .sqTx (.tag 0x14#8)) ∧
    decode (.port .cqRx 2#2 none) = .ok (.qPop .cqRx) ∧
    decode (.port .cqRx 3#2 none) = .ok (.qClr .cqRx) := ⟨rfl, rfl, rfl, rfl⟩

/-- V19c, R94, R97, and lengths that are not the operation's (log 10). -/
theorem test_decode_refuses :
    decode (.cmd []) = .error .empty ∧ decode (.cmd [0x47#8]) = .error (.reservedOpcode 0x47#8) ∧
    decode (.cmd (0x10#8 :: 0x04#8 :: List.replicate 9 0x20#8)) = .error (.illegalOperand "idx") ∧
    decode (.cmd [0x08#8]) = .error .truncated ∧ decode (.cmd [0x00#8, 0x00#8]) = .error .trailingBytes ∧
    decode (.port .sqTx 1#2 none) = .error .wrongElement := ⟨rfl, rfl, rfl, rfl, rfl, rfl⟩

/-- The encoder on P3's UDP_RX (R232). -/
theorem test_encode_ackn : encode (.ackn 50#64 addrB) =
    .cmd [0x31#8, 0x00#8, 0x00#8, 0x00#8, 0x00#8, 0x00#8, 0x00#8, 0x00#8, 0x32#8, 0x00#8,
      0xC0#8, 0xA8#8, 0x00#8, 0x0B#8, 0x42#8, 0x68#8, 0x00#8, 0x04#8, 0x41#8, 0x43#8, 0x4B#8, 0x4E#8] := by
  decide

/-- Words of the operation table (log 9). -/
theorem test_table_words :
    decodeTableWord 8 0x33 = some (.tick 0#64) ∧ decodeTableWord 8 0x46 = some .playStep ∧
    decodeTableWord 32 0x4E41434B = some (.nack 0#64 ⟨0#1, 0#48⟩) ∧
    decodeTableWord 80 0x44495343 = some (.disc10 0#64 ⟨0#1, 0#48⟩ 0#48) ∧
    decodeTableWord 2 2 = some (.qPop .aqTx) := by decide +kernel

/-! ## The operations, one step each -/

/-- R331. -/
theorem test_reset_clears : (did .reset receiving).rx = ⟨false, 0#16⟩ ∧ (did .reset linkedA).link.state = .unlinked := by
  decide

/-- V39c. -/
theorem test_start_tx :
    (did (.startTx .loop cqcqcq 1#16) { State.reset with queues := { noQueues with cqRx := [⟨c1, 0#8⟩] } }).queues =
      noQueues ∧
    (did (.startTx .link cqcqcq 1#16) State.reset).run.word = 0x0F := by decide

/-- V39. -/
theorem test_start_tx_refused : exec (.startTx .gw cqcqcq 1#16) receiving = .refused .startTxWhileRunning := rfl

/-- V31 (the stop request) and V35. -/
theorem test_stop_tx : (did .stopTx (transmitting 20#5 false)).seq = ⟨20#5, true⟩ ∧
    (did .stopTx State.reset).seq = ⟨0#5, false⟩ := by decide

/-- V39b. -/
theorem test_start_playback :
    (did .startPlayback { State.reset with queues := { noQueues with cqRx := [⟨c1, 0#8⟩] } }).run.word = 0x70 ∧
    (did .startPlayback { State.reset with queues := { noQueues with cqRx := [⟨c1, 0#8⟩] } }).queues.cqRx =
      [⟨c1, 0#8⟩] := by decide

/-- P7. -/
theorem test_devices : (did .devOpen State.reset).vocOpen = true ∧
    (did .devClose { State.reset with vocOpen := true }).vocOpen = false := by decide

/-- P1. -/
theorem test_cfg_wr : (did (.cfgWr .rptB rptG) State.reset).cfg =
    ⟨FixedList.fill 8 0x20#8, FixedList.fill 8 0x20#8, rptG⟩ := by decide

/-- V31's last frame: tag 54, the count back to 0, the stage stopped. -/
theorem test_cap_tick_end : (did (.capTick .ok silent) (transmitting 20#5 true)).queues.aqTx = [⟨silent, 0x54#8⟩] ∧
    (did (.capTick .ok silent) (transmitting 20#5 true)).seq = ⟨0#5, false⟩ ∧
    (did (.capTick .ok silent) (transmitting 20#5 true)).run.cap = false := by decide +kernel

/-- V34b. -/
theorem test_cap_tick_ioerr : (did (.capTick .ioerr silent) (transmitting 0#5 true)).seq = ⟨0#5, true⟩ ∧
    (did (.capTick .ioerr silent) (transmitting 0#5 true)).trace = [.log .devIo] := by decide +kernel

/-- V36. -/
theorem test_enci_closed :
    (did .enciStep { framing with hold := { noHolds with enci := some ⟨silent, 0x03#8⟩ } }).run.word = 0x0D ∧
    (did .enciStep { framing with hold := { noHolds with enci := some ⟨silent, 0x03#8⟩ } }).hold.enci = none ∧
    (did .enciStep { framing with hold := { noHolds with enci := some ⟨silent, 0x03#8⟩ } }).trace =
      [.log .notOpen] := by decide +kernel

/-- V36b. -/
theorem test_enco_closed :
    (did .encoStep { framing with queues := { noQueues with sqTx := [0x03#8] } }).queues.sqTx = [0x03#8] ∧
    (did .encoStep { framing with queues := { noQueues with sqTx := [0x03#8] } }).run.enco = false := by decide

/-- P1: the put of ENCO, here of a frame with the end marker. -/
theorem test_enco_put :
    (did .encoStep { framing with hold := { noHolds with enco := some ⟨c1, 0x42#8⟩ } }).queues.cqTx = [⟨c1, 0x42#8⟩] ∧
    (did .encoStep { framing with hold := { noHolds with enco := some ⟨c1, 0x42#8⟩ } }).run.enco = false := by decide

/-- P1 and V20: the header packet, byte for byte. -/
theorem test_fr_hdr : (did .frHdr (transmitting 0#5 false)).queues.oqGw = [v20] ∧
    (did .frHdr (transmitting 0#5 false)).hdrPending = false := by decide +kernel

/-- V22: the voice packet, byte for byte. -/
theorem test_fr_voice :
    (did .frVoice { framing with hold := { noHolds with fr := some ⟨c1, 0x00#8⟩ } }).queues.oqGw = [v22] ∧
    (did .frVoice { framing with hold := { noHolds with fr := some ⟨c1, 0x00#8⟩ } }).run.fr = true := by
  decide +kernel

/-- V29. -/
theorem test_fr_voice_waits_for_header :
    held .frVoice { transmitting 0#5 false with queues := { noQueues with cqTx := [⟨c1, 0#8⟩] } } = true ∧
    held .frHdr { transmitting 0#5 false with queues := { noQueues with cqTx := [⟨c1, 0#8⟩] } } = false := by decide

/-- P2: the take of DECI. -/
theorem test_deci_take :
    (did .deciStep { receiving with queues := { noQueues with cqRx := [⟨c1, 0#8⟩] } }).hold.deci = some ⟨c1, 0#8⟩ := by
  decide

/-- P2: the put of DECO, here of a frame with the end marker. -/
theorem test_deco_put :
    (did .decoStep { receiving with hold := { noHolds with deco := some ⟨silent, 0x41#8⟩ } }).queues.aqRx =
      [⟨silent, 0x41#8⟩] ∧
    (did .decoStep { receiving with hold := { noHolds with deco := some ⟨silent, 0x41#8⟩ } }).run.deco = false := by
  decide +kernel

/-- P2, under either status of the device: the frame is consumed, and the end marker stops the stage. -/
theorem test_play :
    (did .playStep { receiving with queues := { noQueues with aqRx := [⟨silent, 0x41#8⟩] } }).queues.aqRx = [] ∧
    (did .playStep { receiving with queues := { noQueues with aqRx := [⟨silent, 0x41#8⟩] } }).run.play = false := by
  generalize h : Config.playStatus 0 = st
  cases st <;> simp [did, exec, execPlayStep, playPhase, playFrame, receiving, noQueues, qPop, orHeld, after,
    State.reset, State.emit, State.nextDraw, State.log, h, endMark]

/-- V24. -/
theorem test_rx_header : (did (.rxPacket .gw v20) State.reset).rx = ⟨true, 0x1234#16⟩ ∧
    (did (.rxPacket .gw v20) State.reset).run.word = 0x70 := by decide +kernel

/-- V25, V25b: byte 15 is within the span, byte 14 is not. -/
theorem test_rx_header_damaged : (did (.rxPacket .gw (setByte v20 15 0x42#8)) State.reset).trace = [.log .crc] ∧
    (did (.rxPacket .gw (setByte v20 14 0x35#8)) State.reset).rx = ⟨true, 0x1234#16⟩ := by decide +kernel

/-- V26, V26b. -/
theorem test_rx_voice : (did (.rxPacket .gw v22) receiving).queues.cqRx = [⟨c1, 0x00#8⟩] ∧
    (did (.rxPacket .gw v23) receiving).rx = ⟨false, 0#16⟩ := by decide +kernel

/-- V27b, V28, V28b. -/
theorem test_rx_dropped : (did (.rxPacket .gw v22) State.reset).trace = [.log .sid] ∧
    (did (.rxPacket .gw (setByte v20 3 0x58#8)) receiving).trace = [.log .format] ∧
    (did (.rxPacket .gw (setByte v20 4 0x30#8)) receiving).trace = [.log .format] := by decide +kernel

/-- V45. -/
theorem test_oq_pop :
    (did (.oqPop .gw) { State.reset with queues := { noQueues with oqGw := [v20, v22] } }).queues.oqGw = [v22] ∧
    (did (.oqPop .gw) { State.reset with queues := { noQueues with oqGw := [v20, v22] } }).trace = [.oqData .gw v20] ∧
    held (.oqPop .link) { State.reset with queues := { noQueues with oqGw := [v20, v22] } } = true := by decide +kernel

/-- V40 and V41, on the port of `Q[2]`. -/
theorem test_q_pop :
    (did (.qPop .cqTx) { State.reset with queues := { noQueues with cqTx := [⟨c1, 0#8⟩, ⟨c1, 1#8⟩] } }).portOut =
      some (.cqTx, .comp ⟨c1, 0#8⟩) ∧ held (.qPop .cqTx) State.reset = true := by decide

/-- V40: a push on the empty `Q[2]`, then V43 on it. -/
theorem test_q_push_clr :
    (did (.qPush .cqTx (.comp ⟨c1, 0#8⟩)) State.reset).queues.cqTx = [⟨c1, 0#8⟩] ∧
    (did (.qClr .cqTx) { State.reset with queues := { noQueues with cqTx := [⟨c1, 0#8⟩] } }).queues = noQueues ∧
    did (.qNop .cqTx) receiving = receiving := by decide +kernel

/-- V1, V4, V5 and V6. -/
theorem test_crc : crc16x [] = 0#16 ∧ crc16x [0x41#8] = 0xA3F5#16 ∧
    crc16x [0x31#8, 0x32#8, 0x33#8, 0x34#8, 0x35#8, 0x36#8, 0x37#8, 0x38#8, 0x39#8] = 0x906E#16 ∧
    crc16x (List.replicate 39 0#8) = 0xAF90#16 := by decide +kernel

/-- V13, V14d, V15 and V16. -/
theorem test_cs_encode : csEncode [0x48#8, 0x4C#8, 0x34#8, 0x43#8, 0x4E#8, 0x52#8] = some 0x3196705FF400#48 ∧
    csEncode [0x41#8, 0x42#8, 0x43#8, 0x44#8, 0x45#8, 0x46#8, 0x47#8, 0x48#8, 0x49#8] = some 0x064521DF5909#48 ∧
    csEncode (List.replicate 8 0x20#8 ++ [0x41#8]) = some 1#48 ∧
    csEncode (List.replicate 9 0x2E#8) = some 0xEE6B27FFFFFF#48 := by decide +kernel

/-- V18. -/
theorem test_cs_enc_invalid :
    (did (.csEnc 2 ⟨[0x68#8, 0x6C#8, 0x34#8, 0x63#8, 0x6E#8, 0x72#8, 0x20#8, 0x20#8, 0x20#8], rfl⟩) gwOn).trace =
      [.log .csInvalid, .csResult 1#8 []] ∧
    (did (.csEnc 2 ⟨[0x68#8, 0x6C#8, 0x34#8, 0x63#8, 0x6E#8, 0x72#8, 0x20#8, 0x20#8, 0x20#8], rfl⟩) gwOn).cs =
      gwOn.cs := by decide +kernel

/-- V19's "AB". -/
theorem test_cs_enc :
    (did (.csEnc 1 ⟨[0x41#8, 0x42#8, 0x20#8, 0x20#8, 0x20#8, 0x20#8, 0x20#8, 0x20#8, 0x20#8], rfl⟩) gwOn).cs.toList =
      [0x3196705FF400#48, 0x06422C400000#48, 0#48, 0#48] := by decide +kernel

/-- V17 and V17c. -/
theorem test_cs_load : (did (.csLoad 1 0xEE6B28000000#48) gwOn).cs = gwOn.cs ∧
    (did (.csLoad 1 0xEE6B27FFFFFF#48) gwOn).csGet 1 = 0xEE6B27FFFFFF#48 := by decide +kernel

/-- V19b. -/
theorem test_cs_dec : (did (.csDec 0) gwOn).trace =
    [.csResult 0#8 [0x48#8, 0x4C#8, 0x34#8, 0x43#8, 0x4E#8, 0x52#8, 0x20#8, 0x20#8, 0x20#8]] := by decide +kernel

/-- P5's two comparisons. -/
theorem test_cs_eq : (did (.csEq 1 2) gwOn).trace = [.csResult 0#8 [1#8]] ∧
    (did (.csEq 0 1) gwOn).trace = [.csResult 0#8 [0#8]] := by decide +kernel

/-- V69c. -/
theorem test_gw_init : (did (.gwInit true false true) State.reset).trace = [.log .setup, .initResult true] ∧
    (did (.gwInit true false true) State.reset).gwRun = false ∧
    (did (.gwInit true true true) State.reset).gwRun = true := by decide

/-- V60c and V60d. -/
theorem test_link_req : (did (.linkReq 1000#64 0xFFFFFFFFFFFF#48 0x41#8) gwOn).trace = [.log .csInvalid] ∧
    (did (.linkReq 1000#64 0x51C9DC636441#48 0x41#8) linkedA).trace = [] := by decide +kernel

/-- V69. -/
theorem test_unlink_req : (did (.unlinkReq 6000#64) linkedA).trace =
      [.udpTx addrA [0x44#8, 0x49#8, 0x53#8, 0x43#8, 0x31#8, 0x96#8, 0x70#8, 0x5F#8, 0xF4#8, 0x00#8]] ∧
    (did (.unlinkReq 6000#64) linkedA).link.state = .linked := by decide +kernel

/-- V61. -/
theorem test_ackn : (did (.ackn 1120#64 addrA) linkingA).link.state = .linked ∧
    (did (.ackn 1120#64 addrA) linkingA).link.tPing = 1120#64 := by decide +kernel

/-- V61b and V61c: another address, and the same address bits on the other socket. -/
theorem test_ackn_foreign : (did (.ackn 1120#64 addrB) linkingA).trace = [.log .peer] ∧
    (did (.ackn 1120#64 ⟨1#1, addrA.addr⟩) linkingA).trace = [.log .peer] := by decide +kernel

/-- V62 and V65b. -/
theorem test_nack : (did (.nack 1120#64 addrA) linkingA).link.state = .unlinked ∧
    (did (.nack 1120#64 addrA) linkingA).trace = [] ∧
    (did (.nack 1120#64 addrA) linkedA).link = linkedA.link := by decide +kernel

/-- V63 and V65. -/
theorem test_disc4 : (did (.disc4 1120#64 addrA) linkingA).trace = [] ∧
    (did (.disc4 1120#64 addrA) linkedA).trace = [.routeRelease 0x51C9DC636441#48] := by decide +kernel

/-- V64 and V63b. -/
theorem test_ping : (did (.ping 5000#64 addrA 0#48) linkedA).trace =
      [.udpTx addrA [0x50#8, 0x4F#8, 0x4E#8, 0x47#8, 0x31#8, 0x96#8, 0x70#8, 0x5F#8, 0xF4#8, 0x00#8]] ∧
    (did (.ping 5000#64 addrA 0#48) linkedA).link.tPing = 5000#64 ∧
    (did (.ping 5000#64 addrA 0#48) linkingA).trace = [.log .peer] := by decide +kernel

/-- V65. -/
theorem test_disc10 : (did (.disc10 1120#64 addrA 0#48) linkedA).trace = [.routeRelease 0x51C9DC636441#48] ∧
    (did (.disc10 1120#64 addrA 0#48) linkedA).link.peerValid = false := by decide +kernel

/-- V66, 30000 ms after the last PING and 1 ms before. -/
theorem test_tick_ping : (did (.tick 30999#64) linkedA).link = linkedA.link ∧
    (did (.tick 31000#64) linkedA).trace = [.routeRelease 0x51C9DC636441#48] := by decide +kernel

/-- V74, 2000 ms after the last frame and 1 ms before. -/
theorem test_tick_relay : (did (.tick 2999#64) relaying).relay = relaying.relay ∧
    (did (.tick 3000#64) relaying).relay.active = false := by decide +kernel

/-- V66b: the handler runs before the timers. -/
theorem test_udp_rx_ping_in_time :
    (did (.udpRx 31000#64 addrA.sock addrA.addr (tagPing ++ List.replicate 6 0#8)) linkedA).link.tPing = 31000#64 ∧
    (did (.udpRx 31000#64 addrA.sock addrA.addr (tagPing ++ List.replicate 6 0#8)) linkedA).link.state = .linked := by
  decide +kernel

/-- V70. -/
theorem test_m17_first : (did (.m17Rx 1000#64 addrB f0) gwOn).relay = ⟨true, 0xBEEF#16, 1000#64, li, 0#16⟩ ∧
    (did (.m17Rx 1000#64 addrB f0) gwOn).trace = [.localTx f0.toList] := by decide +kernel

/-- V72, V73 (on F1) and V76. -/
theorem test_m17_checks : (did (.m17Rx 1060#64 addrB fx) relaying).trace = [.log .sid] ∧
    (did (.m17Rx 1060#64 addrB (setByte f1 39 0x65#8)) relaying).trace = [.log .crc] ∧
    (did (.m17Rx 4000#64 addrB fl) gwOn).relay.active = false := by decide +kernel

/-- V55, V57. -/
theorem test_dg_unknown : (did (.dgUnknown 1000#64 addrA tagPong) gwOn).trace = [.log .format] ∧
    (did (.dgUnknown 1000#64 addrA []) gwOn).trace = [.log .len] := by decide +kernel

/-- V6I. -/
theorem test_local_rx : (did (.localRx 1000#64 v20.toList) gwOn).trace = [.log .len] ∧
    (did (.localRx 1000#64 (v20.toList.take 40)) gwOn).trace = [.log .format] := by decide +kernel

/-- R102: the bytes of output events. -/
theorem test_event_bytes : (Event.log .csInvalid).bytes = [0x80#8, 0x09#8] ∧
    (Event.udpTx addrA [0xAA#8]).bytes =
      [0x86#8, 0x00#8, 0xC0#8, 0xA8#8, 0x00#8, 0x0A#8, 0x42#8, 0x68#8, 0x00#8, 0x01#8, 0xAA#8] := by decide

/-- R46: `STAGE.run`, `RX` and `ERRSTAT` on the status port. -/
theorem test_status_port : statusRead receiving 0x15#8 = some ⟨some 7, 0x70⟩ ∧
    statusRead receiving 0x17#8 = some ⟨some 17, 0x11234⟩ ∧ statusRead receiving 0x03#8 = none := by decide

/-- R13: a held `OQ_POP` stays presented and lets `DEV_OPEN` through. -/
theorem test_step_passes_held :
    (after State.reset (step { State.reset with pending := [.cmd [0x08#8, 0x01#8], .cmd [0x05#8]] })).pending =
      [.cmd [0x08#8, 0x01#8]] := by decide

/-- The host's word reaches the operation it names (log 9). -/
theorem test_step_runs_the_fetch_word :
    (after State.reset (step (State.reset.withFetchWord 8 0x05))).vocOpen = true := by decide +kernel


/-! ## Witnesses: states and operands that meet the hypotheses of the obligations, clause by clause -/

/-- A frame that bears the end marker, and one that does not. -/
def lastAudio : AudioFrame := ⟨silent, 0x54#8⟩
def someAudio : AudioFrame := ⟨silent, 0x14#8⟩

/-- `StartTxOpensATransmitSessionOrIsRefused`: run bits all 0; one run bit 1; the least illegal `dest`. -/
theorem witness_start_tx : State.reset.run = ⟨false, false, false, false, false, false, false⟩ ∧
    (∃ s : State, s.run = ⟨false, false, false, false, false, false, true⟩) ∧
    (⟨false, false, false, false, false, false, true⟩ : RunBits) ≠ ⟨false, false, false, false, false, false, false⟩ ∧
    2 < (3#8 : Byte).toNat :=
  ⟨rfl, ⟨{ State.reset with run := ⟨false, false, false, false, false, false, true⟩ }, rfl⟩, by decide, by decide⟩

/-- `StopTxRequestsTheEndOfARunningCapture`. -/
theorem witness_stop_tx : (transmitting 20#5 false).run.cap = true ∧ State.reset.run.cap = false := by decide

/-- `StartPlaybackStartsTheReceiveStagesOrIsRefused`. -/
theorem witness_start_playback : State.reset.run = ⟨false, false, false, false, false, false, false⟩ ∧
    (transmitting 0#5 false).run ≠ ⟨false, false, false, false, false, false, false⟩ := by decide

/-- `ConfigurationWriteReachesItsRegisterAlone`: the least illegal register number, and the greatest. -/
theorem witness_cfg_wr : 2 < (3#8 : Byte).toNat ∧ 2 < (0xFF#8 : Byte).toNat := by decide

/-- `CaptureTickNumbersAndMarksItsFrame`: the stage stopped; running at the last value of the cycle, its queue
empty. -/
theorem witness_capture_tick : State.reset.run.cap = false ∧ (transmitting 20#5 true).run.cap = true ∧
    qFull .aqTx (transmitting 20#5 true).queues.aqTx = false := ⟨rfl, rfl, rfl⟩

/-- `SequenceValuesCycleAndOnlyTheLastFrameIsMarked`. -/
theorem witness_sequence : (transmitting 0#5 false).run.cap = true ∧ (transmitting 0#5 false).seq = ⟨0#5, false⟩ := by
  decide

/-- `EnciStepTakesPutsOrIsHeld`: take; put with the vocoder closed; put with it open; held with the queue
empty. -/
theorem witness_enci :
    (∃ s : State, s.run.enci = true ∧ s.hold.enci = none ∧ s.queues.aqTx = lastAudio :: []) ∧
    (∃ s : State, s.run.enci = true ∧ s.hold.enci = some lastAudio ∧ s.vocOpen = false) ∧
    (∃ s : State, s.run.enci = true ∧ s.hold.enci = some lastAudio ∧ s.vocOpen = true ∧
      qFull .sqTx s.queues.sqTx = false) ∧
    ¬ (framing.run.enci = true ∧ (framing.hold.enci = none ∧ framing.queues.aqTx ≠ [] ∨
      framing.hold.enci ≠ none ∧ (framing.vocOpen = false ∨ qFull .sqTx framing.queues.sqTx = false))) := by
  refine ⟨⟨{ framing with queues := { noQueues with aqTx := [lastAudio] } }, rfl, rfl, rfl⟩,
    ⟨{ framing with hold := { noHolds with enci := some lastAudio } }, rfl, rfl, rfl⟩,
    ⟨{ framing with hold := { noHolds with enci := some lastAudio }, vocOpen := true }, rfl, rfl, rfl, rfl⟩, ?_⟩
  rintro ⟨-, ⟨-, h⟩ | ⟨h, -⟩⟩ <;> exact h rfl

/-- `EncoStepTakesPutsOrIsHeld`: take with the vocoder closed and open; put; held with the stage stopped. -/
theorem witness_enco :
    (∃ s : State, s.run.enco = true ∧ s.hold.enco = none ∧ s.queues.sqTx = 0x54#8 :: [] ∧ s.vocOpen = false) ∧
    (∃ s : State, s.run.enco = true ∧ s.hold.enco = none ∧ s.queues.sqTx = 0x54#8 :: [] ∧ s.vocOpen = true) ∧
    (∃ s : State, s.run.enco = true ∧ s.hold.enco = some ⟨c1, 0x54#8⟩ ∧ qFull .cqTx s.queues.cqTx = false) ∧
    ¬ (State.reset.run.enco = true ∧ (State.reset.hold.enco = none ∧ State.reset.queues.sqTx ≠ [] ∨
      State.reset.hold.enco ≠ none ∧ qFull .cqTx State.reset.queues.cqTx = false)) :=
  ⟨⟨{ framing with queues := { noQueues with sqTx := [0x54#8] } }, rfl, rfl, rfl, rfl⟩,
    ⟨{ framing with queues := { noQueues with sqTx := [0x54#8] }, vocOpen := true }, rfl, rfl, rfl, rfl⟩,
    ⟨{ framing with hold := { noHolds with enco := some ⟨c1, 0x54#8⟩ } }, rfl, rfl, rfl⟩,
    fun h => Bool.false_ne_true h.1⟩

/-- `DeciStepTakesPutsOrIsHeld`: take; put with the vocoder closed; put with it open; held with the stage
stopped. -/
theorem witness_deci :
    (∃ s : State, s.run.deci = true ∧ s.hold.deci = none ∧ s.queues.cqRx = ⟨c1, 0x54#8⟩ :: []) ∧
    (∃ s : State, s.run.deci = true ∧ s.hold.deci = some ⟨c1, 0x54#8⟩ ∧ s.vocOpen = false) ∧
    (∃ s : State, s.run.deci = true ∧ s.hold.deci = some ⟨c1, 0x54#8⟩ ∧ s.vocOpen = true ∧
      qFull .sqRx s.queues.sqRx = false) ∧
    ¬ (State.reset.run.deci = true ∧ (State.reset.hold.deci = none ∧ State.reset.queues.cqRx ≠ [] ∨
      State.reset.hold.deci ≠ none ∧ (State.reset.vocOpen = false ∨ qFull .sqRx State.reset.queues.sqRx = false))) :=
  ⟨⟨{ receiving with queues := { noQueues with cqRx := [⟨c1, 0x54#8⟩] } }, rfl, rfl, rfl⟩,
    ⟨{ receiving with hold := { noHolds with deci := some ⟨c1, 0x54#8⟩ } }, rfl, rfl, rfl⟩,
    ⟨{ receiving with hold := { noHolds with deci := some ⟨c1, 0x54#8⟩ }, vocOpen := true }, rfl, rfl, rfl, rfl⟩,
    fun h => Bool.false_ne_true h.1⟩

/-- `DecoStepTakesPutsOrIsHeld`. -/
theorem witness_deco :
    (∃ s : State, s.run.deco = true ∧ s.hold.deco = none ∧ s.queues.sqRx = 0x54#8 :: [] ∧ s.vocOpen = false) ∧
    (∃ s : State, s.run.deco = true ∧ s.hold.deco = none ∧ s.queues.sqRx = 0x54#8 :: [] ∧ s.vocOpen = true) ∧
    (∃ s : State, s.run.deco = true ∧ s.hold.deco = some lastAudio ∧ qFull .aqRx s.queues.aqRx = false) ∧
    ¬ (State.reset.run.deco = true ∧ (State.reset.hold.deco = none ∧ State.reset.queues.sqRx ≠ [] ∨
      State.reset.hold.deco ≠ none ∧ qFull .aqRx State.reset.queues.aqRx = false)) :=
  ⟨⟨{ receiving with queues := { noQueues with sqRx := [0x54#8] } }, rfl, rfl, rfl, rfl⟩,
    ⟨{ receiving with queues := { noQueues with sqRx := [0x54#8] }, vocOpen := true }, rfl, rfl, rfl, rfl⟩,
    ⟨{ receiving with hold := { noHolds with deco := some lastAudio } }, rfl, rfl, rfl⟩,
    fun h => Bool.false_ne_true h.1⟩

/-- `PlayStepPutsTheOldestFrameOrIsHeld`: a frame to play; the stage stopped; the queue empty. -/
theorem witness_play : (∃ s : State, s.run.play = true ∧ s.queues.aqRx = lastAudio :: []) ∧
    State.reset.run.play = false ∧ receiving.queues.aqRx = [] :=
  ⟨⟨{ receiving with queues := { noQueues with aqRx := [lastAudio] } }, rfl, rfl⟩, rfl, rfl⟩

/-- `TransmitStagesKeepEveryTagInOrder`: each of the four operations completes; here with a frame to move, and
for ENCI with one that is dropped. -/
theorem witness_transmit_stages :
    (∃ t, exec .enciStep { framing with hold := { noHolds with enci := some lastAudio } } = .next t) ∧
    (∃ t, exec .encoStep { framing with hold := { noHolds with enco := some ⟨c1, 0x54#8⟩ } } = .next t) ∧
    (∃ t, exec .frHdr (transmitting 0#5 false) = .next t) ∧
    (∃ t, exec .frVoice { framing with hold := { noHolds with fr := some ⟨c1, 0x54#8⟩ } } = .next t) :=
  ⟨⟨_, rfl⟩, ⟨_, rfl⟩, ⟨_, rfl⟩, ⟨_, rfl⟩⟩

/-- `ReceiveStagesKeepEveryTagInOrder`. -/
theorem witness_receive_stages :
    (∃ t, exec .deciStep { receiving with hold := { noHolds with deci := some ⟨c1, 0x54#8⟩ } } = .next t) ∧
    (∃ t, exec .decoStep { receiving with hold := { noHolds with deco := some lastAudio } } = .next t) ∧
    (∃ t, exec .playStep { receiving with queues := { noQueues with aqRx := [lastAudio] } } = .next t) :=
  ⟨⟨_, rfl⟩, ⟨_, rfl⟩, ⟨_, rfl⟩⟩

/-- `StagesStopOnlyOnTheEndMarkerOrAClosedVocoder`: a step in which each run bit goes from 1 to 0. -/
theorem witness_stages_stop :
    ((transmitting 0#5 true).run.cap = true ∧ (did (.capTick .ok silent) (transmitting 0#5 true)).run.cap = false) ∧
    (framing.run.enci = true ∧
      (did .enciStep { framing with hold := { noHolds with enci := some someAudio } }).run.enci = false) ∧
    (framing.run.enco = true ∧
      (did .encoStep { framing with hold := { noHolds with enco := some ⟨c1, 0x40#8⟩ } }).run.enco = false) ∧
    (framing.run.fr = true ∧
      (did .frVoice { framing with hold := { noHolds with fr := some ⟨c1, 0x40#8⟩ } }).run.fr = false) ∧
    (receiving.run.deci = true ∧
      (did .deciStep { receiving with hold := { noHolds with deci := some ⟨c1, 0x14#8⟩ } }).run.deci = false) ∧
    (receiving.run.deco = true ∧
      (did .decoStep { receiving with hold := { noHolds with deco := some lastAudio } }).run.deco = false) ∧
    (receiving.run.play = true ∧
      (did .playStep { receiving with queues := { noQueues with aqRx := [lastAudio] } }).run.play = false) :=
  ⟨⟨rfl, rfl⟩, ⟨rfl, rfl⟩, ⟨rfl, rfl⟩, ⟨rfl, rfl⟩, ⟨rfl, rfl⟩, ⟨rfl, rfl⟩, ⟨rfl, test_play.2⟩⟩

/-- `AClosedVocoderStopsOnlyTheStageThatTouchedIt`: each of the four stages with a frame; and a step after which
every stage has stopped. -/
theorem witness_closed_vocoder :
    (∃ s : State, s.vocOpen = false ∧ s.run.enci = true ∧ s.hold.enci = some someAudio) ∧
    (∃ s : State, s.vocOpen = false ∧ s.run.enco = true ∧ s.hold.enco = none ∧ s.queues.sqTx = 0x14#8 :: []) ∧
    (∃ s : State, s.vocOpen = false ∧ s.run.deci = true ∧ s.hold.deci = some ⟨c1, 0x14#8⟩) ∧
    (∃ s : State, s.vocOpen = false ∧ s.run.deco = true ∧ s.hold.deco = none ∧ s.queues.sqRx = 0x14#8 :: []) ∧
    (∃ s t : State, s.vocOpen = false ∧ exec .enciStep s = .next t ∧
      t.run = ⟨false, false, false, false, false, false, false⟩) :=
  ⟨⟨{ framing with hold := { noHolds with enci := some someAudio } }, rfl, rfl, rfl⟩,
    ⟨{ framing with queues := { noQueues with sqTx := [0x14#8] } }, rfl, rfl, rfl, rfl⟩,
    ⟨{ receiving with hold := { noHolds with deci := some ⟨c1, 0x14#8⟩ } }, rfl, rfl, rfl⟩,
    ⟨{ receiving with queues := { noQueues with sqRx := [0x14#8] } }, rfl, rfl, rfl, rfl⟩,
    ⟨{ State.reset with
        run := ⟨false, true, false, false, false, false, false⟩
        hold := { noHolds with enci := some someAudio } }, _, rfl, rfl, rfl⟩⟩

/-- `QueuePrimitivesAreThoseOfTheArbiter`: an element of a queue. Which depths are finite is open (log 12). -/
theorem witness_queue_primitives :
    Elem.audio lastAudio ∈ ({ noQueues with aqRx := [lastAudio] } : Queues).elems .aqRx := by decide +kernel

/-- `QueuePortOperationsActOnTheirQueueAlone`: a push that fits an empty queue; a pop of a queue with an element,
and of an empty one; another queue. -/
theorem witness_queue_ports :
    (Elem.fits .aqRx (.audio lastAudio) = true ∧ qFull .aqRx (State.reset.queues.elems .aqRx) = false) ∧
    (∃ s : State, s.queues.elems .aqRx = .audio lastAudio :: []) ∧
    State.reset.queues.elems .aqRx = [] ∧ QueueId.aqTx ≠ .aqRx :=
  ⟨⟨rfl, rfl⟩, ⟨{ State.reset with queues := { noQueues with aqRx := [lastAudio] } }, rfl⟩, rfl, by decide⟩

/-- `OutboundPopDeliversTheOldestPacket`: a packet; an empty queue; the least illegal `dest`. -/
theorem witness_oq_pop : (∃ s : State, s.queues.oq .link = v20 :: []) ∧ State.reset.queues.oq .loop = [] ∧
    2 < (3#8 : Byte).toNat ∧ QueueId.oqGw ≠ oqId .link :=
  ⟨⟨{ State.reset with queues := { noQueues with oqLink := [v20] } }, rfl⟩, rfl, by decide, by decide⟩

/-- `CrcDetectsEverySingleBitFlip`. -/
theorem witness_crc_bit : (7 : Nat) < 8 := by decide

/-- `HeaderStepPushesTheHeaderOnce`: enabled, and held because the header is out. -/
theorem witness_header_step :
    ((transmitting 0#5 false).run.fr = true ∧ (transmitting 0#5 false).hdrPending = true ∧
      qFull (oqId (transmitting 0#5 false).tx.dest)
        ((transmitting 0#5 false).queues.oq (transmitting 0#5 false).tx.dest) = false) ∧
    ¬ (framing.run.fr = true ∧ framing.hdrPending = true ∧
      qFull (oqId framing.tx.dest) (framing.queues.oq framing.tx.dest) = false) :=
  ⟨⟨rfl, rfl, rfl⟩, fun h => Bool.false_ne_true h.2.1⟩

/-- `VoiceStepTakesPutsOrIsHeld`: take; put; held because the header is not out yet. -/
theorem witness_voice_step :
    (∃ s : State, s.run.fr = true ∧ s.hdrPending = false ∧ s.hold.fr = none ∧ s.queues.cqTx = ⟨c1, 0#8⟩ :: []) ∧
    (∃ s : State, s.run.fr = true ∧ s.hold.fr = some ⟨c1, 0x54#8⟩ ∧
      qFull (oqId s.tx.dest) (s.queues.oq s.tx.dest) = false) ∧
    ¬ ((transmitting 0#5 false).run.fr = true ∧
      ((transmitting 0#5 false).hold.fr = none ∧ (transmitting 0#5 false).hdrPending = false ∧
          (transmitting 0#5 false).queues.cqTx ≠ [] ∨
       (transmitting 0#5 false).hold.fr ≠ none ∧
        qFull (oqId (transmitting 0#5 false).tx.dest)
          ((transmitting 0#5 false).queues.oq (transmitting 0#5 false).tx.dest) = false)) := by
  refine ⟨⟨{ framing with queues := { noQueues with cqTx := [⟨c1, 0#8⟩] } }, rfl, rfl, rfl, rfl⟩,
    ⟨{ framing with hold := { noHolds with fr := some ⟨c1, 0x54#8⟩ } }, rfl, rfl, rfl⟩, ?_⟩
  rintro ⟨-, ⟨-, h, -⟩ | ⟨h, -⟩⟩
  · cases h
  · exact h rfl

/-- `ReceivedHeaderStartsOrRefreshesASession`: the wrong magic; the wrong `config`; a damaged header; a good
one. -/
theorem witness_received_header :
    (setByte v20 3 0x58#8).toList.take 4 ≠ [0x44#8, 0x53#8, 0x56#8, 0x54#8] ∧
    ((setByte v20 4 0x11#8).toList.getD 4 0#8 ≠ 0x10#8 ∧ (setByte v20 4 0x11#8).toList.getD 4 0#8 ≠ 0x20#8) ∧
    ((setByte v20 15 0x42#8).toList.take 4 = [0x44#8, 0x53#8, 0x56#8, 0x54#8] ∧
      (setByte v20 15 0x42#8).toList.getD 4 0#8 = 0x10#8 ∧
      (setByte v20 15 0x42#8).toList.getD 55 0#8 ++ (setByte v20 15 0x42#8).toList.getD 54 0#8 ≠
        crc16x (((setByte v20 15 0x42#8).toList.drop 15).take 39)) ∧
    (v20.toList.take 4 = [0x44#8, 0x53#8, 0x56#8, 0x54#8] ∧ v20.toList.getD 4 0#8 = 0x10#8 ∧
      v20.toList.getD 55 0#8 ++ v20.toList.getD 54 0#8 = crc16x ((v20.toList.drop 15).take 39)) := by decide +kernel

/-- `ReceivedVoiceIsEnqueuedOrDropped`: no session; a foreign stream id; the session's own. -/
theorem witness_received_voice :
    (v22.toList.take 4 = [0x44#8, 0x53#8, 0x56#8, 0x54#8] ∧ v22.toList.getD 4 0#8 = 0x20#8) ∧
    State.reset.rx.active = false ∧
    (setByte v22 9 0x43#8).toList.getD 9 0#8 ++ (setByte v22 9 0x43#8).toList.getD 10 0#8 ≠ receiving.rx.sid ∧
    (receiving.rx.active = true ∧ v22.toList.getD 9 0#8 ++ v22.toList.getD 10 0#8 = receiving.rx.sid) := by
  decide +kernel

/-- `PacketsBuiltAreReceivedUnchanged`. -/
theorem witness_packets_built : State.reset.rx.active = false ∧ receiving.rx.active = true ∧
    qFull .cqRx receiving.queues.cqRx = false := ⟨rfl, rfl, rfl⟩

/-- `CallsignCodecRoundTripsAndIsInjective`: a string of 9 characters, among them the last of the alphabet; a code
of two equal strings; the codes on either side of `CS_MAX`. -/
theorem witness_codec :
    ((List.replicate 9 0x2E#8 : List Byte).length ≤ 9 ∧ ∀ c ∈ (List.replicate 9 0x2E#8 : List Byte), c ∈ csAlphabet) ∧
    csEncode (FixedList.fill 9 0x2E#8 : Bytes 9).toList = some 0xEE6B27FFFFFF#48 ∧
    (0xEE6B27FFFFFF#48 : Code) ≤ 0xEE6B27FFFFFF#48 ∧ (0xEE6B27FFFFFF#48 : Code) < 0xEE6B28000000#48 := by
  decide +kernel

/-- `CodecLoadsWriteOneRegisterOrNone`: a valid and an invalid string; the codes on either side of `CS_MAX`; the
least illegal index. -/
theorem witness_codec_loads :
    (∀ c ∈ (FixedList.fill 9 0x2E#8 : Bytes 9).toList, c ∈ csAlphabet) ∧
    (∃ c ∈ (FixedList.fill 9 0x5F#8 : Bytes 9).toList, c ∉ csAlphabet) ∧
    (0xEE6B27FFFFFF#48 : Code) ≤ 0xEE6B27FFFFFF#48 ∧ (0xEE6B27FFFFFF#48 : Code) < 0xEE6B28000000#48 ∧
    4 ≤ (4#8 : Byte).toNat := by decide +kernel

/-- `CodecReadsReportWithoutWriting`: a register at `CS_MAX`; the indices on either side of the limit. -/
theorem witness_codec_reads :
    { State.reset with cs := ⟨[0, 0, 0, 0xEE6B27FFFFFF#48], rfl⟩ }.csGet 3 ≤ 0xEE6B27FFFFFF#48 ∧
    4 ≤ (4#8 : Byte).toNat ∧ (3#8 : Byte).toNat < 4 := by decide

/-- `GatewayInitStartsTheEngineOrReportsFailure`: engine off and on; all resources, and all but one. -/
theorem witness_gw_init : State.reset.gwRun = false ∧ gwOn.gwRun = true ∧
    (true = true ∧ true = true ∧ true = true) ∧ (true = false ∨ true = false ∨ false = false) := by decide

/-- `GatewayOperationsRunTheirHandlerThenTheTimers`, at the time of the last operation. -/
theorem witness_gateway_operations : gwOn.gwRun = true ∧ gwOn.lastNow ≤ 1000#64 := by decide

/-- `GatewayOperationsAreRefusedBeforeInitAndOnDecreasingTime`: the engine off; a time 1 ms too early. -/
theorem witness_gateway_refused : State.reset.gwRun = false ∧ (999#64 : Time) < gwOn.lastNow ∧
    ¬ (gwOn.gwRun = false) := by decide

/-- `UdpReceiveRunsTheRowItsDatagramDecodesTo`. -/
theorem witness_udp_rx : ∃ t, exec (decodeDatagram 1000#64 addrA tagAckn) linkingA = .next t := ⟨_, rfl⟩

/-- `LinkRequestSendsConnAndStartsLinking`: unlinked with `CS_MAX` and the code above it; linking. Which codes
have a route is open (log 12). -/
theorem witness_link_request : (gwOn.gwRun = true ∧ gwOn.lastNow ≤ 1000#64 ∧ gwOn.link.state = .unlinked) ∧
    (0xEE6B27FFFFFF#48 : Code) ≤ 0xEE6B27FFFFFF#48 ∧ (0xEE6B27FFFFFF#48 : Code) < 0xEE6B28000000#48 ∧
    (linkingA.gwRun = true ∧ linkingA.lastNow ≤ 1000#64 ∧ linkingA.link.state ≠ .unlinked) := by decide

/-- `UnlinkRequestSendsDiscToThePeer`: with and without a peer. -/
theorem witness_unlink_request :
    (linkedA.gwRun = true ∧ linkedA.lastNow ≤ 1000#64 ∧ linkedA.link.peerValid = true) ∧
    (gwOn.gwRun = true ∧ gwOn.lastNow ≤ 1000#64 ∧ gwOn.link.peerValid = false) := by decide

/-- `ControlDatagramsFromThePeerMoveTheLink`: linking, and linked. -/
theorem witness_control_datagrams :
    (linkingA.gwRun = true ∧ linkingA.lastNow ≤ 1000#64 ∧ linkingA.link.peerValid = true ∧
      linkingA.link.state = .linking) ∧
    (linkedA.gwRun = true ∧ linkedA.lastNow ≤ 1000#64 ∧ linkedA.link.peerValid = true ∧
      linkedA.link.state = .linked) := by decide

/-- `KeepaliveDatagramsFromThePeerAreAnswered`. -/
theorem witness_keepalive : linkedA.gwRun = true ∧ linkedA.lastNow ≤ 1000#64 ∧ linkedA.link.peerValid = true ∧
    linkedA.link.state = .linked := by decide

/-- `InvalidControlDatagramsAreLoggedAndChangeNothing`: from another socket; a 10-byte one while linking. -/
theorem witness_invalid_datagrams : (linkingA.gwRun = true ∧ linkingA.lastNow ≤ 1000#64) ∧
    ¬ ((linkingA.link.state = .linking ∨ linkingA.link.state = .linked) ∧ linkingA.link.peerValid = true ∧
      (⟨1#1, addrA.addr⟩ : NetAddr) = linkingA.link.peer) ∧
    ¬ (linkingA.link.state = .linked ∧ linkingA.link.peerValid = true ∧ addrA = linkingA.link.peer) := by decide

/-- `UnknownDatagramsAreLoggedAndDiscarded`: the three ways of being unknown. -/
theorem witness_unknown_datagrams : (gwOn.gwRun = true ∧ gwOn.lastNow ≤ 1000#64) ∧
    isUnknownDatagram tagPong = true ∧ isUnknownDatagram (tagPong ++ List.replicate 6 0#8) = true ∧
    isUnknownDatagram [] = true := by decide

/-- `TickExpiresEachTimerAtItsLimit`: the keepalive and the relay timer exactly at their limits, and 1 ms
before; the first timer's limit is open (log 12). -/
theorem witness_tick :
    (linkedA.gwRun = true ∧ linkedA.lastNow ≤ 31000#64 ∧ linkedA.link.state = .linked ∧
      30000 ≤ ((31000#64 : Time) - linkedA.link.tPing).toNat ∧
      ¬ 30000 ≤ ((30999#64 : Time) - linkedA.link.tPing).toNat) ∧
    (relaying.gwRun = true ∧ relaying.lastNow ≤ 3000#64 ∧ relaying.relay.active = true ∧
      2000 ≤ ((3000#64 : Time) - relaying.relay.tLast).toNat ∧
      ¬ 2000 ≤ ((2999#64 : Time) - relaying.relay.tLast).toNat) := by decide

/-- `LocalFramesAreRoutedByTheFirstCaseThatApplies`: a wrong length; a wrong magic; a frame. -/
theorem witness_local_frames : (gwOn.gwRun = true ∧ gwOn.lastNow ≤ 1000#64) ∧
    (f0.toList.take 39).length ≠ 40 ∧
    ((v20.toList.take 40).length = 40 ∧ (v20.toList.take 40).take 4 ≠ [0x4D#8, 0x31#8, 0x37#8, 0x20#8]) ∧
    (∃ f : M17Frame, f.toList = f0.toList ∧ f0.toList.take 4 = [0x4D#8, 0x31#8, 0x37#8, 0x20#8]) :=
  ⟨by decide, by decide, by decide, f0, rfl, by decide⟩

/-- `LinkRequestThenAnswerDecidesTheLink`: all at one time, with the greatest code. -/
theorem witness_link_law : gwOn.gwRun = true ∧ gwOn.lastNow ≤ 1000#64 ∧ (1000#64 : Time) ≤ 1000#64 ∧
    (1000#64 : Time) ≤ 31000#64 ∧ gwOn.link.state = .unlinked ∧ gwOn.relay.active = false ∧
    (0xEE6B27FFFFFF#48 : Code) ≤ 0xEE6B27FFFFFF#48 := by decide

/-- `RelayedFramesAreCheckedAndForwarded`: the wrong magic; the wrong CRC; good frames of the session and of
another. -/
theorem witness_relayed_frames : (relaying.gwRun = true ∧ relaying.lastNow ≤ 1000#64) ∧
    (setByte f0 3 0x21#8).toList.take 4 ≠ [0x4D#8, 0x31#8, 0x37#8, 0x20#8] ∧
    ((setByte f0 39 0x68#8).toList.take 4 = [0x4D#8, 0x31#8, 0x37#8, 0x20#8] ∧
      (setByte f0 39 0x68#8).toList.getD 39 0#8 ++ (setByte f0 39 0x68#8).toList.getD 38 0#8 ≠
        crc16x ((setByte f0 39 0x68#8).toList.take 38)) ∧
    (f0.toList.take 4 = [0x4D#8, 0x31#8, 0x37#8, 0x20#8] ∧
      f0.toList.getD 39 0#8 ++ f0.toList.getD 38 0#8 = crc16x (f0.toList.take 38)) ∧
    (fx.toList.getD 39 0#8 ++ fx.toList.getD 38 0#8 = crc16x (fx.toList.take 38) ∧
      fx.toList.getD 18 0#8 ++ fx.toList.getD 19 0#8 ≠ relaying.relay.sid) := by decide +kernel

/-- `SilentRelaySessionEndsWithExactlyOneClosingFrame`: at V74's times, the limit and either side of it, a foreign
frame, a local message and a `TICK`; and a run that ends before the limit. -/
theorem witness_silent_relay : relaying.gwRun = true ∧ relaying.relay.active = true ∧
    relaying.relay.tLast ≤ relaying.lastNow ∧
    [.udpRx 2999#64 0#1 0#48 fx.toList, .localRx 3000#64 [], .tick 3040#64].map gatewayTime =
      [2999#64, 3000#64, 3040#64].map some ∧
    List.Pairwise (· ≤ ·) (relaying.lastNow :: [(2999#64 : Time), 3000#64, 3040#64]) ∧
    acceptsNoFrame [.udpRx 2999#64 0#1 0#48 fx.toList, .localRx 3000#64 [], .tick 3040#64] relaying ∧
    (∃ n ∈ [(2999#64 : Time), 3000#64, 3040#64], relaying.relay.tLast.toNat + 2000 ≤ n.toNat) ∧
    (∀ n ∈ [(2999#64 : Time)], n.toNat < relaying.relay.tLast.toNat + 2000) := by
  refine ⟨rfl, rfl, by decide, rfl, by decide, ?_, ⟨3000#64, by decide, by decide⟩,
    by intro n hn; rw [List.mem_singleton] at hn; subst hn; decide⟩
  refine ⟨?_, fun _ _ => ⟨nofun, fun _ _ => ⟨nofun, fun _ _ => trivial⟩⟩⟩
  rintro _ _ _ _ ⟨⟩ ⟨-, -, -, h⟩
  exact absurd (h rfl) (by decide +kernel)

/-- `ErrorBitsAreStickyAndEachIsLogged`, with an operation that logs. -/
theorem witness_error_bits : Instr.dgUnknown 1000#64 addrA [] ≠ .reset ∧
    ∃ t, exec (.dgUnknown 1000#64 addrA []) gwOn = .next t := ⟨by decide, _, rfl⟩

/-- `RegistersAreWrittenOnlyByTheirOwnOperations`: a stage operation, which meets every clause. -/
theorem witness_registers : Instr.frHdr ≠ .reset ∧ (∃ t, exec .frHdr (transmitting 0#5 false) = .next t) ∧
    agentOf .frHdr ≠ some .gw ∧ (∀ idx str, Instr.frHdr ≠ .csEnc idx str) ∧ (∀ idx c, Instr.frHdr ≠ .csLoad idx c) ∧
    (∀ reg val, Instr.frHdr ≠ .cfgWr reg val) ∧ (∀ d u n, Instr.frHdr ≠ .startTx d u n) ∧ Instr.frHdr ≠ .devOpen ∧
    Instr.frHdr ≠ .devClose ∧ (∀ a b c, Instr.frHdr ≠ .gwInit a b c) :=
  ⟨nofun, ⟨_, rfl⟩, nofun, nofun, nofun, nofun, nofun, nofun, nofun, nofun⟩

/-- `GatewayOperationsLeaveThePipelineAlone`. -/
theorem witness_gateway_frame : agentOf (.tick 31000#64) = some .gw ∧ ∃ t, exec (.tick 31000#64) linkedA = .next t :=
  ⟨rfl, _, rfl⟩

/-- A state that is not the reset state and meets the invariant: the engine runs, a session is being relayed,
and `TICK` is presented. -/
def busy : State := { relaying with pending := [.cmd (0x33#8 :: (be64 3000#64).toList)] }

/-- `EveryStepKeepsTheInvariant`: a state that meets it, and its step, which closes the session. -/
theorem witness_invariant : StateInvariant busy ∧ ∃ t, step busy = .next t ∧ t.relay.active = false := by
  refine ⟨?_, did (.tick 3000#64) relaying, rfl, by decide +kernel⟩
  exact
    { seqCount := by decide, stopReq := by decide, codes := by decide, enciHold := fun _ => rfl,
      encoHold := fun _ => rfl, frHold := fun _ => rfl, deciHold := fun _ => rfl, decoHold := fun _ => rfl,
      peerValid := by decide, target := by decide, errBits := by decide, rxIdle := fun _ => rfl,
      relayFn := by decide, linkTime := by decide, pingTime := by decide, relayTime := by decide,
      depths := by intro q d _; cases q <;> exact Nat.zero_le d }

/-- `DecodeInvertsEncode`: the longest datagram that fits; a datagram row. -/
theorem witness_decode_encode : Instr.wf (.udpRx 0#64 0#1 0#48 (List.replicate 65535 0#8)) = true ∧
    (∀ d, datagramBytes (.udpRx 0#64 0#1 0#48 d) = none) ∧
    Instr.wf (.ackn 0#64 addrA) = true ∧ datagramBytes (.ackn 0#64 addrA) = some tagAckn := by
  refine ⟨?_, fun _ => rfl, rfl, rfl⟩
  rw [Instr.wf, fitsLen, List.length_replicate]; rfl

/-- `EveryDecodedCommandIsItsOwnEncoding`. -/
theorem witness_decoded_command :
    decode (.cmd [0x33#8, 0x00#8, 0x00#8, 0x00#8, 0x00#8, 0x00#8, 0x00#8, 0x88#8, 0xB8#8]) = .ok (.tick 35000#64) := rfl

/-- `ListedWordsDecodeAndReservedOpcodesAreRefused`: both ends of every range of R97. -/
theorem witness_reserved_opcodes :
    ∀ opc ∈ ([0x09#8, 0x0F#8, 0x14#8, 0x1F#8, 0x23#8, 0x2F#8, 0x34#8, 0x3F#8, 0x47#8, 0xFF#8] : List Byte),
      (0x09 ≤ opc.toNat ∧ opc.toNat ≤ 0x0F ∨ 0x14 ≤ opc.toNat ∧ opc.toNat ≤ 0x1F ∨
        0x23 ≤ opc.toNat ∧ opc.toNat ≤ 0x2F ∨ 0x34 ≤ opc.toNat ∧ opc.toNat ≤ 0x3F ∨ 0x47 ≤ opc.toNat) := by
  decide

/-- `AStepRunsTheFirstOperationPresented`: an enabled operation; a request that names none; nothing
presented. -/
theorem witness_step :
    ({ State.reset with pending := [.cmd [0x05#8]] }.pending = .cmd [0x05#8] :: [] ∧
      decode (.cmd [0x05#8]) = .ok .devOpen ∧
      held .devOpen { State.reset with pending := [.cmd [0x05#8]] } = false) ∧
    decode (.cmd [0x47#8]) = .error (.reservedOpcode 0x47#8) ∧ State.reset.pending = [] :=
  ⟨⟨rfl, rfl, rfl⟩, rfl, rfl⟩

/-- `OQ_POP` on the empty gateway queue, presented and held. -/
def heldPop : Request := .cmd [0x08#8, 0x01#8]

/-- `HeldOperationsStayPresentedAndLetOthersRun`: an enabled `RX_PACKET` behind a held `OQ_POP`; only held requests;
a held operation. -/
theorem witness_held :
    (∀ a q b, [heldPop] = a ++ q :: b → waits State.reset a q) ∧
    ¬ waits State.reset [heldPop] (.cmd (0x04#8 :: 0x00#8 :: v20.toList)) ∧
    decode (.cmd (0x04#8 :: 0x00#8 :: v20.toList)) = .ok (.rxPacket .gw v20) ∧
    held (.oqPop .gw) State.reset = true := by
  have hd : decode heldPop = .ok (.oqPop .gw) := rfl
  have hr : decode (.cmd (0x04#8 :: 0x00#8 :: v20.toList)) = .ok (.rxPacket .gw v20) := rfl
  refine ⟨?_, ?_, hr, rfl⟩
  · intro a q b h
    rcases a with _ | ⟨x, a⟩
    · cases h; exact ⟨_, hd, .inl rfl⟩
    · simp at h
  · rintro ⟨i, hi, h⟩
    rw [hr] at hi; cases hi
    rcases h with h | ⟨-, p, hp, j, hj, hs, -⟩
    · exact absurd h (by decide +kernel)
    · rw [List.mem_singleton] at hp; subst hp
      rw [hd] at hj; cases hj; cases hs

/-- The same statement's held `RX_PACKET`: a voice packet of the session on a full `CQ_RX`. Which depths are finite
is open (log 12); at every finite depth there is such a state. -/
theorem witness_held_packet {d : Nat} (hq : Config.queueDepth .cqRx = some d) :
    ∃ s : State, s.pending = [encode (.rxPacket .gw v22), encode (.rxPacket .gw v20)] ∧
      held (.rxPacket .gw v22) s = true := by
  refine ⟨{ receiving with
    queues := { noQueues with cqRx := List.replicate d ⟨c1, 0#8⟩ }
    pending := [encode (.rxPacket .gw v22), encode (.rxPacket .gw v20)] }, rfl, ?_⟩
  have hf : qFull .cqRx (List.replicate d (⟨c1, 0#8⟩ : CompressedFrame)) = true := by
    obtain _ | d := d
    · exact absurd (queueDepth_pos hq) (Nat.lt_irrefl 0)
    · simp [List.replicate_succ, qFull, hq]
  rw [held, rxPhase_voice _ (by decide) (by decide), rxVoice,
    if_neg (show ¬ (!receiving.rx.active || wpStreamId v22 != receiving.rx.sid) = true by decide), if_pos hf]
  rfl

/-- `StatusPortReadsGiveEachRegisterItsWidthAndValue`: a register with a width, and one without; an unlisted
number. -/
theorem witness_status : (statusRead receiving 0x12#8 = some ⟨some 16, 0⟩ ∧ (⟨some 16, 0⟩ : RegRead).width = some 16) ∧
    statusRead receiving 0x58#8 = some ⟨none, 0⟩ ∧ statusRead receiving 0x59#8 = none := by decide

end Sys2Proof.Tests
end

/-! The queue primitives (40_queue.md R120, R122, R123, R125): the two status reads and the type of a queue's
elements. -/

namespace Sys2Proof.Machine

/-- `QEmpty(q)` as R120 defines it. -/
theorem qEmpty_iff_length_eq_zero {α : Type} (l : List α) : qEmpty l = true ↔ l.length = 0 := by
  rw [qEmpty, List.isEmpty_iff_length_eq_zero]

/-- `QFull(q)` as R120 defines it. `qFull` answers for the empty queue without reading the depth, which agrees
with R120 because a finite depth is positive (R127). -/
theorem qFull_iff_depth_eq_length {α : Type} (q : QueueId) (l : List α) :
    qFull q l = true ↔ ∃ d, Config.queueDepth q = some d ∧ l.length = d := by
  cases l with
  | nil =>
    have not_full : ¬ ∃ d, Config.queueDepth q = some d ∧ ([] : List α).length = d := by
      rintro ⟨d, hd, hl⟩
      exact (queueDepth_pos hd).ne hl
    simpa only [qFull_nil, Bool.false_eq_true, false_iff] using not_full
  | cons e l =>
    cases hd : Config.queueDepth q with
    | none => simp [qFull, hd]
    | some depth => simp only [qFull, hd, beq_iff_eq, Option.some.injEq, exists_eq_left']

/-- The elements of a queue are of its type (R26, R120). -/
theorem fits_of_mem_elems {qs : Queues} {q : QueueId} {e : Elem} (he : e ∈ qs.elems q) : e.fits q = true := by
  cases q <;>
    (obtain ⟨_, _, rfl⟩ := List.mem_map.mp he
     rfl)

/-- Settles O18: the primitives are those of R120, R122, R123 and R125, each by its own law. -/
theorem queuePrimitivesAreThoseOfTheArbiter : Obligations.QueuePrimitivesAreThoseOfTheArbiter := by
  refine ⟨?status, ?pushPop, ?clear, ?types⟩
  case status => exact fun _ q l => ⟨qEmpty_iff_length_eq_zero l, qFull_iff_depth_eq_length q l⟩
  case pushPop => exact fun _ l e => ⟨qPush_eq l e, qPop_cons e l, qPop_nil⟩
  case clear => exact fun qs q => (clearQueue_cases qs q).1
  case types => exact fun _ _ _ => fits_of_mem_elems

end Sys2Proof.Machine

/-! The voice step of the framer (42_framer.md R187): the packet it builds, each of its phases, and the states
where neither is enabled. -/

namespace Sys2Proof.Machine

/-- The bytes of `mk_voice` in the order of R187. -/
theorem mkVoice_toList (sid : Half) (payload : Bytes 9) (tag : Tag) :
    (mkVoice sid payload tag).toList =
      Config.wpMagic.toList ++ [Config.cfgVoice, Config.idVal] ++ Config.flagsVal.toList ++
        [sid.extractLsb' 8 8, sid.extractLsb' 0 8, tag] ++ payload.toList ++
        Config.slow3.toList ++ List.replicate 32 0x00#8 := by
  simp only [mkVoice, wpPreamble, be16_toList, List.append_assoc, List.cons_append, List.nil_append]

/-- A packet pushed out is the youngest of the session's outbound queue. -/
theorem pushOut_oq (p : WirePacket) (s : State) :
    (pushOut p s).queues.oq s.tx.dest = s.queues.oq s.tx.dest ++ [p] := by
  rw [pushOut_queues, setOq_oq, qPush_eq]

/-- A packet pushed out leaves every queue but the session's outbound queue. -/
theorem pushOut_elems_other (p : WirePacket) (s : State) {q : QueueId} (hq : q ≠ oqId s.tx.dest) :
    (pushOut p s).queues.elems q = s.queues.elems q := by
  rw [pushOut_queues, setOq_elems_other _ _ _ _ hq]

/-- `FR_VOICE` runs the phase that is enabled, and is held where none is (R129, R187). -/
theorem exec_frVoice (s : State) : exec .frVoice s = orHeld s (frVoicePhase s) := rfl

/-- The take phase, once the header is out. -/
theorem frVoicePhase_take {s : State} {f : CompressedFrame} {l : List CompressedFrame} (hrun : s.run.fr = true)
    (hhdr : s.hdrPending = false) (hhold : s.hold.fr = none) (hcq : s.queues.cqTx = f :: l) :
    frVoicePhase s =
      some { s with queues := { s.queues with cqTx := l }, hold := { s.hold with fr := some f } } := by
  simp [frVoicePhase, hrun, hhdr, hhold, hcq]

/-- The put phase, which ends the stage on the end marker. -/
theorem frVoicePhase_put {s : State} {f : CompressedFrame} (hrun : s.run.fr = true) (hhold : s.hold.fr = some f)
    (hroom : outFull s = false) :
    frVoicePhase s = some { pushOut (mkVoice s.tx.sid f.payload f.tag) s with
      hold := { s.hold with fr := none }
      run := { s.run with fr := !endMark f.tag } } := by
  simp [frVoicePhase, hrun, hhold, hroom]

/-- Settles O26: the two phases of R187 by their own equations; a state where the step is not held meets the
condition of one of them. -/
theorem voiceStepTakesPutsOrIsHeld : Obligations.VoiceStepTakesPutsOrIsHeld := by
  refine ⟨?take, ?put, ?held⟩
  case take =>
    intro f l s hrun hhdr hhold hcq
    rw [exec_frVoice, frVoicePhase_take hrun hhdr hhold hcq, orHeld_some]
  case put =>
    intro f s hrun hhold hroom
    rw [exec_frVoice, frVoicePhase_put hrun hhold hroom, orHeld_some]
    exact ⟨_, _, rfl, mkVoice_toList _ _ _, pushOut_oq _ s, fun q hq => pushOut_elems_other _ s hq, rfl⟩
  case held =>
    intro s disabled
    cases hphase : frVoicePhase s with
    | none => rw [exec_frVoice, hphase, orHeld_none]
    | some t =>
      obtain ⟨hrun, ⟨f, l, hhold, hhdr, hcq, -⟩ | ⟨f, hhold, hroom, -⟩⟩ := frVoicePhase_cases hphase
      · exact absurd ⟨hrun, .inl ⟨hhold, hhdr, by simp [hcq]⟩⟩ disabled
      · exact absurd ⟨hrun, .inr ⟨by simp [hhold], hroom⟩⟩ disabled

end Sys2Proof.Machine

/-! A closed vocoder (60_exceptions.md R303): each stage that touches it exits with its error and nothing else
changes, and with every stage stopped `START_TX` is not refused (41_sequencer.md R143). -/

namespace Sys2Proof.Machine

/-- `ENCI_STEP` runs the phase that is enabled, and is held where none is (R129, R150). -/
theorem exec_enciStep (s : State) : exec .enciStep s = orHeld s (enciPhase s) := rfl

/-- `ENCO_STEP` runs the phase that is enabled, and is held where none is (R129, R151). -/
theorem exec_encoStep (s : State) : exec .encoStep s = orHeld s (encoPhase s) := rfl

/-- `DECI_STEP` runs the phase that is enabled, and is held where none is (R129, R152). -/
theorem exec_deciStep (s : State) : exec .deciStep s = orHeld s (deciPhase s) := rfl

/-- `DECO_STEP` runs the phase that is enabled, and is held where none is (R129, R153). -/
theorem exec_decoStep (s : State) : exec .decoStep s = orHeld s (decoPhase s) := rfl

/-- ENCI touches the vocoder in its put phase: a closed one costs it the frame in hand. -/
theorem enciPhase_closed {s : State} {f : AudioFrame} (hvoc : s.vocOpen = false) (hrun : s.run.enci = true)
    (hhold : s.hold.enci = some f) :
    enciPhase s =
      some ({ s with hold := { s.hold with enci := none }, run := { s.run with enci := false } }.log .notOpen) := by
  simp [enciPhase, enciPut, hvoc, hrun, hhold]

/-- DECI touches the vocoder in its put phase: a closed one costs it the frame in hand. -/
theorem deciPhase_closed {s : State} {f : CompressedFrame} (hvoc : s.vocOpen = false) (hrun : s.run.deci = true)
    (hhold : s.hold.deci = some f) :
    deciPhase s =
      some ({ s with hold := { s.hold with deci := none }, run := { s.run with deci := false } }.log .notOpen) := by
  simp [deciPhase, deciPut, hvoc, hrun, hhold]

/-- ENCO touches the vocoder in its take phase: with a closed one the tag stays in its queue. -/
theorem encoPhase_closed {s : State} {tag : Tag} {l : List Tag} (hvoc : s.vocOpen = false)
    (hrun : s.run.enco = true) (hhold : s.hold.enco = none) (hsq : s.queues.sqTx = tag :: l) :
    encoPhase s = some ({ s with run := { s.run with enco := false } }.log .notOpen) := by
  simp [encoPhase, encoTake, hvoc, hrun, hhold, hsq]

/-- DECO touches the vocoder in its take phase: with a closed one the tag stays in its queue. -/
theorem decoPhase_closed {s : State} {tag : Tag} {l : List Tag} (hvoc : s.vocOpen = false)
    (hrun : s.run.deco = true) (hhold : s.hold.deco = none) (hsq : s.queues.sqRx = tag :: l) :
    decoPhase s = some ({ s with run := { s.run with deco := false } }.log .notOpen) := by
  simp [decoPhase, decoTake, hvoc, hrun, hhold, hsq]

/-- Clearing ENCO's hold register where it is empty changes nothing. -/
theorem Holds.clear_enco {h : Holds} (hnone : h.enco = none) : { h with enco := none } = h := by
  rw [← hnone]

/-- Clearing DECO's hold register where it is empty changes nothing. -/
theorem Holds.clear_deco {h : Holds} (hnone : h.deco = none) : { h with deco := none } = h := by
  rw [← hnone]

/-- `START_TX` with no stage running (R143). -/
theorem exec_startTx_stopped {t : State} (hrun : t.run = ⟨false, false, false, false, false, false, false⟩)
    (dest : Dest) (ur : Bytes 8) (sid : Half) :
    exec (.startTx dest ur sid) t = .next { t with
      queues := noQueues
      hold := noHolds
      tx := ⟨dest, ur, sid⟩
      seq := ⟨0#5, false⟩
      hdrPending := true
      run := ⟨true, true, true, true, false, false, false⟩ } := by
  have stopped : ¬ t.run.any = true := by rw [hrun]; decide
  change execStartTx dest ur sid t = _
  rw [execStartTx, if_neg stopped, hrun]

/-- Settles O17: each stage by the phase in which it touches the vocoder. ENCO and DECO hold no frame when they
touch it, so for them clearing the hold register is no change. The fresh session is `START_TX` in any state with
every run bit 0, however the stages stopped. -/
theorem aClosedVocoderStopsOnlyTheStageThatTouchedIt : Obligations.AClosedVocoderStopsOnlyTheStageThatTouchedIt := by
  intro s hvoc
  refine ⟨?enci, ?enco, ?deci, ?deco, ?restart⟩
  case enci =>
    intro f hrun hhold
    rw [exec_enciStep, enciPhase_closed hvoc hrun hhold, orHeld_some]
  case enco =>
    intro tag l hrun hhold hsq
    rw [exec_encoStep, encoPhase_closed hvoc hrun hhold hsq, orHeld_some, Holds.clear_enco hhold]
  case deci =>
    intro f hrun hhold
    rw [exec_deciStep, deciPhase_closed hvoc hrun hhold, orHeld_some]
  case deco =>
    intro tag l hrun hhold hsq
    rw [exec_decoStep, decoPhase_closed hvoc hrun hhold hsq, orHeld_some, Holds.clear_deco hhold]
  case restart =>
    intro _ t _ _ hrun dest ur sid
    exact ⟨_, exec_startTx_stopped hrun dest ur sid, rfl, rfl, rfl, rfl, rfl⟩

end Sys2Proof.Machine

/-! The callsign codec (43_callsign.md R210 to R212, R217): a code is the number whose nine base-40 digits index
the characters, so encoding and decoding are the two directions of one equation. -/

namespace Sys2Proof.Machine

/-- A byte found at a position stands there. -/
theorem getElem?_of_indexIn {b : Byte} {l : List Byte} {k : Nat} (h : indexIn b l = some k) : l[k]? = some b := by
  induction l generalizing k with
  | nil => cases h
  | cons x xs ih =>
    rw [indexIn] at h
    split at h
    · rename_i hx
      cases h
      simp [hx]
    · obtain ⟨j, hj, rfl⟩ := Option.map_eq_some_iff.mp h
      simpa using ih hj

/-- A byte of a list has a position in it. -/
theorem indexIn_of_mem {b : Byte} {l : List Byte} (h : b ∈ l) : ∃ k, indexIn b l = some k := by
  induction l with
  | nil => cases h
  | cons x xs ih =>
    rw [indexIn]
    split
    · exact ⟨0, rfl⟩
    · rename_i hx
      obtain ⟨k, hk⟩ := ih ((List.mem_cons.mp h).resolve_left fun e => hx e.symm)
      exact ⟨k + 1, by simp [hk]⟩

/-- `symbol` is the inverse of `cs_index` (R212). -/
theorem csSymbol_of_csIndex {c : Byte} {k : Nat} (h : csIndex c = some k) : csSymbol k = c ∧ k < Config.csBase := by
  have hk := getElem?_of_indexIn h
  refine ⟨by simp [csSymbol, List.getD, hk], ?_⟩
  exact (List.getElem?_eq_some_iff.mp hk).1

theorem csIndex_csSymbol : ∀ k < Config.csBase, csIndex (csSymbol k) = some k := by decide

/-- A string has the indices `ks` exactly when `ks` are digits that spell it. -/
theorem csIndices_eq_some_iff {str : List Byte} {ks : List Nat} :
    csIndices str = some ks ↔ str = ks.map csSymbol ∧ ∀ k ∈ ks, k < Config.csBase := by
  induction str generalizing ks with
  | nil => cases ks <;> simp [csIndices]
  | cons c cs ih =>
    constructor
    · intro h
      rw [csIndices] at h
      split at h
      · rename_i k ks' hk hks
        cases h
        obtain ⟨rfl, hlt⟩ := ih.mp hks
        obtain ⟨rfl, hlow⟩ := csSymbol_of_csIndex hk
        exact ⟨rfl, List.forall_mem_cons.mpr ⟨hlow, hlt⟩⟩
      · cases h
    · rintro ⟨hstr, hlt⟩
      cases ks with
      | nil => cases hstr
      | cons k ks =>
        obtain ⟨rfl, rfl⟩ := List.cons.inj hstr
        obtain ⟨hk, hks⟩ := List.forall_mem_cons.mp hlt
        simp [csIndices, csIndex_csSymbol k hk, ih.mpr ⟨rfl, hks⟩]

/-- A string of the alphabet has indices. -/
theorem exists_csIndices {str : List Byte} (h : ∀ c ∈ str, c ∈ csAlphabet) : ∃ ks, csIndices str = some ks := by
  induction str with
  | nil => exact ⟨[], rfl⟩
  | cons c cs ih =>
    obtain ⟨hc, hcs⟩ := List.forall_mem_cons.mp h
    obtain ⟨k, hk⟩ := indexIn_of_mem hc
    obtain ⟨ks, hks⟩ := ih hcs
    exact ⟨k :: ks, by simp [csIndices, csIndex, hk, hks]⟩

theorem csValue_concat (ks : List Nat) (k : Nat) : csValue (ks ++ [k]) = csValue ks * Config.csBase + k := by
  simp [csValue]

/-- `n` digits have a value below `40^n`. -/
theorem csValue_lt {ks : List Nat} (h : ∀ k ∈ ks, k < Config.csBase) : csValue ks < Config.csBase ^ ks.length := by
  induction ks using List.reverseRecOn with
  | nil => simp [csValue]
  | append_singleton ks k ih =>
    have hks := ih fun j hj => h j (by simp [hj])
    have hk := h k (by simp)
    rw [csValue_concat, List.length_append, List.length_singleton, pow_succ]
    have hstep : (csValue ks + 1) * Config.csBase ≤ Config.csBase ^ ks.length * Config.csBase :=
      Nat.mul_le_mul_right _ hks
    rw [Nat.add_mul] at hstep
    omega

/-- The digits of a value are the digits it was made of. -/
theorem csDigits_csValue {ks : List Nat} (h : ∀ k ∈ ks, k < Config.csBase) :
    csDigits ks.length (csValue ks) = ks.map csSymbol := by
  induction ks using List.reverseRecOn with
  | nil => rfl
  | append_singleton ks k ih =>
    have hk := h k (by simp)
    have hdiv : (csValue ks * Config.csBase + k) / Config.csBase = csValue ks := by
      rw [Nat.mul_comm, Nat.mul_add_div (by decide), Nat.div_eq_of_lt hk, Nat.add_zero]
    have hmod : (csValue ks * Config.csBase + k) % Config.csBase = k := by
      rw [Nat.mul_comm, Nat.mul_add_mod, Nat.mod_eq_of_lt hk]
    rw [csValue_concat, List.length_append, List.length_singleton, csDigits, hdiv, hmod,
      ih fun j hj => h j (by simp [hj])]
    simp

/-- Every number below `40^n` is the value of `n` digits. -/
theorem exists_digits (n : Nat) : ∀ v < Config.csBase ^ n,
    ∃ ks : List Nat, ks.length = n ∧ (∀ k ∈ ks, k < Config.csBase) ∧ csValue ks = v := by
  induction n with
  | zero => exact fun v hv => ⟨[], rfl, by simp, (Nat.lt_one_iff.mp hv).symm⟩
  | succ n ih =>
    intro v hv
    obtain ⟨ks, hlen, hlt, hval⟩ := ih (v / Config.csBase) (Nat.div_lt_of_lt_mul (by rwa [pow_succ'] at hv))
    refine ⟨ks ++ [v % Config.csBase], by simp [hlen], ?_, ?_⟩
    · intro k hk
      rcases List.mem_append.mp hk with hk | hk
      · exact hlt k hk
      · rw [List.mem_singleton.mp hk]
        exact Nat.mod_lt _ (by decide)
    · rw [csValue_concat, hval, Nat.mul_comm, Nat.div_add_mod]

/-- `CS_MAX` is the greatest number of nine digits (R7, R211). -/
theorem le_csMax_iff {v : Code} : v ≤ Config.csMax ↔ v.toNat < Config.csBase ^ 9 := by
  rw [BitVec.le_def, show Config.csMax.toNat = 0xEE6B27FFFFFF from rfl,
    show Config.csBase ^ 9 = 0xEE6B27FFFFFF + 1 from rfl]
  omega

theorem csPad_length {str : List Byte} (h : str.length ≤ 9) : (csPad str).length = 9 := by
  simp [csPad]; omega

theorem csPad_of_nine (str : Bytes 9) : csPad str.toList = str.toList := by
  simp [csPad]

/-- The codec as one equation: a string has the code `v` exactly when, padded to nine characters, it is the
digits of `v` and `v` is a valid code (R211, R212). -/
theorem csEncode_eq_some_iff {str : List Byte} (h : str.length ≤ 9) {v : Code} :
    csEncode str = some v ↔ csPad str = csDigits 9 v.toNat ∧ v ≤ Config.csMax := by
  have hpad := csPad_length h
  rw [csEncode, Option.map_eq_some_iff, le_csMax_iff]
  constructor
  · rintro ⟨ks, hks, rfl⟩
    obtain ⟨hstr, hdig⟩ := csIndices_eq_some_iff.mp hks
    have hlen : ks.length = 9 := by rw [← hpad, hstr, List.length_map]
    have hlt := csValue_lt hdig
    rw [hlen] at hlt
    have hnat : (BitVec.ofNat 48 (csValue ks)).toNat = csValue ks :=
      Nat.mod_eq_of_lt (hlt.trans (by decide))
    rw [hnat]
    exact ⟨by rw [hstr, ← csDigits_csValue hdig, hlen], hlt⟩
  · rintro ⟨hstr, hv⟩
    obtain ⟨ks, hlen, hdig, hval⟩ := exists_digits 9 v.toNat hv
    refine ⟨ks, csIndices_eq_some_iff.mpr ⟨?_, hdig⟩, ?_⟩
    · rw [hstr, ← hval, ← csDigits_csValue hdig, hlen]
    · rw [hval, BitVec.ofNat_toNat, BitVec.setWidth_eq]

/-- A string of at most nine characters of the alphabet has a code. -/
theorem exists_csEncode {str : List Byte} (h : ∀ c ∈ str, c ∈ csAlphabet) : ∃ v, csEncode str = some v := by
  have hpad : ∀ c ∈ csPad str, c ∈ csAlphabet := by
    intro c hc
    rcases List.mem_append.mp hc with hc | hc
    · exact h c hc
    · rw [List.eq_of_mem_replicate hc]
      decide
  obtain ⟨ks, hks⟩ := exists_csIndices hpad
  exact ⟨_, by rw [csEncode, hks]; rfl⟩

/-- A string with a character outside the alphabet has none. -/
theorem csEncode_eq_none {str : List Byte} (h : ∃ c ∈ str, c ∉ csAlphabet) : csEncode str = none := by
  obtain ⟨c, hc, hout⟩ := h
  rw [csEncode, Option.map_eq_none_iff, Option.eq_none_iff_forall_ne_some]
  intro ks hks
  obtain ⟨hstr, hdig⟩ := csIndices_eq_some_iff.mp hks
  have hmem : c ∈ ks.map csSymbol := hstr ▸ List.mem_append_left _ hc
  obtain ⟨k, hk, rfl⟩ := List.mem_map.mp hmem
  have hlen : k < csAlphabet.length := hdig k hk
  rw [csSymbol, List.getD_eq_getElem _ _ hlen] at hout
  exact hout (List.getElem_mem hlen)

theorem csInvalid_iff {v : Code} : csInvalid v = true ↔ Config.csMax < v := decide_eq_true_iff

theorem csDecode_valid {v : Code} (h : v ≤ Config.csMax) :
    csDecode v = some ⟨csDigits 9 v.toNat, csDigits_length 9 _⟩ := by
  rw [csDecode, if_neg fun hv => BitVec.not_lt.mpr h (csInvalid_iff.mp hv)]

theorem csDecode_invalid {v : Code} (h : Config.csMax < v) : csDecode v = none :=
  if_pos (csInvalid_iff.mpr h)

/-- Settles O30: the four parts of R217 read off `csEncode_eq_some_iff`. -/
theorem callsignCodecRoundTripsAndIsInjective : Obligations.CallsignCodecRoundTripsAndIsInjective := by
  refine ⟨?decodeEncode, ?injective, ?encodeDecode, ?invalid⟩
  case decodeEncode =>
    intro str hlen halpha
    obtain ⟨v, hv⟩ := exists_csEncode halpha
    obtain ⟨hpad, hmax⟩ := (csEncode_eq_some_iff hlen).mp hv
    exact ⟨v, _, hv, csDecode_valid hmax, hpad.symm⟩
  case injective =>
    intro a b v ha hb
    have hdigits : ∀ x : Bytes 9, csEncode x.toList = some v → x.toList = csDigits 9 v.toNat := by
      intro x hx
      rw [← csPad_of_nine x]
      exact ((csEncode_eq_some_iff x.size.le).mp hx).1
    exact FixedList.ext_toList ((hdigits a ha).trans (hdigits b hb).symm)
  case encodeDecode =>
    intro v hv
    exact ⟨_, csDecode_valid hv,
      (csEncode_eq_some_iff (csDigits_length 9 _).le).mpr ⟨csPad_of_nine ⟨_, csDigits_length 9 _⟩, hv⟩⟩
  case invalid => exact fun v hv => csDecode_invalid hv

end Sys2Proof.Machine

/-! The invariant of DVQ (10_state.md section 10): each effect of `Laws/Effects.lean` names the fields it touches
and keeps the rest. -/

namespace Sys2Proof.Machine

/-! ## The depth of the queues (R27) -/

/-- No queue is longer than its depth. -/
def WithinDepth (qs : Queues) : Prop := ∀ q d, Config.queueDepth q = some d → (qs.elems q).length ≤ d

/-- A queue that gets no longer keeps every queue within its depth. -/
theorem WithinDepth.shrink {qs qs' : Queues} {q : QueueId} (h : WithinDepth qs) (ho : SameBut q qs qs')
    (hl : (qs'.elems q).length ≤ (qs.elems q).length) : WithinDepth qs' := by
  intro p d hd
  by_cases hp : p = q
  · subst hp
    exact hl.trans (h p d hd)
  · rw [ho p hp]
    exact h p d hd

/-- A push on a queue that is not full keeps every queue within its depth. -/
theorem WithinDepth.push {α : Type} {f : α → Elem} {l : List α} {x : α} {qs qs' : Queues} {q : QueueId}
    (h : WithinDepth qs) (ho : SameBut q qs qs') (hl : qs.elems q = l.map f) (hl' : qs'.elems q = (l ++ [x]).map f)
    (hf : qFull q l = false) : WithinDepth qs' := by
  intro p d hd
  by_cases hp : p = q
  · subst hp
    have hle := h p d hd
    rw [hl, List.length_map] at hle
    rw [hl', List.length_map]
    exact length_push_le x hf hd hle
  · rw [ho p hp]
    exact h p d hd

/-- A pop keeps every queue within its depth. -/
theorem WithinDepth.pop {α : Type} {f : α → Elem} {l l' : List α} {x : α} {qs qs' : Queues} {q : QueueId}
    (h : WithinDepth qs) (ho : SameBut q qs qs') (hl : qs.elems q = l.map f) (hl' : qs'.elems q = l'.map f)
    (hx : l = x :: l') : WithinDepth qs' :=
  h.shrink ho (by simp [hl, hl', hx])

theorem withinDepth_noQueues : WithinDepth noQueues := by
  intro q d _
  cases q <;> exact Nat.zero_le d

/-! Writing one queue leaves the others. -/

theorem sameBut_aqTx (qs : Queues) (l : List AudioFrame) : SameBut .aqTx qs { qs with aqTx := l } := by
  intro p hp
  cases p <;> simp [Queues.elems] at hp ⊢

theorem sameBut_sqTx (qs : Queues) (l : List Tag) : SameBut .sqTx qs { qs with sqTx := l } := by
  intro p hp
  cases p <;> simp [Queues.elems] at hp ⊢

theorem sameBut_cqTx (qs : Queues) (l : List CompressedFrame) : SameBut .cqTx qs { qs with cqTx := l } := by
  intro p hp
  cases p <;> simp [Queues.elems] at hp ⊢

theorem sameBut_cqRx (qs : Queues) (l : List CompressedFrame) : SameBut .cqRx qs { qs with cqRx := l } := by
  intro p hp
  cases p <;> simp [Queues.elems] at hp ⊢

theorem sameBut_sqRx (qs : Queues) (l : List Tag) : SameBut .sqRx qs { qs with sqRx := l } := by
  intro p hp
  cases p <;> simp [Queues.elems] at hp ⊢

theorem sameBut_aqRx (qs : Queues) (l : List AudioFrame) : SameBut .aqRx qs { qs with aqRx := l } := by
  intro p hp
  cases p <;> simp [Queues.elems] at hp ⊢

theorem sameBut_setOq (qs : Queues) (d : Dest) (l : List WirePacket) : SameBut (oqId d) qs (qs.setOq d l) :=
  fun p hp => setOq_elems_other qs d l p hp

/-- A packet pushed out to a queue that is not full keeps every queue within its depth. -/
theorem withinDepth_pushOut {s : State} (p : WirePacket) (h : WithinDepth s.queues) (hf : outFull s = false) :
    WithinDepth (pushOut p s).queues :=
  h.push (sameBut_setOq _ _ _) (elems_oqId _ _) (setOq_elems _ _ _) hf

/-! ## The other fields -/

/-- No error of R301 sets an unused bit of `ERRSTAT`. -/
theorem setErr_unused {e : Half} (c : ErrCode) (h : e &&& 0xFC01#16 = 0#16) : setErr e c &&& 0xFC01#16 = 0#16 := by
  have hbit : (1#16 <<< errNumber c) &&& 0xFC01#16 = 0#16 := by cases c <;> rfl
  rw [setErr, BitVec.and_comm, BitVec.and_or_distrib_left, BitVec.and_comm, h, BitVec.and_comm, hbit]
  rfl

theorem nextSeq_le (c : BitVec 5) : (nextSeq c).toNat ≤ 20 := by
  have hlt : (c.toNat + 1) % Config.seqMod < 21 := Nat.mod_lt _ (by decide)
  rw [nextSeq, BitVec.toNat_ofNat, Nat.mod_eq_of_lt (by omega)]
  omega

theorem csGet_csSet (s : State) (i j : Fin Config.ncs) (v : Code) :
    (s.csSet i v).csGet j = if i = j then v else s.csGet j := by
  have hj : j.val < s.cs.toList.length := by rw [s.cs.size]; exact j.isLt
  rw [State.csGet, csSet_cs, List.getD_eq_getElem _ _ (by simp), List.getElem_set, State.csGet,
    List.getD_eq_getElem _ _ hj]
  simp [Fin.ext_iff]

/-- A valid code written to a register leaves every register valid. -/
theorem csSet_valid {s : State} {i : Fin Config.ncs} {v : Code} (hv : v ≤ Config.csMax)
    (h : ∀ j, s.csGet j ≤ Config.csMax) (j : Fin Config.ncs) : (s.csSet i v).csGet j ≤ Config.csMax := by
  rw [csGet_csSet]
  split
  · exact hv
  · exact h j

theorem csEncode_le {str : Bytes 9} {v : Code} (h : csEncode str.toList = some v) : v ≤ Config.csMax :=
  ((csEncode_eq_some_iff str.size.le).mp h).2

theorem runBits_eq_of_any_eq_false {r : RunBits} (h : r.any = false) :
    r = ⟨false, false, false, false, false, false, false⟩ := by
  obtain ⟨cap, enci, enco, fr, deci, deco, play⟩ := r
  simp only [RunBits.any, Bool.or_eq_false_iff] at h
  obtain ⟨⟨⟨⟨⟨⟨rfl, rfl⟩, rfl⟩, rfl⟩, rfl⟩, rfl⟩, rfl⟩ := h
  rfl

/-- The presented requests have no part in the invariant. -/
theorem StateInvariant.pending {s : State} (h : StateInvariant s) (rest : List Request) :
    StateInvariant { s with pending := rest } :=
  { h with }

theorem StateInvariant.log {s : State} (h : StateInvariant s) (c : ErrCode) : StateInvariant (s.log c) :=
  { h with errBits := setErr_unused c h.errBits }

theorem StateInvariant.emit {s : State} (h : StateInvariant s) (e : Event) : StateInvariant (s.emit e) :=
  { h with }

/-- Time moves on and every timer's start stays behind it. -/
theorem StateInvariant.advance {s : State} (h : StateInvariant s) {now : Time} (hn : s.lastNow ≤ now) :
    StateInvariant { s with lastNow := now } :=
  { h with
    linkTime := fun hl => BitVec.le_trans (h.linkTime hl) hn
    pingTime := fun hl => BitVec.le_trans (h.pingTime hl) hn
    relayTime := fun ha => BitVec.le_trans (h.relayTime ha) hn }

theorem StateInvariant.toUnlinked {s : State} (h : StateInvariant s) (release : Bool) :
    StateInvariant (toUnlinked release s) := by
  have hs : StateInvariant { s with link := { s.link with state := .unlinked, peerValid := false } } :=
    { h with peerValid := by simp, linkTime := by simp, pingTime := by simp }
  cases release with
  | false => exact hs
  | true => exact { hs with }

/-- The reset state meets the invariant. -/
theorem stateInvariant_reset : StateInvariant State.reset where
  seqCount := by decide
  stopReq := by decide
  codes := by decide
  enciHold := fun _ => rfl
  encoHold := fun _ => rfl
  frHold := fun _ => rfl
  deciHold := fun _ => rfl
  decoHold := fun _ => rfl
  peerValid := by decide
  target := by decide
  errBits := by decide
  rxIdle := fun _ => rfl
  relayFn := by decide
  linkTime := by decide
  pingTime := by decide
  relayTime := by decide
  depths := withinDepth_noQueues

/-! ## Every effect keeps the invariant -/

theorem LinkEffect.lastNow_eq {now : Time} {s t : State} (h : LinkEffect now s t) : t.lastNow = s.lastNow := by
  cases h with
  | unlinked release _ => exact toUnlinked_lastNow release s
  | _ => rfl

/-- What the gateway does at the time of the last gateway operation keeps the invariant. -/
theorem LinkEffect.stateInvariant {now : Time} {s t : State} (h : LinkEffect now s t) (hn : s.lastNow = now)
    (hi : StateInvariant s) : StateInvariant t := by
  cases h with
  | none => exact hi
  | logged c => exact hi.log c
  | udp a d => exact hi.emit _
  | linking a code m _ hc _ =>
    exact { hi with
      peerValid := by simp
      target := hc
      linkTime := fun _ => BitVec.le_of_eq hn.symm
      pingTime := by simp }
  | linked _ hp =>
    exact { hi with peerValid := by simpa using hp, linkTime := by simp, pingTime := fun _ => BitVec.le_of_eq hn.symm }
  | pinged hl _ => exact { hi with pingTime := fun _ => BitVec.le_of_eq hn.symm }
  | unlinked release _ => exact hi.toUnlinked release
  | relayed f _ _ =>
    exact { hi with
      relayFn := fun ha => by simpa [lastMark] using ha
      relayTime := fun _ => BitVec.le_of_eq hn.symm }
  | closed _ _ => exact { hi with relayFn := by simp, relayTime := by simp }

/-- Every effect of an operation keeps the invariant. -/
theorem Effect.stateInvariant {s t : State} {i : Instr} (h : Effect s i t) (hi : StateInvariant s) :
    StateInvariant t := by
  have hd : WithinDepth s.queues := hi.depths
  cases h with
  | none _ => exact hi
  | reset => exact { stateInvariant_reset with }
  | startTx _ =>
    exact { hi with
      seqCount := Nat.zero_le _, stopReq := by simp
      enciHold := fun _ => rfl, encoHold := fun _ => rfl, frHold := fun _ => rfl
      deciHold := fun _ => rfl, decoHold := fun _ => rfl
      depths := withinDepth_noQueues }
  | stopTx hr => exact { hi with stopReq := fun _ => hr }
  | startPlayback _ => exact { hi with deciHold := by simp, decoHold := by simp }
  | devOpen => exact { hi with }
  | devClose => exact { hi with }
  | cfgWr c => exact { hi with }
  | captureError => exact hi.log _
  | captured hr hf =>
    exact { hi with
      seqCount := nextSeq_le _, stopReq := by simp
      depths := hd.push (sameBut_aqTx _ _) rfl rfl hf }
  | @oqPop dest p l hq =>
    exact { hi with depths := hd.pop (sameBut_setOq _ dest _) (elems_oqId _ _) (setOq_elems _ _ _) hq }
  | csEncoded v hv =>
    exact { hi with codes := csSet_valid (csEncode_le hv) hi.codes }
  | csEncInvalid _ => exact (hi.log _).emit _
  | csLoaded hv =>
    exact { hi with codes := csSet_valid hv hi.codes }
  | csLoadInvalid _ => exact (hi.log _).emit _
  | csDec _ _ => exact hi.emit _
  | csEq _ => exact hi.emit _
  | gwInit _ => exact { hi with }
  | gwInitFailed _ => exact (hi.log _).emit _
  | gateway _ _ now ht a b h1 h2 h3 =>
    have ha := h1.stateInvariant rfl (hi.advance ht)
    have hb := h2.stateInvariant h1.lastNow_eq ha
    exact h3.stateInvariant (h2.lastNow_eq.trans h1.lastNow_eq) hb
  | rxLogged c => exact hi.log c
  | rxHeader r hr =>
    obtain rfl | rfl := hr
    · exact { hi with rxIdle := by simp }
    · exact { hi with rxIdle := by simp, deciHold := by simp, decoHold := by simp }
  | rxVoice ha _ hf =>
    exact { hi with
      rxIdle := by
        split
        · exact fun _ => rfl
        · exact hi.rxIdle
      depths := hd.push (sameBut_cqRx _ _) rfl rfl hf }
  | enciTake f l hr _ hq =>
    exact { hi with
      enciHold := by simp [hr]
      depths := hd.pop (sameBut_aqTx _ _) rfl rfl hq }
  | enciClosed f _ _ _ =>
    exact { hi with enciHold := fun _ => rfl, errBits := setErr_unused _ hi.errBits }
  | enciSent f _ _ _ hf =>
    exact { hi with
      enciHold := fun _ => rfl
      depths := hd.push (sameBut_sqTx _ _) rfl rfl hf }
  | enciFailed f _ _ _ =>
    exact { hi with enciHold := fun _ => rfl, errBits := setErr_unused _ hi.errBits }
  | encoClosed tag l _ hh _ _ =>
    exact { hi with encoHold := fun _ => hh, errBits := setErr_unused _ hi.errBits }
  | encoTaken tag l hr _ hq _ =>
    exact { hi with
      encoHold := by simp [hr]
      depths := hd.pop (sameBut_sqTx _ _) rfl rfl hq }
  | encoFailed tag l _ hh hq _ =>
    exact { hi with
      encoHold := fun _ => hh
      errBits := setErr_unused _ hi.errBits
      depths := hd.pop (sameBut_sqTx _ _) rfl rfl hq }
  | encoPut f _ _ hf =>
    exact { hi with
      encoHold := fun _ => rfl
      depths := hd.push (sameBut_cqTx _ _) rfl rfl hf }
  | deciTake f l hr _ hq =>
    exact { hi with
      deciHold := by simp [hr]
      depths := hd.pop (sameBut_cqRx _ _) rfl rfl hq }
  | deciClosed f _ _ _ =>
    exact { hi with deciHold := fun _ => rfl, errBits := setErr_unused _ hi.errBits }
  | deciSent f _ _ _ hf =>
    exact { hi with
      deciHold := fun _ => rfl
      depths := hd.push (sameBut_sqRx _ _) rfl rfl hf }
  | deciFailed f _ _ _ =>
    exact { hi with deciHold := fun _ => rfl, errBits := setErr_unused _ hi.errBits }
  | decoClosed tag l _ hh _ _ =>
    exact { hi with decoHold := fun _ => hh, errBits := setErr_unused _ hi.errBits }
  | decoTaken tag l hr _ hq _ =>
    exact { hi with
      decoHold := by simp [hr]
      depths := hd.pop (sameBut_sqRx _ _) rfl rfl hq }
  | decoFailed tag l _ hh hq _ =>
    exact { hi with
      decoHold := fun _ => hh
      errBits := setErr_unused _ hi.errBits
      depths := hd.pop (sameBut_sqRx _ _) rfl rfl hq }
  | decoPut f _ _ hf =>
    exact { hi with
      decoHold := fun _ => rfl
      depths := hd.push (sameBut_aqRx _ _) rfl rfl hf }
  | played f l _ hq =>
    exact { hi with depths := hd.pop (sameBut_aqRx _ _) rfl rfl hq }
  | playFailed f l _ hq =>
    exact { hi with
      errBits := setErr_unused _ hi.errBits
      depths := hd.pop (sameBut_aqRx _ _) rfl rfl hq }
  | frHdr _ _ hf => exact { hi with depths := withinDepth_pushOut _ hd hf }
  | frTake f l hr _ _ hq =>
    exact { hi with
      frHold := by simp [hr]
      depths := hd.pop (sameBut_cqTx _ _) rfl rfl hq }
  | frPut f _ _ hf => exact { hi with frHold := fun _ => rfl, depths := withinDepth_pushOut _ hd hf }
  | qPush hf he ho => exact { hi with depths := hd.push (f := id) ho (List.map_id _).symm (he.trans (List.map_id _).symm) hf }
  | qPop e he ho => exact { hi with depths := hd.shrink ho (by simp [he]) }
  | qClr he ho => exact { hi with depths := hd.shrink ho (by simp [he]) }

/-- Settles O53, field by field. -/
theorem resetStateMeetsTheInvariant : Obligations.ResetStateMeetsTheInvariant := stateInvariant_reset

/-- Settles O54: a step changes nothing or has one effect of the operation it chose, and every effect keeps the
invariant. -/
theorem everyStepKeepsTheInvariant : Obligations.EveryStepKeepsTheInvariant := by
  intro s t hi hstep
  rcases step_cases hstep with rfl | ⟨i, rest, -, hexec⟩
  · exact hi
  · exact (exec_effect hexec).stateInvariant (hi.pending rest)

end Sys2Proof.Machine

/-! The decoder and the encoder (30_encoding.md R91, R93 to R96): the two directions of one format, by opcode for a
command and by length and tag for a datagram. -/

namespace Sys2Proof

/-! ## Datagrams (R91) -/

/-- The byte strings that are the datagram `x` (R88 to R91). -/
def Datagram.Presents : Datagram → List Byte → Prop
  | .ackn, d => d = tagAckn
  | .nack, d => d = tagNack
  | .disc4, d => d = tagDisc
  | .ping code, d => d = tagPing ++ (be48 code).toList
  | .disc10 code, d => d = tagDisc ++ (be48 code).toList
  | .m17 frame, d => d = frame.toList
  | .unknown bytes, d => bytes = d ∧ isUnknownDatagram d = true

/-- Ten bytes of the tag `tag` are the tag and the code that the other six spell. -/
theorem eq_tag_append_code {d tag : List Byte} (hlen : d.length = 10) (htag : d.take 4 = tag) :
    d = tag ++ (be48 (fromBe48 ⟨d.drop 4, by simp [hlen]⟩)).toList := by
  rw [be48_fromBe48, ← htag]
  exact (List.take_append_drop 4 d).symm

/-- What the datagram decoder answers stood there. -/
theorem presents_classifyDatagram (d : List Byte) : (classifyDatagram d).Presents d := by
  unfold classifyDatagram
  split
  · rename_i hlen
    split
    · assumption
    · split
      · assumption
      · split
        · assumption
        · exact ⟨rfl, by simp [isUnknownDatagram, *]⟩
  · split
    · rename_i hlen
      split
      · exact eq_tag_append_code hlen (by assumption)
      · split
        · exact eq_tag_append_code hlen (by assumption)
        · exact ⟨rfl, by simp [isUnknownDatagram, *]⟩
    · split
      · rfl
      · exact ⟨rfl, by simp [isUnknownDatagram, *]⟩

/-- Ten bytes that are one of the two tags and a code decode by the tag. -/
theorem classifyDatagram_ping (code : Code) : classifyDatagram (tagPing ++ (be48 code).toList) = .ping code := by
  simp [classifyDatagram, tagPing]
  exact fromBe48_be48 code

theorem classifyDatagram_disc10 (code : Code) : classifyDatagram (tagDisc ++ (be48 code).toList) = .disc10 code := by
  simp [classifyDatagram, tagPing, tagDisc]
  exact fromBe48_be48 code

theorem classifyDatagram_m17 (frame : M17Frame) : classifyDatagram frame.toList = .m17 frame := by
  simp [classifyDatagram]

theorem classifyDatagram_unknown {d : List Byte} (h : isUnknownDatagram d = true) :
    classifyDatagram d = .unknown d := by
  unfold isUnknownDatagram at h
  unfold classifyDatagram
  split_ifs at h ⊢ <;> simp_all

/-- The datagram decoder answers exactly what the bytes present (R91). -/
theorem classifyDatagram_eq_iff {d : List Byte} {x : Datagram} : classifyDatagram d = x ↔ x.Presents d := by
  refine ⟨fun h => h ▸ presents_classifyDatagram d, fun h => ?_⟩
  cases x with
  | ackn | nack | disc4 => cases h; rfl
  | ping code => cases h; exact classifyDatagram_ping code
  | disc10 code => cases h; exact classifyDatagram_disc10 code
  | m17 frame => cases h; exact classifyDatagram_m17 frame
  | unknown bytes =>
    obtain ⟨rfl, hu⟩ := h
    exact classifyDatagram_unknown hu

/-- The row of a datagram tells the datagram. -/
theorem Datagram.toInstr_inj {now : Time} {src : NetAddr} {x y : Datagram} :
    x.toInstr now src = y.toInstr now src ↔ x = y := by
  cases x <;> cases y <;> simp [Datagram.toInstr]

theorem decodeDatagram_eq_iff {now : Time} {src : NetAddr} {d : List Byte} {x : Datagram} :
    decodeDatagram now src d = x.toInstr now src ↔ x.Presents d := by
  rw [decodeDatagram, Datagram.toInstr_inj, classifyDatagram_eq_iff]

/-- Some code follows a four-byte tag exactly when the length is ten and the tag comes first. -/
theorem exists_tag_append_code {d tag : List Byte} (htag : tag.length = 4) :
    (∃ code, d = tag ++ (be48 code).toList) ↔ d.length = 10 ∧ d.take 4 = tag := by
  constructor
  · rintro ⟨code, rfl⟩
    exact ⟨by simp [htag], List.take_left' htag⟩
  · rintro ⟨hlen, htake⟩
    exact ⟨_, eq_tag_append_code hlen htake⟩

/-- Settles O37: each row by what presents it. -/
theorem datagramsDecodeByLengthThenTag : Obligations.DatagramsDecodeByLengthThenTag := by
  intro now src d
  have row (x : Datagram) := decodeDatagram_eq_iff (now := now) (src := src) (d := d) (x := x)
  refine ⟨row .ackn, row .nack, row .disc4, ?ping, ?disc10, ?m17, ?unknown⟩
  case ping => exact (exists_congr fun code => row (.ping code)).trans (exists_tag_append_code rfl)
  case disc10 => exact (exists_congr fun code => row (.disc10 code)).trans (exists_tag_append_code rfl)
  case m17 =>
    constructor
    · rintro ⟨frame, -, rfl⟩
      exact frame.size
    · exact fun hlen => ⟨⟨d, hlen⟩, (row (.m17 ⟨d, hlen⟩)).mpr rfl, rfl⟩
  case unknown => exact (row (.unknown d)).trans ⟨fun h => h.2, fun h => ⟨rfl, h⟩⟩

/-! ## Commands, from the operation to its bytes -/

/-- The `UDP_RX` that carries a datagram decodes to it. -/
theorem decode_udpRxBytes (now : Time) (src : NetAddr) {d : List Byte} (h : fitsLen d = true) :
    decode (.cmd (udpRxBytes now src.sock src.addr d)) = .ok (.udpRx now src.sock src.addr d) := by
  simp [decode, decodeCmd, decodeOperands, udpRxBytes, readCoded_of, readCounted_self h]

/-- An operation that no datagram encodes comes back from its encoding. -/
theorem decode_encode {i : Instr} (hw : i.wf = true) (hd : datagramBytes i = none) : decode (encode i) = .ok i := by
  cases i with
  | reset | stopTx | startPlayback | devOpen | devClose | enciStep | encoStep | frHdr | frVoice | deciStep | decoStep
  | playStep => rfl
  | startTx | rxPacket | cfgWr | oqPop | csEnc | csLoad | csDec | csEq | gwInit | linkReq | unlinkReq | capTick
  | tick => simp [encode, decode, decodeCmd, decodeOperands, readCoded_of]
  | udpRx now sock addr d => exact decode_udpRxBytes now ⟨sock, addr⟩ hw
  | localRx now m =>
    have hfits : fitsLen m = true := hw
    simp [encode, decode, decodeCmd, decodeOperands, readCounted_self hfits]
  | ackn | nack | disc4 | ping | disc10 | m17Rx | dgUnknown => cases hd
  | qNop q | qPop q | qClr q => rfl
  | qPush q e =>
    have hfits : e.fits q = true := hw
    simp [encode, decode, decodePort, hfits]

/-- A datagram row, its operands and what it carries. -/
theorem exists_row_of_datagramBytes {i : Instr} {d : List Byte} (hw : i.wf = true) (hd : datagramBytes i = some d) :
    ∃ now src x, i = Datagram.toInstr now src x ∧ x.Presents d ∧ fitsLen d = true ∧
      encode i = .cmd (udpRxBytes now src.sock src.addr d) := by
  cases i with
  | ackn now src => cases hd; exact ⟨now, src, .ackn, rfl, rfl, rfl, rfl⟩
  | nack now src => cases hd; exact ⟨now, src, .nack, rfl, rfl, rfl, rfl⟩
  | disc4 now src => cases hd; exact ⟨now, src, .disc4, rfl, rfl, rfl, rfl⟩
  | ping now src code =>
    cases hd; exact ⟨now, src, .ping code, rfl, rfl, by simp [fitsLen, tagPing], rfl⟩
  | disc10 now src code =>
    cases hd; exact ⟨now, src, .disc10 code, rfl, rfl, by simp [fitsLen, tagDisc], rfl⟩
  | m17Rx now src frame =>
    cases hd; exact ⟨now, src, .m17 frame, rfl, rfl, by simp [fitsLen, Config.m17Len], rfl⟩
  | dgUnknown now src d =>
    cases hd
    obtain ⟨hfits, hunknown⟩ := Bool.and_eq_true_iff.mp hw
    exact ⟨now, src, .unknown d, rfl, ⟨rfl, hunknown⟩, hfits, rfl⟩
  | _ => cases hd

/-- Settles O55: a command by its readers, a datagram row by the `UDP_RX` that carries what presents it. -/
theorem decodeInvertsEncode : Obligations.DecodeInvertsEncode := by
  intro i hw
  cases hd : datagramBytes i with
  | none => exact decode_encode hw hd
  | some d =>
    obtain ⟨now, src, x, rfl, hx, hfits, henc⟩ := exists_row_of_datagramBytes hw hd
    exact ⟨now, src, by rw [henc, decode_udpRxBytes now src hfits], decodeDatagram_eq_iff.mpr hx⟩

/-! ## Commands, from the bytes to the operation -/

section
variable {β : Type} {l : List Byte} {b : β}

/-- A coded operand that was read stands there under its code, and the rest was read after it. -/
theorem of_readCoded_bind {α : Type} {name : String} {f : Byte → Option α} {code : α → Byte}
    (hcode : ∀ {y x}, f y = some x → y = code x) {k : α × List Byte → Except DecodeError β}
    (h : (readCoded name f l >>= k) = .ok b) : ∃ x r, l = code x :: r ∧ k (x, r) = .ok b := by
  obtain ⟨⟨x, r⟩, hread, hk⟩ := bind_eq_ok h
  obtain ⟨y, rfl, hy⟩ := readCoded_eq_ok hread
  exact ⟨x, r, by rw [hcode hy], hk⟩

theorem of_readByte_bind {k : Byte × List Byte → Except DecodeError β} (h : (readByte l >>= k) = .ok b) :
    ∃ x r, l = x :: r ∧ k (x, r) = .ok b := by
  obtain ⟨⟨x, r⟩, hread, hk⟩ := bind_eq_ok h
  exact ⟨x, r, readByte_eq_ok hread, hk⟩

theorem of_readBytes_bind {n : Nat} {k : Bytes n × List Byte → Except DecodeError β}
    (h : (readBytes n l >>= k) = .ok b) : ∃ x r, l = x.toList ++ r ∧ k (x, r) = .ok b := by
  obtain ⟨⟨x, r⟩, hread, hk⟩ := bind_eq_ok h
  exact ⟨x, r, readBytes_eq_ok hread, hk⟩

theorem of_readHalf_bind {k : Half × List Byte → Except DecodeError β} (h : (readHalf l >>= k) = .ok b) :
    ∃ v r, l = (be16 v).toList ++ r ∧ k (v, r) = .ok b := by
  obtain ⟨⟨v, r⟩, hread, hk⟩ := bind_eq_ok h
  exact ⟨v, r, readHalf_eq_ok hread, hk⟩

theorem of_readCode_bind {k : Code × List Byte → Except DecodeError β} (h : (readCode l >>= k) = .ok b) :
    ∃ v r, l = (be48 v).toList ++ r ∧ k (v, r) = .ok b := by
  obtain ⟨⟨v, r⟩, hread, hk⟩ := bind_eq_ok h
  exact ⟨v, r, readCode_eq_ok hread, hk⟩

theorem of_readTime_bind {k : Time × List Byte → Except DecodeError β} (h : (readTime l >>= k) = .ok b) :
    ∃ v r, l = (be64 v).toList ++ r ∧ k (v, r) = .ok b := by
  obtain ⟨⟨v, r⟩, hread, hk⟩ := bind_eq_ok h
  exact ⟨v, r, readTime_eq_ok hread, hk⟩

theorem of_readCounted_bind {k : List Byte × List Byte → Except DecodeError β} (h : (readCounted l >>= k) = .ok b) :
    ∃ d r, l = (be16 (BitVec.ofNat 16 d.length)).toList ++ (d ++ r) ∧ fitsLen d = true ∧ k (d, r) = .ok b := by
  obtain ⟨⟨d, r⟩, hread, hk⟩ := bind_eq_ok h
  obtain ⟨hl, hfits⟩ := readCounted_eq_ok hread
  exact ⟨d, r, hl, hfits, hk⟩

end

/-- Where nothing but the operation `j` was left to answer, it is the answer, and its encoding ends there. -/
theorem encode_of_finish {b r : List Byte} {i j : Instr} (h : finish r j = .ok i) (hw : j.wf = true)
    (henc : r = [] → encode j = .cmd b) : i.wf = true ∧ encode i = .cmd b := by
  obtain ⟨hr, rfl⟩ := finish_eq_ok h
  exact ⟨hw, henc hr⟩

/-- What the operand decoder reads is well-formed, and its encoding is the bytes read (R93, R96). -/
theorem encode_of_decodeOperands {opc : Byte} {l : List Byte} {i : Instr} (h : decodeOperands opc l = .ok i) :
    i.wf = true ∧ encode i = .cmd (opc :: l) := by
  unfold decodeOperands at h
  split at h
  rotate_right
  · cases h
  all_goals obtain rfl := byte_eq_of_toNat ‹opc.toNat = _›
  · exact encode_of_finish h rfl (by rintro rfl; rfl)
  · obtain ⟨dest, r, rfl, h1⟩ := of_readCoded_bind Dest.code_of_ofCode h
    obtain ⟨ur, r, rfl, h2⟩ := of_readBytes_bind h1
    obtain ⟨sid, r, rfl, h3⟩ := of_readHalf_bind h2
    exact encode_of_finish h3 rfl (by rintro rfl; simp [encode])
  · exact encode_of_finish h rfl (by rintro rfl; rfl)
  · exact encode_of_finish h rfl (by rintro rfl; rfl)
  · obtain ⟨source, r, rfl, h1⟩ := of_readCoded_bind RxSource.code_of_ofCode h
    obtain ⟨pkt, r, rfl, h2⟩ := of_readBytes_bind h1
    exact encode_of_finish h2 rfl (by rintro rfl; simp [encode])
  · exact encode_of_finish h rfl (by rintro rfl; rfl)
  · exact encode_of_finish h rfl (by rintro rfl; rfl)
  · obtain ⟨reg, r, rfl, h1⟩ := of_readCoded_bind CfgReg.code_of_ofCode h
    obtain ⟨val, r, rfl, h2⟩ := of_readBytes_bind h1
    exact encode_of_finish h2 rfl (by rintro rfl; simp [encode])
  · obtain ⟨dest, r, rfl, h1⟩ := of_readCoded_bind Dest.code_of_ofCode h
    exact encode_of_finish h1 rfl (by rintro rfl; simp [encode])
  · obtain ⟨idx, r, rfl, h1⟩ := of_readCoded_bind indexCode_of_indexOfCode h
    obtain ⟨str, r, rfl, h2⟩ := of_readBytes_bind h1
    exact encode_of_finish h2 rfl (by rintro rfl; simp [encode])
  · obtain ⟨idx, r, rfl, h1⟩ := of_readCoded_bind indexCode_of_indexOfCode h
    obtain ⟨code, r, rfl, h2⟩ := of_readCode_bind h1
    exact encode_of_finish h2 rfl (by rintro rfl; simp [encode])
  · obtain ⟨idx, r, rfl, h1⟩ := of_readCoded_bind indexCode_of_indexOfCode h
    exact encode_of_finish h1 rfl (by rintro rfl; simp [encode])
  · obtain ⟨a, r, rfl, h1⟩ := of_readCoded_bind indexCode_of_indexOfCode h
    obtain ⟨b, r, rfl, h2⟩ := of_readCoded_bind indexCode_of_indexOfCode h1
    exact encode_of_finish h2 rfl (by rintro rfl; simp [encode])
  · obtain ⟨s0, r, rfl, h1⟩ := of_readCoded_bind flagCode_of_flagOfCode h
    obtain ⟨s1, r, rfl, h2⟩ := of_readCoded_bind flagCode_of_flagOfCode h1
    obtain ⟨ch, r, rfl, h3⟩ := of_readCoded_bind flagCode_of_flagOfCode h2
    exact encode_of_finish h3 rfl (by rintro rfl; simp [encode])
  · obtain ⟨now, r, rfl, h1⟩ := of_readTime_bind h
    obtain ⟨code, r, rfl, h2⟩ := of_readCode_bind h1
    obtain ⟨modByte, r, rfl, h3⟩ := of_readByte_bind h2
    exact encode_of_finish h3 rfl (by rintro rfl; simp [encode])
  · obtain ⟨now, r, rfl, h1⟩ := of_readTime_bind h
    exact encode_of_finish h1 rfl (by rintro rfl; simp [encode])
  · obtain ⟨st, r, rfl, h1⟩ := of_readCoded_bind DevStatus.code_of_ofCode h
    obtain ⟨pcm, r, rfl, h2⟩ := of_readBytes_bind h1
    exact encode_of_finish h2 rfl (by rintro rfl; simp [encode])
  · obtain ⟨now, r, rfl, h1⟩ := of_readTime_bind h
    obtain ⟨sock, r, rfl, h2⟩ := of_readCoded_bind sockCode_of_sockOfCode h1
    obtain ⟨addr, r, rfl, h3⟩ := of_readCode_bind h2
    obtain ⟨d, r, rfl, hfits, h4⟩ := of_readCounted_bind h3
    exact encode_of_finish h4 hfits (by rintro rfl; simp [encode, udpRxBytes])
  · obtain ⟨now, r, rfl, h1⟩ := of_readTime_bind h
    obtain ⟨m, r, rfl, hfits, h2⟩ := of_readCounted_bind h1
    exact encode_of_finish h2 hfits (by rintro rfl; simp [encode])
  · obtain ⟨now, r, rfl, h1⟩ := of_readTime_bind h
    exact encode_of_finish h1 rfl (by rintro rfl; simp [encode])
  · exact encode_of_finish h rfl (by rintro rfl; rfl)
  · exact encode_of_finish h rfl (by rintro rfl; rfl)
  · exact encode_of_finish h rfl (by rintro rfl; rfl)
  · exact encode_of_finish h rfl (by rintro rfl; rfl)
  · exact encode_of_finish h rfl (by rintro rfl; rfl)
  · exact encode_of_finish h rfl (by rintro rfl; rfl)
  · exact encode_of_finish h rfl (by rintro rfl; rfl)

/-- Settles O56: opcode and operands as they stood. -/
theorem everyDecodedCommandIsItsOwnEncoding : Obligations.EveryDecodedCommandIsItsOwnEncoding := by
  intro b i h
  cases b with
  | nil => cases h
  | cons opc l => exact encode_of_decodeOperands h

end Sys2Proof

/-! Rules over all operations (10_state.md R28, R36, R45, R46; 20_memory.md R69; 60_exceptions.md R300): what each
effect of `Laws/Effects.lean` leaves unchanged, and what it logs. -/

namespace Sys2Proof.Machine

/-! ## The pipeline under the gateway -/

/-- The fields of the pipeline, of the codec and of the host's commands are the same. -/
structure SamePipeline (s t : State) : Prop where
  queues     : t.queues = s.queues
  run        : t.run = s.run
  hold       : t.hold = s.hold
  cfg        : t.cfg = s.cfg
  tx         : t.tx = s.tx
  seq        : t.seq = s.seq
  hdrPending : t.hdrPending = s.hdrPending
  rx         : t.rx = s.rx
  vocOpen    : t.vocOpen = s.vocOpen
  cs         : t.cs = s.cs
  gwRun      : t.gwRun = s.gwRun

theorem SamePipeline.trans {s t u : State} (h : SamePipeline s t) (h' : SamePipeline t u) : SamePipeline s u :=
  ⟨h'.queues.trans h.queues, h'.run.trans h.run, h'.hold.trans h.hold, h'.cfg.trans h.cfg, h'.tx.trans h.tx,
    h'.seq.trans h.seq, h'.hdrPending.trans h.hdrPending, h'.rx.trans h.rx, h'.vocOpen.trans h.vocOpen,
    h'.cs.trans h.cs, h'.gwRun.trans h.gwRun⟩

theorem samePipeline_toUnlinked (release : Bool) (s : State) : SamePipeline s (toUnlinked release s) := by
  constructor <;> simp

theorem LinkEffect.samePipeline {now : Time} {s t : State} (h : LinkEffect now s t) : SamePipeline s t := by
  cases h with
  | unlinked release _ => exact samePipeline_toUnlinked release s
  | _ => exact ⟨rfl, rfl, rfl, rfl, rfl, rfl, rfl, rfl, rfl, rfl, rfl⟩

/-- A gateway operation is three effects of the gateway; none touches the pipeline. -/
theorem samePipeline_of_linkEffects {now : Time} {s a b t : State} (h1 : LinkEffect now { s with lastNow := now } a)
    (h2 : LinkEffect now a b) (h3 : LinkEffect now b t) : SamePipeline s t :=
  have hnow : SamePipeline s { s with lastNow := now } := ⟨rfl, rfl, rfl, rfl, rfl, rfl, rfl, rfl, rfl, rfl, rfl⟩
  ((hnow.trans h1.samePipeline).trans h2.samePipeline).trans h3.samePipeline

theorem agentOf_qPush_ne_gw (q : QueueId) (e : Elem) : agentOf (.qPush q e) ≠ some .gw := by
  cases q <;> simp [agentOf]

theorem agentOf_qPop_ne_gw (q : QueueId) : agentOf (.qPop q) ≠ some .gw := by
  cases q <;> simp [agentOf]

/-- Settles O52: an operation of the gateway changes nothing or has three effects of the gateway; no other effect is
of the agent GW. -/
theorem gatewayOperationsLeaveThePipelineAlone : Obligations.GatewayOperationsLeaveThePipelineAlone := by
  intro i s t hgw hexec
  have same : SamePipeline s t := by
    cases exec_effect hexec with
    | none _ => exact ⟨rfl, rfl, rfl, rfl, rfl, rfl, rfl, rfl, rfl, rfl, rfl⟩
    | gateway _ _ now _ a b h1 h2 h3 => exact samePipeline_of_linkEffects h1 h2 h3
    | qPush => exact absurd hgw (agentOf_qPush_ne_gw _ _)
    | qPop => exact absurd hgw (agentOf_qPop_ne_gw _)
    | _ => cases hgw
  exact ⟨same.queues, same.run, same.hold, same.cfg, same.tx, same.seq, same.hdrPending, same.rx, same.vocOpen,
    same.cs, same.gwRun⟩

/-! ## Registers and the operations that write them -/

section
variable {i : Instr} {s t : State}

theorem Effect.gatewayRegs_eq (h : Effect s i t) (hi : i ≠ .reset) (hgw : agentOf i ≠ some .gw) :
    t.link = s.link ∧ t.relay = s.relay := by
  cases h with
  | reset => exact absurd rfl hi
  | gateway h => exact absurd h hgw
  | _ => exact ⟨rfl, rfl⟩

theorem Effect.cs_eq (h : Effect s i t) (hi : i ≠ .reset) (henc : ∀ idx str, i ≠ .csEnc idx str)
    (hload : ∀ idx c, i ≠ .csLoad idx c) : t.cs = s.cs := by
  cases h with
  | reset => exact absurd rfl hi
  | csEncoded => exact absurd rfl (henc _ _)
  | csLoaded => exact absurd rfl (hload _ _)
  | gateway _ _ now _ a b h1 h2 h3 => exact (samePipeline_of_linkEffects h1 h2 h3).cs
  | _ => rfl

theorem Effect.cfg_eq (h : Effect s i t) (hi : i ≠ .reset) (hcfg : ∀ reg val, i ≠ .cfgWr reg val) : t.cfg = s.cfg := by
  cases h with
  | reset => exact absurd rfl hi
  | cfgWr => exact absurd rfl (hcfg _ _)
  | gateway _ _ now _ a b h1 h2 h3 => exact (samePipeline_of_linkEffects h1 h2 h3).cfg
  | _ => rfl

theorem Effect.tx_eq (h : Effect s i t) (hi : i ≠ .reset) (hstart : ∀ d u n, i ≠ .startTx d u n) : t.tx = s.tx := by
  cases h with
  | reset => exact absurd rfl hi
  | startTx => exact absurd rfl (hstart _ _ _)
  | gateway _ _ now _ a b h1 h2 h3 => exact (samePipeline_of_linkEffects h1 h2 h3).tx
  | _ => rfl

theorem Effect.vocOpen_eq (h : Effect s i t) (hi : i ≠ .reset) (hopen : i ≠ .devOpen) (hclose : i ≠ .devClose) :
    t.vocOpen = s.vocOpen := by
  cases h with
  | reset => exact absurd rfl hi
  | devOpen => exact absurd rfl hopen
  | devClose => exact absurd rfl hclose
  | gateway _ _ now _ a b h1 h2 h3 => exact (samePipeline_of_linkEffects h1 h2 h3).vocOpen
  | _ => rfl

theorem Effect.gwRun_eq (h : Effect s i t) (hi : i ≠ .reset) (hinit : ∀ a b c, i ≠ .gwInit a b c) :
    t.gwRun = s.gwRun := by
  cases h with
  | reset => exact absurd rfl hi
  | gwInit => exact absurd rfl (hinit _ _ _)
  | gateway _ _ now _ a b h1 h2 h3 => exact (samePipeline_of_linkEffects h1 h2 h3).gwRun
  | _ => rfl

end

/-- Settles O51: one law per family of registers. -/
theorem registersAreWrittenOnlyByTheirOwnOperations : Obligations.RegistersAreWrittenOnlyByTheirOwnOperations := by
  intro i s t hi hexec
  have h := exec_effect hexec
  exact ⟨h.gatewayRegs_eq hi, h.cs_eq hi, h.cfg_eq hi, h.tx_eq hi, h.vocOpen_eq hi, h.gwRun_eq hi⟩

/-! ## The error register -/

/-- `ERRSTAT` after the events `es`, each `LOG` setting its bit (R300). -/
def errAfter (e : Half) (es : List Event) : Half :=
  es.foldl (fun e ev => match ev with | .log c => setErr e c | _ => e) e

/-- Setting a bit clears none. -/
theorem and_setErr (e : Half) (c : ErrCode) : e &&& setErr e c = e := by
  apply BitVec.eq_of_getLsbD_eq
  intro k _
  rw [setErr, BitVec.getLsbD_and, BitVec.getLsbD_or]
  cases e.getLsbD k <;> rfl

theorem errAfter_append (e : Half) (es es' : List Event) : errAfter e (es ++ es') = errAfter (errAfter e es) es' :=
  List.foldl_append

/-- No event clears a bit. -/
theorem and_errAfter (e : Half) (es : List Event) : e &&& errAfter e es = e := by
  induction es generalizing e with
  | nil => exact BitVec.and_self
  | cons ev es ih =>
    have hstep : ∀ e', e &&& e' = e → e &&& errAfter e' es = e := by
      intro e' he
      rw [← he, BitVec.and_assoc, ih e']
    cases ev with
    | log c => exact hstep _ (and_setErr e c)
    | _ => exact hstep _ BitVec.and_self

/-- What was emitted from `s` to `t` logs exactly the errors that `t` has more (R45, R300). -/
def ErrorsLogged (s t : State) : Prop := ∃ es, Emitted s t es ∧ t.errstat = errAfter s.errstat es

theorem ErrorsLogged.trans {s t u : State} (h : ErrorsLogged s t) (h' : ErrorsLogged t u) : ErrorsLogged s u := by
  obtain ⟨es, he, herr⟩ := h
  obtain ⟨es', he', herr'⟩ := h'
  exact ⟨es ++ es', by rw [Emitted, he', he, List.append_assoc], by rw [herr', herr, errAfter_append]⟩

/-- Nothing emitted and no error. -/
theorem ErrorsLogged.of_same {s t : State} (htrace : t.trace = s.trace) (herr : t.errstat = s.errstat) :
    ErrorsLogged s t :=
  ⟨[], by rw [Emitted, htrace, List.append_nil], herr⟩

theorem LinkEffect.errorsLogged {now : Time} {s t : State} (h : LinkEffect now s t) : ErrorsLogged s t := by
  cases h with
  | none => exact .of_same rfl rfl
  | logged c => exact ⟨[.log c], rfl, rfl⟩
  | linked => exact .of_same rfl rfl
  | unlinked release _ =>
    cases release with
    | false => exact .of_same rfl rfl
    | true => exact ⟨[.routeRelease s.link.target], rfl, rfl⟩
  | _ => exact ⟨[_], rfl, rfl⟩

theorem Effect.errorsLogged {i : Instr} {s t : State} (h : Effect s i t) (hi : i ≠ .reset) : ErrorsLogged s t := by
  cases h with
  | reset => exact absurd rfl hi
  | gateway _ _ now _ a b h1 h2 h3 =>
    have hfirst : ErrorsLogged s { s with lastNow := now } := .of_same rfl rfl
    exact ((hfirst.trans h1.errorsLogged).trans h2.errorsLogged).trans h3.errorsLogged
  | captureError => exact ⟨[.log _], rfl, rfl⟩
  | rxLogged c => exact ⟨[.log c], rfl, rfl⟩
  | oqPop | csEncoded | csLoaded | csDec | csEq | gwInit | enciSent | deciSent | played => exact ⟨[_], rfl, rfl⟩
  | enciClosed | encoClosed | deciClosed | decoClosed | encoFailed | decoFailed => exact ⟨[.log _], rfl, rfl⟩
  | csEncInvalid | csLoadInvalid | gwInitFailed =>
    exact ⟨[.log _, _], List.append_assoc _ [_] [_], rfl⟩
  | enciFailed | deciFailed | playFailed => exact ⟨[_, .log _], List.append_assoc _ [_] [_], rfl⟩
  | _ => exact .of_same rfl rfl

/-- Settles O50: every effect logs what it sets, and logging clears nothing. -/
theorem errorBitsAreStickyAndEachIsLogged : Obligations.ErrorBitsAreStickyAndEachIsLogged := by
  intro i s t hi hexec
  obtain ⟨es, hes, herr⟩ := (exec_effect hexec).errorsLogged hi
  exact ⟨by rw [herr, and_errAfter], es, hes, herr⟩

end Sys2Proof.Machine

/-! When a stage stops (10_state.md R28), and the order of the tags along the stages (41_sequencer.md R155,
40_queue.md R126). -/

namespace Sys2Proof.Machine

/-! ## What stops a stage -/

/-- The stages with a run bit (R28). -/
inductive Stage where
  | cap | enci | enco | fr | deci | deco | play

/-- The run bit of a stage. -/
def RunBits.bit (r : RunBits) : Stage → Bool
  | .cap => r.cap
  | .enci => r.enci
  | .enco => r.enco
  | .fr => r.fr
  | .deci => r.deci
  | .deco => r.deco
  | .play => r.play

/-- The operation is the stage's own, on the frame with the end marker or, for a vocoder stage, with the vocoder not
open. -/
def StopsOn (i : Instr) (s : State) : Stage → Prop
  | .cap => (∃ pcm, i = .capTick .ok pcm) ∧ s.seq.stopReq = true
  | .enci => i = .enciStep ∧ ∃ f, s.hold.enci = some f ∧ (endMark f.tag = true ∨ s.vocOpen = false)
  | .enco => i = .encoStep ∧
    ((∃ f, s.hold.enco = some f ∧ endMark f.tag = true) ∨
      s.hold.enco = none ∧ ∃ tag l, s.queues.sqTx = tag :: l ∧ (endMark tag = true ∨ s.vocOpen = false))
  | .fr => i = .frVoice ∧ ∃ f, s.hold.fr = some f ∧ endMark f.tag = true
  | .deci => i = .deciStep ∧ ∃ f, s.hold.deci = some f ∧ (endMark f.tag = true ∨ s.vocOpen = false)
  | .deco => i = .decoStep ∧
    ((∃ f, s.hold.deco = some f ∧ endMark f.tag = true) ∨
      s.hold.deco = none ∧ ∃ tag l, s.queues.sqRx = tag :: l ∧ (endMark tag = true ∨ s.vocOpen = false))
  | .play => i = .playStep ∧ ∃ f l, s.queues.aqRx = f :: l ∧ endMark f.tag = true

/-- A run bit that a step left as it was but for the end marker fell on the end marker. -/
theorem endMark_of_and_not {run : Bool} {tag : Tag} (hrun : run = true) (h : (run && !endMark tag) = false) :
    endMark tag = true := by
  simpa [hrun] using h

/-- A stage whose run bit an effect clears was stopped by its own cause. -/
theorem Effect.stopsOn {i : Instr} {s t : State} (h : Effect s i t) (hi : i ≠ .reset) (g : Stage)
    (hrun : s.run.bit g = true) (hstop : t.run.bit g = false) : StopsOn i s g := by
  cases h with
  | reset => exact absurd rfl hi
  | startTx | startPlayback => cases g <;> simp_all [RunBits.bit]
  | rxHeader r hr => obtain rfl | rfl := hr <;> cases g <;> simp_all [RunBits.bit]
  | gateway _ _ now _ a b h1 h2 h3 =>
    rw [(samePipeline_of_linkEffects h1 h2 h3).run, hrun] at hstop
    cases hstop
  | captured =>
    cases g with
    | cap => exact ⟨⟨_, rfl⟩, by simpa [RunBits.bit] using hstop⟩
    | _ => cases hrun.symm.trans hstop
  | enciClosed f _ hh hv =>
    cases g with
    | enci => exact ⟨rfl, f, hh, .inr hv⟩
    | _ => cases hrun.symm.trans hstop
  | enciSent f hr hh | enciFailed f hr hh =>
    cases g with
    | enci => exact ⟨rfl, f, hh, .inl (endMark_of_and_not hr hstop)⟩
    | _ => cases hrun.symm.trans hstop
  | encoClosed tag l _ hh hq hv =>
    cases g with
    | enco => exact ⟨rfl, .inr ⟨hh, tag, l, hq, .inr hv⟩⟩
    | _ => cases hrun.symm.trans hstop
  | encoFailed tag l hr hh hq =>
    cases g with
    | enco => exact ⟨rfl, .inr ⟨hh, tag, l, hq, .inl (endMark_of_and_not hr hstop)⟩⟩
    | _ => cases hrun.symm.trans hstop
  | encoPut f hr hh =>
    cases g with
    | enco => exact ⟨rfl, .inl ⟨f, hh, endMark_of_and_not hr hstop⟩⟩
    | _ => cases hrun.symm.trans hstop
  | deciClosed f _ hh hv =>
    cases g with
    | deci => exact ⟨rfl, f, hh, .inr hv⟩
    | _ => cases hrun.symm.trans hstop
  | deciSent f hr hh | deciFailed f hr hh =>
    cases g with
    | deci => exact ⟨rfl, f, hh, .inl (endMark_of_and_not hr hstop)⟩
    | _ => cases hrun.symm.trans hstop
  | decoClosed tag l _ hh hq hv =>
    cases g with
    | deco => exact ⟨rfl, .inr ⟨hh, tag, l, hq, .inr hv⟩⟩
    | _ => cases hrun.symm.trans hstop
  | decoFailed tag l hr hh hq =>
    cases g with
    | deco => exact ⟨rfl, .inr ⟨hh, tag, l, hq, .inl (endMark_of_and_not hr hstop)⟩⟩
    | _ => cases hrun.symm.trans hstop
  | decoPut f hr hh =>
    cases g with
    | deco => exact ⟨rfl, .inl ⟨f, hh, endMark_of_and_not hr hstop⟩⟩
    | _ => cases hrun.symm.trans hstop
  | played f l hr hq | playFailed f l hr hq =>
    cases g with
    | play => exact ⟨rfl, f, l, hq, endMark_of_and_not hr hstop⟩
    | _ => cases hrun.symm.trans hstop
  | frPut f hr hh =>
    cases g with
    | fr => exact ⟨rfl, f, hh, endMark_of_and_not hr hstop⟩
    | _ => cases hrun.symm.trans hstop
  | _ => cases hrun.symm.trans hstop

/-- Settles O16. -/
theorem stagesStopOnlyOnTheEndMarkerOrAClosedVocoder : Obligations.StagesStopOnlyOnTheEndMarkerOrAClosedVocoder := by
  intro i s t hi hexec
  have h := (exec_effect hexec).stopsOn hi
  exact ⟨h .cap, h .enci, h .enco, h .fr, h .deci, h .deco, h .play⟩

/-! ## Tags on the transmit side -/

theorem voiceTags_append (l l' : List WirePacket) : voiceTags (l ++ l') = voiceTags l ++ voiceTags l' := by
  simp [voiceTags]

/-- A header packet carries no tag. -/
theorem voiceTags_mkHeader (s : State) : voiceTags [mkHeader s] = [] := by
  obtain ⟨-, hconfig, -⟩ := mkHeader_fields s
  simp [voiceTags, hconfig, Config.cfgHdr, Config.cfgVoice]

/-- A voice packet carries the tag it was built with. -/
theorem voiceTags_mkVoice (sid : Half) (payload : Bytes 9) (tag : Tag) : voiceTags [mkVoice sid payload tag] = [tag] := by
  obtain ⟨-, hconfig, -, -, -, hcontrol, -⟩ := mkVoice_fields sid payload tag
  simp [voiceTags, hconfig, hcontrol]

/-- The line of tags lost the tag `x`, and the step logged why. -/
def DropsOneTag (line line' : List Tag) (s t : State) : Prop :=
  ∃ a x b c, line = a ++ x :: b ∧ line' = a ++ b ∧ (c = .devIo ∨ c = .notOpen) ∧ ∃ es, Emitted s t (es ++ [.log c])

theorem enciStep_keeps_order {s t : State} (h : Effect s .enciStep t) :
    transmitLine t = transmitLine s ∨ DropsOneTag (transmitLine s) (transmitLine t) s t := by
  have line : ∀ f, s.hold.enci = some f → transmitLine s =
      (voiceTags (s.queues.oq s.tx.dest) ++ compTag s.hold.fr ++ s.queues.cqTx.map CompressedFrame.tag ++
        compTag s.hold.enco ++ s.queues.sqTx) ++ f.tag :: s.queues.aqTx.map AudioFrame.tag := by
    intro f hh
    simp [transmitLine, hh, audioTag]
  cases h with
  | none => exact .inl rfl
  | gateway hgw => cases hgw
  | enciTake f l _ hh hq => exact .inl (by simp [transmitLine, hh, hq, audioTag, Queues.oq])
  | enciSent f _ hh => exact .inl (by simp [transmitLine, hh, audioTag, Queues.oq])
  | enciClosed f _ hh =>
    exact .inr ⟨_, f.tag, _, .notOpen, line f hh, by simp [transmitLine, audioTag], .inr rfl, [], rfl⟩
  | enciFailed f _ hh =>
    exact .inr ⟨_, f.tag, _, .devIo, line f hh, by simp [transmitLine, audioTag], .inl rfl, [_],
      List.append_assoc _ [_] [_]⟩

theorem encoStep_keeps_order {s t : State} (h : Effect s .encoStep t) :
    transmitLine t = transmitLine s ∨ DropsOneTag (transmitLine s) (transmitLine t) s t := by
  cases h with
  | none => exact .inl rfl
  | gateway hgw => cases hgw
  | encoClosed => exact .inl rfl
  | encoTaken tag l _ hh hq => exact .inl (by simp [transmitLine, hh, hq, compTag, Queues.oq])
  | encoPut f _ hh => exact .inl (by simp [transmitLine, hh, compTag, Queues.oq])
  | encoFailed tag l _ hh hq =>
    refine .inr ⟨voiceTags (s.queues.oq s.tx.dest) ++ compTag s.hold.fr ++ s.queues.cqTx.map CompressedFrame.tag,
      tag, l ++ audioTag s.hold.enci ++ s.queues.aqTx.map AudioFrame.tag, .devIo, ?_, ?_, .inl rfl, [], rfl⟩
    · simp [transmitLine, hh, hq, compTag]
    · simp [transmitLine, hh, compTag, Queues.oq]

theorem framer_keeps_order {i : Instr} {s t : State} (hi : i = .frHdr ∨ i = .frVoice) (h : Effect s i t) :
    transmitLine t = transmitLine s := by
  obtain rfl | rfl := hi
  · cases h with
    | none => rfl
    | gateway hgw => cases hgw
    | frHdr => simp [transmitLine, voiceTags_append, voiceTags_mkHeader]
  · cases h with
    | none => rfl
    | gateway hgw => cases hgw
    | frTake f l _ hh _ hq => simp [transmitLine, hh, hq, compTag, Queues.oq]
    | frPut f _ hh => simp [transmitLine, hh, compTag, voiceTags_append, voiceTags_mkVoice]

/-- Settles O14: the stages one by one; only ENCI and ENCO can drop a tag. -/
theorem transmitStagesKeepEveryTagInOrder : Obligations.TransmitStagesKeepEveryTagInOrder := by
  intro i s t hi hexec
  have h := exec_effect hexec
  obtain rfl | rfl | hi := hi
  · exact enciStep_keeps_order h
  · exact encoStep_keeps_order h
  · exact .inl (framer_keeps_order hi h)

/-! ## Tags on the receive side -/

theorem deciStep_keeps_order {s t : State} (h : Effect s .deciStep t) :
    receiveLine t = receiveLine s ∨ DropsOneTag (receiveLine s) (receiveLine t) s t := by
  have line : ∀ f, s.hold.deci = some f → receiveLine s =
      (s.queues.aqRx.map AudioFrame.tag ++ audioTag s.hold.deco ++ s.queues.sqRx) ++
        f.tag :: s.queues.cqRx.map CompressedFrame.tag := by
    intro f hh
    simp [receiveLine, hh, compTag]
  cases h with
  | none => exact .inl rfl
  | gateway hgw => cases hgw
  | deciTake f l _ hh hq => exact .inl (by simp [receiveLine, hh, hq, compTag])
  | deciSent f _ hh => exact .inl (by simp [receiveLine, hh, compTag])
  | deciClosed f _ hh =>
    exact .inr ⟨_, f.tag, _, .notOpen, line f hh, by simp [receiveLine, compTag], .inr rfl, [], rfl⟩
  | deciFailed f _ hh =>
    exact .inr ⟨_, f.tag, _, .devIo, line f hh, by simp [receiveLine, compTag], .inl rfl, [_],
      List.append_assoc _ [_] [_]⟩

theorem decoStep_keeps_order {s t : State} (h : Effect s .decoStep t) :
    receiveLine t = receiveLine s ∨ DropsOneTag (receiveLine s) (receiveLine t) s t := by
  cases h with
  | none => exact .inl rfl
  | gateway hgw => cases hgw
  | decoClosed => exact .inl rfl
  | decoTaken tag l _ hh hq => exact .inl (by simp [receiveLine, hh, hq, audioTag])
  | decoPut f _ hh => exact .inl (by simp [receiveLine, hh, audioTag])
  | decoFailed tag l _ hh hq =>
    refine .inr ⟨s.queues.aqRx.map AudioFrame.tag, tag, l ++ compTag s.hold.deci ++
      s.queues.cqRx.map CompressedFrame.tag, .devIo, ?_, ?_, .inl rfl, [], rfl⟩
    · simp [receiveLine, hh, hq, audioTag]
    · simp [receiveLine, hh, audioTag]

/-- `PLAY_STEP` takes the head of the line, and puts that frame to the device. -/
theorem playStep_takes_head {s t : State} (h : Effect s .playStep t) :
    t = s ∨ ∃ (f : AudioFrame) (es : List Event), s.queues.aqRx = f :: t.queues.aqRx ∧
      receiveLine s = f.tag :: receiveLine t ∧ Emitted s t (.playPut f.pcm :: es) := by
  cases h with
  | none => exact .inl rfl
  | gateway hgw => cases hgw
  | played f l _ hq => exact .inr ⟨f, [], hq, by simp [receiveLine, hq], rfl⟩
  | playFailed f l _ hq =>
    exact .inr ⟨f, [.log .devIo], hq, by simp [receiveLine, hq], List.append_assoc _ [_] [_]⟩

/-- Settles O15. -/
theorem receiveStagesKeepEveryTagInOrder : Obligations.ReceiveStagesKeepEveryTagInOrder := by
  refine ⟨fun i s t hi hexec => ?_, fun s t hexec => playStep_takes_head (exec_effect hexec)⟩
  have h := exec_effect hexec
  obtain rfl | rfl := hi
  · exact deciStep_keeps_order h
  · exact decoStep_keeps_order h

end Sys2Proof.Machine

/-! The queue ports, the outbound pops and the FIFO law (40_queue.md R122 to R126, R130), the header step
(42_framer.md R186), and the sequencer (41_sequencer.md R149, R157). -/

namespace Sys2Proof.Machine

/-! ## Queue ports -/

/-- A push of an element of the queue's type is held exactly on a full queue (R122). -/
theorem queuePush_eq_none_iff {s : State} {q : QueueId} {e : Elem} (he : e.fits q = true) :
    queuePush s q e = none ↔ qFull q (s.queues.elems q) = true := by
  cases q <;> cases e <;> simp_all [Elem.fits, queuePush, Queues.elems]

/-- A pop is held exactly on an empty queue (R123). -/
theorem queuePop_eq_none_iff {s : State} {q : QueueId} : queuePop s q = none ↔ s.queues.elems q = [] := by
  cases q <;> simp [queuePop, Queues.elems, qPop_eq_none]

theorem exec_qPush {q : QueueId} {e : Elem} (s : State) (he : e.fits q = true) :
    exec (.qPush q e) s = orHeld s (queuePush s q e) := by
  change execQPush q e s = _
  rw [execQPush, if_pos he]

theorem exec_qPop (q : QueueId) (s : State) : exec (.qPop q) s = orHeld s (queuePop s q) := rfl

/-- Settles O19: the three port operations by what they can do, and when they are held. -/
theorem queuePortOperationsActOnTheirQueueAlone : Obligations.QueuePortOperationsActOnTheirQueueAlone := by
  refine ⟨fun _ _ => rfl, ?push, ?pushHeld, ?pop, ?popHeld, ?clear⟩
  case push =>
    intro q e s he hroom
    rw [exec_qPush s he]
    cases hpush : queuePush s q e with
    | none => rw [(queuePush_eq_none_iff he).mp hpush] at hroom; cases hroom
    | some t =>
      obtain ⟨-, helems, hother, ht⟩ := queuePush_cases hpush
      exact ⟨t, rfl, helems, hother, ht⟩
  case pushHeld =>
    intro q e s he
    cases hfull : qFull q (s.queues.elems q) with
    | false => exact .inr rfl
    | true => exact .inl (by rw [exec_qPush s he, (queuePush_eq_none_iff he).mpr hfull, orHeld_none])
  case pop =>
    intro q e l s hq
    rw [exec_qPop]
    cases hpop : queuePop s q with
    | none => rw [queuePop_eq_none_iff.mp hpop] at hq; cases hq
    | some t =>
      obtain ⟨e', helems, hport, hother, ht⟩ := queuePop_cases hpop
      obtain ⟨rfl, rfl⟩ := List.cons.inj (hq.symm.trans helems)
      exact ⟨t, rfl, rfl, hport, hother, ht⟩
  case popHeld => exact fun q s hq => by rw [exec_qPop, queuePop_eq_none_iff.mpr hq, orHeld_none]
  case clear =>
    intro q s
    obtain ⟨hempty, hother⟩ := clearQueue_cases s.queues q
    exact ⟨_, rfl, hempty, hother, rfl⟩

/-- Settles O20. -/
theorem outboundPopDeliversTheOldestPacket : Obligations.OutboundPopDeliversTheOldestPacket := by
  have hexec : ∀ dest s, exec (.oqPop dest) s = orHeld s (oqPopStep dest s) := fun _ _ => rfl
  refine ⟨?pop, ?held, ?illegal⟩
  case pop =>
    intro dest p l s hq
    have hstep : oqPopStep dest s = some (State.emit { s with queues := s.queues.setOq dest l } (.oqData dest p)) := by
      simp [oqPopStep, hq]
    rw [hexec, hstep]
    exact ⟨_, rfl, setOq_oq _ _ _, fun q hne => setOq_elems_other _ _ _ _ hne, rfl⟩
  case held =>
    intro dest s hq
    rw [hexec, oqPopStep, hq]
    rfl
  case illegal =>
    intro b l hb
    simp [decode, decodeCmd, decodeOperands, readCoded_illegal (Dest.ofCode_illegal hb)]

/-- Settles O21, by induction on the pushes and pops. -/
theorem queuesAreStrictlyFirstInFirstOut : Obligations.QueuesAreStrictlyFirstInFirstOut := by
  intro ops
  induction ops with
  | nil => intro l; simp [queueRun]
  | cons op ops ih =>
    intro l
    cases op with
    | some e => simp [queueRun, ih]
    | none =>
      cases l with
      | nil => simpa [queueRun] using ih []
      | cons e l => simp [queueRun, ih]

/-! ## The header step -/

/-- Settles O25. -/
theorem headerStepPushesTheHeaderOnce : Obligations.HeaderStepPushesTheHeaderOnce := by
  have hexec : ∀ s, exec .frHdr s = orHeld s (frHdrPhase s) := fun _ => rfl
  refine ⟨?put, ?held⟩
  case put =>
    intro s hrun hpending hroom
    have hphase : frHdrPhase s = some { pushOut (mkHeader s) s with hdrPending := false } := by
      have hout : outFull s = false := hroom
      simp [frHdrPhase, hrun, hpending, hout]
    rw [hexec, hphase]
    exact ⟨_, rfl, pushOut_oq _ s, fun q hq => pushOut_elems_other _ s hq, rfl⟩
  case held =>
    intro s disabled
    cases hphase : frHdrPhase s with
    | none => rw [hexec, hphase, orHeld_none]
    | some t =>
      obtain ⟨hrun, hpending, hroom, -⟩ := frHdrPhase_cases hphase
      exact absurd ⟨hrun, hpending, hroom⟩ disabled

/-! ## The sequencer -/

theorem exec_stopTx {s : State} (h : s.run.cap = true) :
    exec .stopTx s = .next { s with seq := ⟨s.seq.count, true⟩ } := by
  change execStopTx s = _
  rw [execStopTx, if_pos h]

theorem exec_capTick_stopped {s : State} (st : DevStatus) (pcm : Pcm) (h : s.run.cap = false) :
    exec (.capTick st pcm) s = .next s := by
  change execCapTick st pcm s = _
  simp [execCapTick, h]

theorem exec_capTick_ioerr {s : State} (pcm : Pcm) (h : s.run.cap = true) :
    exec (.capTick .ioerr pcm) s = .next (s.log .devIo) := by
  change execCapTick .ioerr pcm s = _
  simp [execCapTick, h]

theorem exec_capTick_ok {s : State} (pcm : Pcm) (h : s.run.cap = true) :
    exec (.capTick .ok pcm) s =
      if qFull .aqTx s.queues.aqTx then .refused .captureQueueFull else .next (captureFrame pcm s) := by
  change execCapTick .ok pcm s = _
  simp [execCapTick, h]

theorem execAll_append_next {is js : List Instr} {s t : State} (h : execAll is s = .next t) :
    execAll (is ++ js) s = execAll js t := by
  induction is generalizing s with
  | nil => cases h; rfl
  | cons i is ih =>
    rw [execAll] at h
    rw [List.cons_append, execAll]
    cases hi : exec i s with
    | next u => rw [hi] at h; exact ih h
    | fault r => cases r
    | refused r => rw [hi] at h; cases h

theorem execAll_append_refused {is js : List Instr} {s : State} {r : Refusal} (h : execAll is s = .refused r) :
    execAll (is ++ js) s = .refused r := by
  induction is generalizing s with
  | nil => cases h
  | cons i is ih =>
    rw [execAll] at h
    rw [List.cons_append, execAll]
    cases hi : exec i s with
    | next u => rw [hi] at h; exact ih h
    | fault r => cases r
    | refused r' => rw [hi] at h; exact h

/-- The tag of a frame is its sequence value, with bit 6 set on the last one (R149). -/
theorem mkTag_ofNat : ∀ m < 21, mkTag false (BitVec.ofNat 5 m) = BitVec.ofNat 8 m ∧
    mkTag true (BitVec.ofNat 5 m) = BitVec.ofNat 8 (0x40 + m) := by decide

/-- The count moves on modulo 21 (R149). -/
theorem nextSeq_ofNat (n : Nat) : nextSeq (BitVec.ofNat 5 (n % 21)) = BitVec.ofNat 5 ((n + 1) % 21) := by
  have hlt : n % 21 < 2 ^ 5 := (Nat.mod_lt n (by decide)).trans (by decide)
  rw [nextSeq, BitVec.toNat_ofNat, Nat.mod_eq_of_lt hlt, Config.seqMod, Nat.mod_add_mod]

/-- State `t` is a running capture that has pushed the periods `pcms` since `s`, the first under the sequence
value `n`. -/
structure Captured (n : Nat) (pcms : List Pcm) (s t : State) : Prop where
  run  : t.run.cap = true
  seq  : t.seq = ⟨BitVec.ofNat 5 ((n + pcms.length) % 21), false⟩
  pcm  : t.queues.aqTx.map AudioFrame.pcm = s.queues.aqTx.map AudioFrame.pcm ++ pcms
  tags : t.queues.aqTx.map AudioFrame.tag = s.queues.aqTx.map AudioFrame.tag ++
    (List.range pcms.length).map fun k => BitVec.ofNat 8 ((n + k) % 21)

/-- Good ticks of a running capture push their periods in order, or one finds the queue full and is refused. -/
theorem execAll_capTicks (pcms : List Pcm) : ∀ (n : Nat) (s : State), s.run.cap = true →
    s.seq = ⟨BitVec.ofNat 5 (n % 21), false⟩ →
    (∃ t, execAll (pcms.map (Instr.capTick .ok)) s = .next t ∧ Captured n pcms s t) ∨
      execAll (pcms.map (Instr.capTick .ok)) s = .refused .captureQueueFull := by
  induction pcms with
  | nil => exact fun n s hrun hseq => .inl ⟨s, rfl, hrun, by simpa using hseq, by simp, by simp⟩
  | cons pcm pcms ih =>
    intro n s hrun hseq
    rw [List.map_cons, execAll, exec_capTick_ok pcm hrun]
    cases hfull : qFull .aqTx s.queues.aqTx with
    | true => exact .inr rfl
    | false =>
      have hnext : (captureFrame pcm s).seq = ⟨BitVec.ofNat 5 ((n + 1) % 21), false⟩ := by
        rw [captureFrame_seq, hseq, nextSeq_ofNat]
      rcases ih (n + 1) (captureFrame pcm s) (by simp [hseq]) hnext with ⟨t, ht, hcap⟩ | hrefused
      · refine .inl ⟨t, ht, hcap.run, ?_, ?_, ?_⟩
        · rw [hcap.seq, List.length_cons, Nat.add_assoc, Nat.add_comm 1]
        · rw [hcap.pcm]
          simp
        · obtain ⟨htag, -⟩ := mkTag_ofNat (n % 21) (Nat.mod_lt n (by decide))
          rw [hcap.tags, List.length_cons, List.range_succ_eq_map]
          simp [hseq, htag, Function.comp_def, Nat.add_assoc, Nat.add_comm 1]
      · exact .inr hrefused

/-- Settles O8: the good ticks by `execAll_capTicks`, then the request and the marked frame. -/
theorem sequenceValuesCycleAndOnlyTheLastFrameIsMarked : Obligations.SequenceValuesCycleAndOnlyTheLastFrameIsMarked := by
  intro pcms last s hrun hseq
  rcases execAll_capTicks pcms 0 s hrun hseq with ⟨t, ht, hcap⟩ | hrefused
  · obtain ⟨hrun', hseq', hpcm, htags⟩ := hcap
    rw [Nat.zero_add] at hseq'
    rw [execAll_append_next ht, execAll, exec_stopTx hrun']
    dsimp only
    rw [execAll, exec_capTick_ok last (by exact hrun')]
    cases hfull : qFull .aqTx t.queues.aqTx with
    | true => exact .inr rfl
    | false =>
      obtain ⟨-, hmark⟩ := mkTag_ofNat (pcms.length % 21) (Nat.mod_lt _ (by decide))
      refine .inl ⟨_, rfl, ?_, ?_, rfl, ?_⟩
      · simp [hpcm]
      · simp [htags, hseq', hmark]
      · simp [hseq', nextSeq_ofNat]
  · exact .inr (execAll_append_refused hrefused)

end Sys2Proof.Machine

/-! The CRC-16 (42_framer.md R180 to R184): one step of the register is linear over exclusive or and loses nothing,
and so are the eight steps of a byte. -/

namespace Sys2Proof.Machine

theorem crcBit_of_low_set {c : Half} (h : c.getLsbD 0 = true) : crcBit c = (c >>> 1) ^^^ Config.crcPolyReflected :=
  if_pos h

theorem crcBit_of_low_clear {c : Half} (h : c.getLsbD 0 = false) : crcBit c = c >>> 1 :=
  if_neg (by rw [h]; decide)

theorem crcBit_xor (x y : Half) : crcBit (x ^^^ y) = crcBit x ^^^ crcBit y := by
  unfold crcBit
  rw [BitVec.getLsbD_xor, BitVec.ushiftRight_xor_distrib]
  generalize x >>> 1 = x'
  generalize y >>> 1 = y'
  cases x.getLsbD 0 <;> cases y.getLsbD 0
  · rfl
  · exact BitVec.xor_assoc _ _ _
  · exact (BitVec.xor_assoc _ _ _).trans ((congrArg _ (BitVec.xor_comm _ _)).trans (BitVec.xor_assoc _ _ _).symm)
  · change x' ^^^ y' = (x' ^^^ Config.crcPolyReflected) ^^^ (y' ^^^ Config.crcPolyReflected)
    rw [BitVec.xor_comm y', BitVec.xor_assoc, ← BitVec.xor_assoc Config.crcPolyReflected, BitVec.xor_self,
      BitVec.zero_xor]

/-- A register that one step takes to 0 was 0: the top bit of the next value is the bit shifted out. -/
theorem eq_zero_of_crcBit_eq_zero {z : Half} (h : crcBit z = 0#16) : z = 0#16 := by
  have hlow : z.getLsbD 0 = false := by
    by_contra hset
    have hvalue := crcBit_of_low_set (eq_true_of_ne_false hset)
    have htop : (crcBit z).getLsbD 15 = true := by rw [hvalue]; simp [Config.crcPolyReflected]
    rw [h] at htop
    cases htop
  have hshift : z >>> 1 = 0#16 := by rw [← crcBit_of_low_clear hlow, h]
  apply BitVec.eq_of_getLsbD_eq
  intro k _
  cases k with
  | zero => rw [hlow]; rfl
  | succ k =>
    have hk := congrArg (·.getLsbD k) hshift
    simpa [Nat.add_comm 1 k] using hk

theorem crcBit_injective : Function.Injective crcBit := by
  intro x y hxy
  have hzero : crcBit (x ^^^ y) = 0#16 := by rw [crcBit_xor, hxy, BitVec.xor_self]
  exact BitVec.xor_eq_zero_iff.mp (eq_zero_of_crcBit_eq_zero hzero)

/-! ## Eight steps -/

theorem crcEight_eq_iterate (c : Half) : crcEight c = crcBit^[8] c := rfl

theorem crcEight_xor (x y : Half) : crcEight (x ^^^ y) = crcEight x ^^^ crcEight y := by
  have hiter : ∀ n (x y : Half), crcBit^[n] (x ^^^ y) = crcBit^[n] x ^^^ crcBit^[n] y := by
    intro n
    induction n with
    | zero => exact fun _ _ => rfl
    | succ n ih => exact fun x y => by simp only [Function.iterate_succ, Function.comp_apply, crcBit_xor, ih]
  exact hiter 8 x y

theorem crcEight_injective : Function.Injective crcEight := crcBit_injective.iterate 8

/-- While only zeros are shifted out, the steps are shifts. -/
theorem crcBit_iterate_of_low_zero (n : Nat) :
    ∀ x : Half, (∀ k < n, x.getLsbD k = false) → crcBit^[n] x = x >>> n := by
  induction n with
  | zero => exact fun x _ => (BitVec.ushiftRight_zero x).symm
  | succ n ih =>
    intro x hlow
    have hstep : crcBit x = x >>> 1 := crcBit_of_low_clear (hlow 0 (Nat.zero_lt_succ n))
    have hrest : ∀ k < n, (x >>> 1).getLsbD k = false := by
      intro k hk
      rw [BitVec.getLsbD_ushiftRight]
      exact hlow (1 + k) (by omega)
    rw [Function.iterate_succ, Function.comp_apply, hstep, ih _ hrest, ← BitVec.shiftRight_add, Nat.add_comm]

/-- A register is its low byte and its high byte. -/
theorem split_low_byte (c : Half) (b : Byte) : c ^^^ b.zeroExtend 16 =
    ((c ^^^ b.zeroExtend 16).setWidth 8).zeroExtend 16 ^^^ (c >>> 8) <<< 8 := by
  apply BitVec.eq_of_getLsbD_eq
  intro k hk
  by_cases hk8 : k < 8
  · simp [hk8, hk]
  · have hadd : 8 + (k - 8) = k := by omega
    simp [hk8, hk, hadd, Bool.xor_comm]

/-- One byte by the table is one byte by the eight steps (R181). -/
theorem crcTableByte_eq (c : Half) (b : Byte) : crcTableByte c b = crcByte c b := by
  have hhigh : crcEight ((c >>> 8) <<< 8) = c >>> 8 := by
    rw [crcEight_eq_iterate, crcBit_iterate_of_low_zero 8 _ (by intro k hk; simp [hk])]
    apply BitVec.eq_of_getLsbD_eq
    intro k hk
    by_cases hk8 : 8 + k < 16
    · simp [hk8]
    · simp [hk8, BitVec.getLsbD_of_ge c (8 + k) (by omega)]
  rw [crcByte, split_low_byte, crcEight_xor, hhigh, crcTableByte, crcTable, BitVec.xor_comm]

/-- Settles O22. -/
theorem tableFormOfTheCrcAgreesWithTheBitwiseForm : Obligations.TableFormOfTheCrcAgreesWithTheBitwiseForm := by
  have hbyte : crcTableByte = crcByte := funext₂ crcTableByte_eq
  intro b
  rw [crc16Table, crc16Raw, hbyte]

/-! ## One bit flipped -/

theorem crcByte_injective_left (b : Byte) : Function.Injective (crcByte · b) := by
  intro c c' h
  exact (BitVec.xor_left_inj _).mp (crcEight_injective h)

theorem crcByte_injective_right (c : Half) : Function.Injective (crcByte c) := by
  intro b b' h
  have hext := congrArg (BitVec.setWidth 8) ((BitVec.xor_right_inj _).mp (crcEight_injective h))
  simpa using hext

/-- The bytes that follow never bring two registers together. -/
theorem foldl_crcByte_injective (l : List Byte) : Function.Injective fun c => l.foldl crcByte c := by
  induction l with
  | nil => exact fun _ _ h => h
  | cons b l ih => exact fun c c' h => crcByte_injective_left b (ih h)

/-- Flipping a bit changes a byte. -/
theorem xor_bit_ne (x : Byte) {k : Nat} (hk : k < 8) : x ^^^ (1#8 <<< k) ≠ x := by
  intro h
  have hbit := congrArg (·.getLsbD k) h
  simp [hk] at hbit

/-- Settles O23: the two registers differ after the flipped byte, and no byte after it brings them together. -/
theorem crcDetectsEverySingleBitFlip : Obligations.CrcDetectsEverySingleBitFlip := by
  intro a c x k hk h
  have hraw : crc16Raw (a ++ (x ^^^ (1#8 <<< k)) :: c) = crc16Raw (a ++ x :: c) :=
    (BitVec.xor_left_inj _).mp h
  rw [crc16Raw, crc16Raw, List.foldl_append, List.foldl_append] at hraw
  exact xor_bit_ne x hk (crcByte_injective_right _ (foldl_crcByte_injective c hraw))

end Sys2Proof.Machine

/-! The packets DVQ builds and receives (42_framer.md R185 to R191; 45_relay.md R285): their bytes, their CRC, and
what `RX_PACKET` does with each kind. -/

namespace Sys2Proof.Machine

/-! ## Packets built -/

/-- The last two bytes of a fixed list. -/
theorem drop_eq_slice_two {n k : Nat} (p : Bytes n) (h : k + 2 = n) :
    p.toList.drop k = (p.slice k 2 h.le).toList := by
  have hlen : (p.toList.drop k).length = 2 := by rw [List.length_drop, p.size]; omega
  exact (List.take_of_length_le hlen.le).symm

theorem crcOkWp_mkHeader (s : State) : crcOkWp (mkHeader s) = true := by
  obtain ⟨-, -, -, -, -, -, -, -, -, -, -, hcrc⟩ := mkHeader_fields s
  rw [crcOkWp, hcrc, fromLe16_le16, beq_self_eq_true]

theorem wpStreamId_mkHeader (s : State) : wpStreamId (mkHeader s) = s.tx.sid := by
  obtain ⟨-, -, -, -, hsid, -⟩ := mkHeader_fields s
  rw [wpStreamId, hsid, fromBe16_be16]

theorem wpStreamId_mkVoice (sid : Half) (payload : Bytes 9) (tag : Tag) :
    wpStreamId (mkVoice sid payload tag) = sid := by
  obtain ⟨-, -, -, -, hsid, -⟩ := mkVoice_fields sid payload tag
  rw [wpStreamId, hsid, fromBe16_be16]

/-- Settles O24: the bytes by the builders, the trailer by the CRC field of the header. -/
theorem builtPacketsCarryTheirFieldsAndPassTheirCrc : Obligations.BuiltPacketsCarryTheirFieldsAndPassTheirCrc := by
  refine ⟨fun s => ⟨?fields, ?trailer, crcOkWp_mkHeader s⟩, fun sid payload tag => ?voice⟩
  case fields =>
    have hbody : (mkHeader s).toList.take 54 = (headerBody s).toList := List.take_left' (headerBody s).size
    rw [hbody]
    simp [headerBody, wpPreamble, be16_toList, Config.wpMagic, Config.cfgHdr, Config.idVal, Config.flagsVal,
      Config.hdrCtrl]
  case trailer =>
    obtain ⟨-, -, -, -, -, -, -, -, -, -, -, hcrc⟩ := mkHeader_fields s
    rw [drop_eq_slice_two (mkHeader s) (k := 54) rfl, hcrc, le16_toList]
    rfl
  case voice =>
    rw [mkVoice_toList]
    simp [Config.wpMagic, Config.cfgVoice, Config.idVal, Config.flagsVal, Config.slow3]

/-- The frame number of a closing frame, as a number (R285). -/
theorem closingFn_eq (fn : Half) : closingFn fn = BitVec.ofNat 16 ((fn.toNat + 1) % 0x8000 + 0x8000) := by
  have hlt : (fn.toNat + 1) % 0x8000 < 2 ^ 15 := Nat.mod_lt _ (by decide)
  have hlow : (fn.toNat + 1) % 2 ^ 16 &&& 2 ^ 15 - 1 = (fn.toNat + 1) % 0x8000 := by
    rw [Nat.and_two_pow_sub_one_eq_mod]
    omega
  have hor : (fn.toNat + 1) % 0x8000 ||| 2 ^ 15 = (fn.toNat + 1) % 0x8000 + 2 ^ 15 := by
    have hsum := Nat.two_pow_add_eq_or_of_lt hlt 1
    rw [Nat.mul_one] at hsum
    rw [Nat.lor_comm, ← hsum, Nat.add_comm]
  have hright : (BitVec.ofNat 16 ((fn.toNat + 1) % 0x8000 + 0x8000)).toNat = (fn.toNat + 1) % 0x8000 + 2 ^ 15 :=
    Nat.mod_eq_of_lt (by omega)
  apply BitVec.eq_of_toNat_eq
  rw [hright, closingFn, BitVec.toNat_or, BitVec.toNat_and, BitVec.toNat_add]
  exact (congrArg (· ||| 2 ^ 15) hlow).trans hor

/-- Every field of a closing frame stands at its offset (R87, R285). -/
theorem mkClosing_fields (r : RelayRegs) :
    (mkClosing r).toList.take 20 = Config.m17Magic.toList ++ (r.li.toList ++ (be16 r.sid).toList) ∧
    (mkClosing r).slice 20 2 = be16 (closingFn r.fn) ∧
    ((mkClosing r).toList.drop 22).take 16 = (silence (liType r.li)).toList ∧
    (mkClosing r).toList.take 38 = (closingBody r).toList ∧
    (mkClosing r).slice 38 2 = le16 (crc16x (closingBody r).toList) := by
  refine ⟨?_, FixedList.ext_toList ?_, ?_, List.take_left' (closingBody r).size, FixedList.ext_toList ?_⟩
  all_goals simp [mkClosing, closingBody, FixedList.slice, List.drop_append, List.take_append, fixedList_drop_past,
    Config.m17Magic]

theorem m17Fn_mkClosing (r : RelayRegs) : m17Fn (mkClosing r) = closingFn r.fn := by
  obtain ⟨-, hfn, -⟩ := mkClosing_fields r
  rw [m17Fn, hfn, fromBe16_be16]

theorem crcOkM17_mkClosing (r : RelayRegs) : crcOkM17 (mkClosing r) = true := by
  obtain ⟨-, -, -, hbody, hcrc⟩ := mkClosing_fields r
  rw [crcOkM17, hcrc, fromLe16_le16, hbody, beq_self_eq_true]

/-- Settles O48. -/
theorem closingFrameBearsLastAndPassesItsCrc : Obligations.ClosingFrameBearsLastAndPassesItsCrc := by
  intro r
  obtain ⟨hhead, -, hsilence, -, -⟩ := mkClosing_fields r
  refine ⟨?head, ?fn, ?silence, (crcOkM17_iff _).mp (crcOkM17_mkClosing r)⟩
  case head =>
    rw [hhead, be16_toList, List.append_assoc]
    rfl
  case fn => rw [← m17Fn_eq, m17Fn_mkClosing, closingFn_eq]
  case silence => rw [hsilence, liType, be16_slice]

/-! ## Packets received -/

/-- `RX_PACKET` is the enabled case of R188, or is held. -/
theorem exec_rxPacket (src : RxSource) (pkt : WirePacket) (s : State) :
    exec (.rxPacket src pkt) s = orHeld s (rxPhase pkt s) := rfl

/-- A packet of the wrong magic or of neither `config` is dropped (R188). -/
theorem rxPhase_bad_format {pkt : WirePacket} (s : State)
    (h : pkt.toList.take 4 ≠ [0x44#8, 0x53#8, 0x56#8, 0x54#8] ∨
      pkt.toList.getD 4 0#8 ≠ 0x10#8 ∧ pkt.toList.getD 4 0#8 ≠ 0x20#8) : rxPhase pkt s = some (s.log .format) := by
  unfold rxPhase
  by_cases hmagic : wpMagic pkt = Config.wpMagic
  · obtain ⟨hhdr, hvoice⟩ := h.resolve_left (not_not.mpr ((wpMagic_eq_iff pkt).mp hmagic))
    rw [if_neg (not_not.mpr hmagic), if_neg (show ¬ wpConfig pkt = Config.cfgHdr from hhdr),
      if_neg (show ¬ wpConfig pkt = Config.cfgVoice from hvoice)]
  · rw [if_pos hmagic]

/-- Settles O27: the format, the CRC and the session, in the order of the checks. -/
theorem receivedHeaderStartsOrRefreshesASession : Obligations.ReceivedHeaderStartsOrRefreshesASession := by
  intro src pkt s
  refine ⟨?format, ?crc, ?accept⟩
  case format =>
    intro hbad
    rw [exec_rxPacket, rxPhase_bad_format s hbad]
    rfl
  case crc =>
    intro hmagic hconfig hcrc
    have hbad : ¬ crcOkWp pkt = true := fun hok => hcrc ((crcOkWp_iff pkt).mp hok)
    rw [exec_rxPacket, rxPhase_header s hmagic hconfig, rxHeader, if_pos (by simp [hbad])]
    rfl
  case accept =>
    intro hmagic hconfig hcrc
    have hok : crcOkWp pkt = true := (crcOkWp_iff pkt).mpr hcrc
    rw [exec_rxPacket, rxPhase_header s hmagic hconfig, rxHeader, if_neg (by simp [hok]), wpStreamId_eq]
    cases hactive : s.rx.active with
    | false => rfl
    | true =>
      change Host.Outcome.next { s with rx := ⟨s.rx.active, _⟩ } = _
      rw [hactive]
      rfl

/-- Settles O28: the stream id, the room in `CQ_RX`, and the end marker. -/
theorem receivedVoiceIsEnqueuedOrDropped : Obligations.ReceivedVoiceIsEnqueuedOrDropped := by
  intro src pkt s hmagic hconfig
  have hexec : exec (.rxPacket src pkt) s = orHeld s (rxVoice pkt s) := by
    rw [exec_rxPacket, rxPhase_voice s hmagic hconfig]
  rw [← wpStreamId_eq, hexec]
  refine ⟨?foreign, ?accept⟩
  case foreign =>
    intro hforeign
    have hdrop : (!s.rx.active || wpStreamId pkt != s.rx.sid) = true := by simpa using hforeign
    rw [rxVoice, if_pos hdrop]
    rfl
  case accept =>
    intro hactive hsid
    have hkeep : ¬ (!s.rx.active || wpStreamId pkt != s.rx.sid) = true := by simp [hactive, hsid]
    rw [rxVoice, if_neg hkeep]
    cases qFull .cqRx s.queues.cqRx <;> rfl

/-- Settles O29: what `mkHeader_fields` and `mkVoice_fields` say of the packets built meets the cases of R189 and
R190. -/
theorem packetsBuiltAreReceivedUnchanged : Obligations.PacketsBuiltAreReceivedUnchanged := by
  refine ⟨?header, ?voice⟩
  case header =>
    intro src x s hidle
    obtain ⟨hmagic, hconfig, -⟩ := mkHeader_fields x
    rw [exec_rxPacket, rxPhase_header s ((wpMagic_eq_iff _).mp hmagic) hconfig, rxHeader,
      if_neg (by simp [crcOkWp_mkHeader]), if_neg (by simp [hidle]), wpStreamId_mkHeader]
    exact ⟨_, rfl, rfl, rfl, rfl, rfl, rfl⟩
  case voice =>
    intro src f s hactive hroom
    obtain ⟨hmagic, hconfig, -, -, -, hcontrol, hpayload, -⟩ := mkVoice_fields s.rx.sid f.payload f.tag
    have hkeep : ¬ (!s.rx.active || wpStreamId (mkVoice s.rx.sid f.payload f.tag) != s.rx.sid) = true := by
      simp [hactive, wpStreamId_mkVoice]
    rw [exec_rxPacket, rxPhase_voice s ((wpMagic_eq_iff _).mp hmagic) hconfig, rxVoice, if_neg hkeep,
      if_neg (by simp [hroom]), hcontrol, hpayload]
    refine ⟨_, rfl, rfl, ?_⟩
    change (if endMark f.tag then (⟨false, 0#16⟩ : RxRegs) else s.rx).active = !endMark f.tag
    cases endMark f.tag
    · exact hactive
    · rfl

end Sys2Proof.Machine

/-! The gateway engine (44_link.md R230 to R264): its operations as a handler and then the timers, the handlers case
by case, and the timers as one equation. -/

namespace Sys2Proof.Machine

/-! ## The operations of the gateway -/

section
variable {now : Time} {s : State} (hrun : s.gwRun = true) (htime : s.lastNow ≤ now)
include hrun htime

theorem exec_linkReq (code : Code) (m : Byte) :
    exec (.linkReq now code m) s = .next (evalTimers now (linkReqHandler now code m { s with lastNow := now })) :=
  gatewayOp_run hrun htime

theorem exec_unlinkReq :
    exec (.unlinkReq now) s = .next (evalTimers now (unlinkReqHandler { s with lastNow := now })) :=
  gatewayOp_run hrun htime

theorem exec_udpRx (sock : BitVec 1) (addr : BitVec Config.addrW) (d : List Byte) :
    exec (.udpRx now sock addr d) s =
      .next (evalTimers now (datagramHandler now ⟨sock, addr⟩ d { s with lastNow := now })) :=
  gatewayOp_run hrun htime

theorem exec_localRx (m : List Byte) :
    exec (.localRx now m) s = .next (evalTimers now (localHandler now m { s with lastNow := now })) :=
  gatewayOp_run hrun htime

theorem exec_tick : exec (.tick now) s = .next (evalTimers now { s with lastNow := now }) :=
  gatewayOp_run hrun htime

theorem exec_m17Rx (src : NetAddr) (f : M17Frame) :
    exec (.m17Rx now src f) s = .next (m17Handler now f { s with lastNow := now }) :=
  gatewayHandler_run hrun htime

end

/-- Settles O34. -/
theorem gatewayOperationsRunTheirHandlerThenTheTimers : Obligations.GatewayOperationsRunTheirHandlerThenTheTimers := by
  intro now s hrun htime
  exact ⟨exec_udpRx hrun htime, exec_localRx hrun htime, exec_tick hrun htime, exec_linkReq hrun htime,
    exec_unlinkReq hrun htime⟩

/-- A handler of the gateway is refused before `GW_INIT` and on a decreasing time (R309, R341). -/
theorem gatewayHandler_refused {now : Time} {s : State} (h : s.gwRun = false ∨ now < s.lastNow)
    (handler : State → State) :
    gatewayHandler now handler s = .refused (if s.gwRun = false then .gatewayNotRunning else .timeDecreased) := by
  cases hrun : s.gwRun with
  | false => simp [gatewayHandler, hrun]
  | true =>
    have hlt : now < s.lastNow := h.resolve_left (by simp [hrun])
    simp [gatewayHandler, hrun, hlt]

/-- Settles O35: every one of the operations is a handler, with the timers or without. -/
theorem gatewayOperationsAreRefusedBeforeInitAndOnDecreasingTime :
    Obligations.GatewayOperationsAreRefusedBeforeInitAndOnDecreasingTime := by
  intro now src s hstop i hi
  have refused (handler : State → State) := gatewayHandler_refused hstop handler
  have refusedOp (handler : State → State) := refused fun s => evalTimers now (handler s)
  rcases hi with rfl | rfl | ⟨code, m, rfl⟩ | ⟨d, rfl⟩ | ⟨m, rfl⟩ | rfl | rfl | rfl | ⟨c, rfl⟩ | ⟨c, rfl⟩ | ⟨f, rfl⟩ |
    ⟨d, rfl⟩
  · exact refusedOp id
  · exact refusedOp unlinkReqHandler
  · exact refusedOp (linkReqHandler now code m)
  · exact refusedOp (datagramHandler now src d)
  · exact refusedOp (localHandler now m)
  · exact refused (acknHandler now src)
  · exact refused (nackHandler src)
  · exact refused (disc4Handler src)
  · exact refused (pingHandler now src)
  · exact refused (disc10Handler src)
  · exact refused (m17Handler now f)
  · exact refused (unknownHandler d)

/-- The row of a datagram is the handler that `UDP_RX` runs for it (R232). -/
theorem exec_toInstr (now : Time) (src : NetAddr) (d : List Byte) (s : State) :
    exec (decodeDatagram now src d) s = gatewayHandler now (datagramHandler now src d) s := by
  have row : ∀ x, classifyDatagram d = x →
      exec (x.toInstr now src) s = gatewayHandler now (datagramHandler now src d) s := by
    intro x hx
    cases x <;> (simp only [gatewayHandler, datagramHandler, hx]; rfl)
  exact row _ rfl

/-- Settles O36. -/
theorem udpReceiveRunsTheRowItsDatagramDecodesTo : Obligations.UdpReceiveRunsTheRowItsDatagramDecodesTo := by
  intro now src d s t hrow
  rw [exec_toInstr] at hrow
  obtain ⟨hrun, htime, rfl⟩ := gatewayHandler_cases hrow
  exact exec_udpRx hrun htime src.sock src.addr d

/-- Settles O33. -/
theorem gatewayInitStartsTheEngineOrReportsFailure : Obligations.GatewayInitStartsTheEngineOrReportsFailure := by
  intro s0 s1 ch s
  have hexec : exec (.gwInit s0 s1 ch) s = execGwInit s0 s1 ch s := rfl
  rw [hexec, execGwInit]
  refine ⟨?opened, ?failed, fun hrun => if_pos hrun⟩
  case opened =>
    rintro hstop ⟨rfl, rfl, rfl⟩
    rw [if_neg (by simp [hstop]), if_pos (show (true && true && true) = true from rfl)]
    rfl
  case failed =>
    intro hstop hclosed
    have hall : ¬ (s0 && s1 && ch) = true := by
      rcases hclosed with rfl | rfl | rfl <;> simp
    rw [if_neg (by simp [hstop]), if_neg hall, State.emit, State.log, List.append_assoc]
    rfl

/-! ## The timers (R241, R284) -/

theorem linkExpired_iff {now : Time} {s : State} :
    linkExpired now s = true ↔ s.link.state = .linking ∧ Config.tLinkMs ≤ (now - s.link.tLink).toNat := by
  simp [linkExpired]

theorem pingExpired_iff {now : Time} {s : State} :
    pingExpired now s = true ↔ s.link.state = .linked ∧ 30000 ≤ (now - s.link.tPing).toNat := by
  rw [pingExpired, Bool.and_eq_true, decide_eq_true_eq, decide_eq_true_eq]
  rfl

theorem relayExpired_iff {now : Time} {s : State} :
    relayExpired now s = true ↔ s.relay.active = true ∧ 2000 ≤ (now - s.relay.tLast).toNat := by
  rw [relayExpired, Bool.and_eq_true, decide_eq_true_eq]
  rfl

/-- The relay timer writes the relay session and the trace. -/
theorem relayTimeout_eq (now : Time) (s : State) : relayTimeout now s = { s with
    relay := if relayExpired now s then { s.relay with active := false } else s.relay
    trace := s.trace ++ if relayExpired now s then [.localTx (mkClosing s.relay).toList] else [] } := by
  unfold relayTimeout
  cases relayExpired now s with
  | true => rfl
  | false => simp

/-- `eval_timers` as one equation: the two link timers exclude one another, and neither touches the relay session. -/
theorem evalTimers_eq (now : Time) (s : State) : evalTimers now s = { s with
    link := if linkExpired now s ∨ pingExpired now s then { s.link with state := .unlinked, peerValid := false }
      else s.link
    relay := if relayExpired now s then { s.relay with active := false } else s.relay
    trace := s.trace ++ (if pingExpired now s then [.routeRelease s.link.target] else []) ++
      (if relayExpired now s then [.localTx (mkClosing s.relay).toList] else []) } := by
  have hrelay : ∀ r, relayExpired now (toUnlinked r s) = relayExpired now s := fun r => by simp [relayExpired]
  cases hlink : linkExpired now s with
  | true =>
    have hping : pingExpired now s = false := by simp [pingExpired, (linkExpired_iff.mp hlink).1]
    have hafter : pingExpired now (toUnlinked false s) = false := by simp [pingExpired]
    simp [evalTimers, relayTimeout_eq, hlink, hping, hafter, hrelay]
  | false =>
    cases hping : pingExpired now s with
    | true =>
      simp [evalTimers, relayTimeout_eq, hlink, hping, hrelay]
    | false => simp [evalTimers, relayTimeout_eq, hlink, hping]

/-- Settles O44: `evalTimers_eq` with the conditions of the three timers written out. -/
theorem tickExpiresEachTimerAtItsLimit : Obligations.TickExpiresEachTimerAtItsLimit := by
  intro now s hrun htime
  rw [exec_tick hrun htime, evalTimers_eq]
  simp only [linkExpired_iff, pingExpired_iff, relayExpired_iff]

end Sys2Proof.Machine

/-! The handlers of the gateway (44_link.md R233 to R264; 45_relay.md R281 to R283), each by the checks that its rule
makes. -/

namespace Sys2Proof.Machine

/-! ## Link requests -/

/-- Settles O38: the link state, the code and the route, in the order of R234. -/
theorem linkRequestSendsConnAndStartsLinking : Obligations.LinkRequestSendsConnAndStartsLinking := by
  intro now code m s hrun htime
  rw [exec_linkReq hrun htime, linkReqHandler]
  refine ⟨?valid, ?invalid, ?busy⟩
  case valid =>
    intro hidle hcode
    rw [if_neg (not_not.mpr hidle), if_neg fun h => BitVec.not_lt.mpr hcode (csInvalid_iff.mp h)]
    cases Config.route code <;> rfl
  case invalid =>
    intro hidle hcode
    rw [if_neg (not_not.mpr hidle), if_pos (csInvalid_iff.mpr hcode)]
    rfl
  case busy => exact fun hbusy => by rw [if_pos hbusy]

/-- Settles O39. -/
theorem unlinkRequestSendsDiscToThePeer : Obligations.UnlinkRequestSendsDiscToThePeer := by
  intro now s hrun htime
  rw [exec_unlinkReq hrun htime, unlinkReqHandler]
  refine ⟨fun hpeer => ?_, fun hnone => ?_⟩
  · rw [if_pos hpeer]
    rfl
  · rw [if_neg (by simp [hnone])]

/-! ## Control datagrams -/

/-- The check of a 4-byte control datagram where it fails (R233). -/
theorem not_valid4 {src : NetAddr} {s : State} (h : ¬ valid4 src s = true) : (!valid4 src s) = true := by
  simpa using h

theorem not_valid10 {src : NetAddr} {s : State} (h : ¬ valid10 src s = true) : (!valid10 src s) = true := by
  simpa using h

section
variable {s : State} {src : NetAddr} (now : Time)

theorem acknHandler_invalid (h : ¬ valid4 src s = true) : acknHandler now src s = s.log .peer :=
  if_pos (not_valid4 h)

theorem nackHandler_invalid (h : ¬ valid4 src s = true) : nackHandler src s = s.log .peer := if_pos (not_valid4 h)

theorem disc4Handler_invalid (h : ¬ valid4 src s = true) : disc4Handler src s = s.log .peer := if_pos (not_valid4 h)

theorem pingHandler_invalid (h : ¬ valid10 src s = true) : pingHandler now src s = s.log .peer :=
  if_pos (not_valid10 h)

theorem disc10Handler_invalid (h : ¬ valid10 src s = true) : disc10Handler src s = s.log .peer :=
  if_pos (not_valid10 h)

variable (hpeer : s.link.peerValid = true)
include hpeer

theorem acknHandler_linking (hstate : s.link.state = .linking) : acknHandler now s.link.peer s =
    { s with link := { s.link with state := .linked, tPing := now } } := by
  have hvalid : valid4 s.link.peer s = true := valid4_iff.mpr ⟨.inl hstate, hpeer, rfl⟩
  rw [acknHandler, if_neg (by simp [hvalid]), if_pos hstate]

theorem acknHandler_linked (hstate : s.link.state = .linked) : acknHandler now s.link.peer s = s := by
  have hvalid : valid4 s.link.peer s = true := valid4_iff.mpr ⟨.inr hstate, hpeer, rfl⟩
  rw [acknHandler, if_neg (by simp [hvalid]), if_neg (by simp [hstate])]

theorem nackHandler_linking (hstate : s.link.state = .linking) : nackHandler s.link.peer s = toUnlinked false s := by
  have hvalid : valid4 s.link.peer s = true := valid4_iff.mpr ⟨.inl hstate, hpeer, rfl⟩
  rw [nackHandler, if_neg (by simp [hvalid]), if_pos hstate]

theorem nackHandler_linked (hstate : s.link.state = .linked) : nackHandler s.link.peer s = s := by
  have hvalid : valid4 s.link.peer s = true := valid4_iff.mpr ⟨.inr hstate, hpeer, rfl⟩
  rw [nackHandler, if_neg (by simp [hvalid]), if_neg (by simp [hstate])]

theorem disc4Handler_linking (hstate : s.link.state = .linking) : disc4Handler s.link.peer s = toUnlinked false s := by
  have hvalid : valid4 s.link.peer s = true := valid4_iff.mpr ⟨.inl hstate, hpeer, rfl⟩
  rw [disc4Handler, if_neg (by simp [hvalid]), if_neg (by simp [hstate])]

theorem disc4Handler_linked (hstate : s.link.state = .linked) : disc4Handler s.link.peer s = toUnlinked true s := by
  have hvalid : valid4 s.link.peer s = true := valid4_iff.mpr ⟨.inr hstate, hpeer, rfl⟩
  rw [disc4Handler, if_neg (by simp [hvalid]), if_pos hstate]

theorem pingHandler_linked (hstate : s.link.state = .linked) : pingHandler now s.link.peer s =
    { s.emit (.udpTx s.link.peer (mkPong (s.csGet 0))) with link := { s.link with tPing := now } } := by
  have hvalid : valid10 s.link.peer s = true := valid10_iff.mpr ⟨hstate, hpeer, rfl⟩
  rw [pingHandler, if_neg (by simp [hvalid])]

theorem disc10Handler_linked (hstate : s.link.state = .linked) :
    disc10Handler s.link.peer s = toUnlinked true s := by
  have hvalid : valid10 s.link.peer s = true := valid10_iff.mpr ⟨hstate, hpeer, rfl⟩
  rw [disc10Handler, if_neg (by simp [hvalid])]

end

/-- Settles O40. -/
theorem controlDatagramsFromThePeerMoveTheLink : Obligations.ControlDatagramsFromThePeerMoveTheLink := by
  intro now s hrun htime hpeer
  have run (handler : State → State) := gatewayHandler_run (h := handler) hrun htime
  refine ⟨fun hstate => ⟨?_, ?_, ?_⟩, fun hstate => ⟨?_, ?_, ?_⟩⟩
  · exact (run _).trans (congrArg _ (acknHandler_linking (s := { s with lastNow := now }) now hpeer hstate))
  · exact (run _).trans (congrArg _ (nackHandler_linking (s := { s with lastNow := now }) hpeer hstate))
  · exact (run _).trans (congrArg _ (disc4Handler_linking (s := { s with lastNow := now }) hpeer hstate))
  · exact (run _).trans (congrArg _ (acknHandler_linked (s := { s with lastNow := now }) now hpeer hstate))
  · exact (run _).trans (congrArg _ (nackHandler_linked (s := { s with lastNow := now }) hpeer hstate))
  · exact (run _).trans (congrArg _ (disc4Handler_linked (s := { s with lastNow := now }) hpeer hstate))

/-- Settles O41. -/
theorem keepaliveDatagramsFromThePeerAreAnswered : Obligations.KeepaliveDatagramsFromThePeerAreAnswered := by
  intro now code s hrun htime hpeer hstate
  have run (handler : State → State) := gatewayHandler_run (h := handler) hrun htime
  exact ⟨(run _).trans (congrArg _ (pingHandler_linked (s := { s with lastNow := now }) now hpeer hstate)),
    (run _).trans (congrArg _ (disc10Handler_linked (s := { s with lastNow := now }) hpeer hstate))⟩

/-- Settles O42. -/
theorem invalidControlDatagramsAreLoggedAndChangeNothing :
    Obligations.InvalidControlDatagramsAreLoggedAndChangeNothing := by
  intro now src code s hrun htime
  have run (handler : State → State) := gatewayHandler_run (h := handler) hrun htime
  refine ⟨fun hbad i hi => ?four, fun hbad i hi => ?ten⟩
  case four =>
    have hinvalid : ¬ valid4 src { s with lastNow := now } = true := fun h => hbad (valid4_iff.mp h)
    rcases hi with rfl | rfl | rfl
    · exact (run _).trans (congrArg _ (acknHandler_invalid now hinvalid))
    · exact (run _).trans (congrArg _ (nackHandler_invalid hinvalid))
    · exact (run _).trans (congrArg _ (disc4Handler_invalid hinvalid))
  case ten =>
    have hinvalid : ¬ valid10 src { s with lastNow := now } = true := fun h => hbad (valid10_iff.mp h)
    rcases hi with rfl | rfl
    · exact (run _).trans (congrArg _ (pingHandler_invalid now hinvalid))
    · exact (run _).trans (congrArg _ (disc10Handler_invalid hinvalid))

/-- Settles O43. -/
theorem unknownDatagramsAreLoggedAndDiscarded : Obligations.UnknownDatagramsAreLoggedAndDiscarded := by
  intro now src d s hrun htime _
  have hexec : exec (.dgUnknown now src d) s = .next (unknownHandler d { s with lastNow := now }) :=
    gatewayHandler_run hrun htime
  rw [hexec, unknownHandler, unknownCode]
  split <;> rfl

/-! ## Outbound local frames -/

theorem resolvesToPeer_iff {dst : Code} {s : State} :
    resolvesToPeer dst s = true ↔ s.link.peerValid = true ∧ Config.route dst = some s.link.peer := by
  simp [resolvesToPeer]

theorem reqLink_and_unlinked_iff {dst : Code} {s : State} :
    (Config.reqLink dst && decide (s.link.state = .unlinked)) = true ↔
      Config.reqLink dst = true ∧ s.link.state = .unlinked := by
  simp

theorem m17MagicOk_iff {m : List Byte} : m17MagicOk m = true ↔ m.take 4 = [0x4D#8, 0x31#8, 0x37#8, 0x20#8] := by
  rw [m17MagicOk, beq_iff_eq]
  rfl

/-- Settles O45: the two checks, then the four cases of R261 with their conditions written out. -/
theorem localFramesAreRoutedByTheFirstCaseThatApplies : Obligations.LocalFramesAreRoutedByTheFirstCaseThatApplies := by
  intro now m s hrun htime
  rw [exec_localRx hrun htime, localHandler]
  refine ⟨?length, ?magic, ?routed⟩
  case length =>
    intro hlen
    rw [dif_neg hlen]
    rfl
  case magic =>
    intro hlen hmagic
    rw [dif_pos hlen, if_neg (fun hok => hmagic (m17MagicOk_iff.mp hok))]
    rfl
  case routed =>
    rintro f rfl hmagic
    rw [dif_pos f.size, if_pos (m17MagicOk_iff.mpr hmagic)]
    refine congrArg (fun t => Host.Outcome.next (evalTimers now t)) ?_
    refine if_congr resolvesToPeer_iff rfl (if_congr reqLink_and_unlinked_iff rfl (if_congr Iff.rfl rfl ?_))
    change (match Config.route (m17Dst f) with | some a => _ | none => _) = _
    rw [m17Dst]
    cases Config.route (fromBe48 (f.slice 4 6)) <;> rfl

/-! ## Inbound relayed frames -/

/-- A frame that the checks of R281 and R282 accept opens or refreshes the session under its own stream id
(R283). -/
theorem relayAccept_accepted {now : Time} {f : M17Frame} {s : State}
    (h : s.relay.active = true → m17StreamId f = s.relay.sid) :
    relayAccept now f s = State.emit { s with relay :=
      ⟨!lastMark (m17Fn f), m17StreamId f, now, m17LinkInfo f, m17Fn f⟩ } (.localTx f.toList) := by
  have hsid : (if s.relay.active then s.relay.sid else m17StreamId f) = m17StreamId f := by
    split
    · rename_i hactive
      exact (h hactive).symm
    · rfl
  have hkeep : ¬ (s.relay.active && m17StreamId f != s.relay.sid) = true := by
    intro hforeign
    obtain ⟨hactive, hne⟩ := Bool.and_eq_true_iff.mp hforeign
    exact bne_iff_ne.mp hne (h hactive)
  rw [relayAccept, if_neg hkeep, hsid]

/-- Settles O47: the magic, the CRC and the stream id, in the order of the checks. -/
theorem relayedFramesAreCheckedAndForwarded : Obligations.RelayedFramesAreCheckedAndForwarded := by
  intro now src f s hrun htime
  rw [exec_m17Rx hrun htime, m17Handler]
  refine ⟨?magic, ?crc, ?accept⟩
  case magic =>
    intro hmagic
    have hbad : ¬ m17MagicOk f.toList = true := fun hok => hmagic (m17MagicOk_iff.mp hok)
    rw [if_pos (by simpa using hbad)]
    rfl
  case crc =>
    intro hmagic hcrc
    have hbad : ¬ crcOkM17 f = true := fun hok => hcrc ((crcOkM17_iff f).mp hok)
    rw [if_neg (by simp [m17MagicOk_iff.mpr hmagic]), if_pos (by simpa using hbad)]
    rfl
  case accept =>
    intro hmagic hcrc
    rw [if_neg (by simp [m17MagicOk_iff.mpr hmagic]), if_neg (by simp [(crcOkM17_iff f).mpr hcrc]),
      ← m17StreamId_eq, ← m17Fn_eq]
    split
    · rename_i hforeign
      obtain ⟨hactive, hne⟩ := hforeign
      rw [relayAccept, if_pos (by simp [hactive, hne])]
      rfl
    · rename_i hsame
      have hsid : s.relay.active = true → m17StreamId f = s.relay.sid :=
        fun hactive => not_not.mp fun hne => hsame ⟨hactive, hne⟩
      have hlast : lastMark (m17Fn f) = (f.toList.getD 20 0#8).getLsbD 7 := by rw [m17Fn_eq, lastMark_append]
      rw [relayAccept_accepted (s := { s with lastNow := now }) hsid, hlast]
      rfl

end Sys2Proof.Machine

/-! The link law (44_link.md R264) and the relay law (45_relay.md R286): sequences of gateway operations, with the
timers after each. -/

namespace Sys2Proof.Machine

/-! ## What the timers leave -/

theorem evalTimers_link (now : Time) (s : State) : (evalTimers now s).link =
    if linkExpired now s ∨ pingExpired now s then { s.link with state := .unlinked, peerValid := false }
    else s.link := by
  rw [evalTimers_eq]

theorem evalTimers_relay (now : Time) (s : State) : (evalTimers now s).relay =
    if relayExpired now s then { s.relay with active := false } else s.relay := by
  rw [evalTimers_eq]

theorem evalTimers_trace (now : Time) (s : State) : (evalTimers now s).trace =
    s.trace ++ (if pingExpired now s then [.routeRelease s.link.target] else []) ++
      (if relayExpired now s then [.localTx (mkClosing s.relay).toList] else []) := by
  rw [evalTimers_eq]

theorem evalTimers_gwRun (now : Time) (s : State) : (evalTimers now s).gwRun = s.gwRun := by
  rw [evalTimers_eq]

theorem evalTimers_lastNow (now : Time) (s : State) : (evalTimers now s).lastNow = s.lastNow := by
  rw [evalTimers_eq]

/-- Where no timer has run out, the timers do nothing. -/
theorem evalTimers_of_running {now : Time} {s : State} (hlink : linkExpired now s = false)
    (hping : pingExpired now s = false) (hrelay : relayExpired now s = false) : evalTimers now s = s := by
  simp [evalTimers, relayTimeout, hlink, hping, hrelay]

theorem linkExpired_of_state_ne {now : Time} {s : State} (h : s.link.state ≠ .linking) : linkExpired now s = false := by
  simp [linkExpired, h]

theorem pingExpired_of_state_ne {now : Time} {s : State} (h : s.link.state ≠ .linked) : pingExpired now s = false := by
  simp [pingExpired, h]

theorem relayExpired_of_inactive {now : Time} {s : State} (h : s.relay.active = false) :
    relayExpired now s = false := by
  simp [relayExpired, h]

/-- Unlinked and with no relay session, no timer runs. -/
theorem evalTimers_of_unlinked {now : Time} {s : State} (hlink : s.link.state = .unlinked)
    (hrelay : s.relay.active = false) : evalTimers now s = s :=
  evalTimers_of_running (linkExpired_of_state_ne (by simp [hlink])) (pingExpired_of_state_ne (by simp [hlink]))
    (relayExpired_of_inactive hrelay)

/-! ## The link law -/

theorem execAll_pair {i j : Instr} {s t u : State} (hi : exec i s = .next t) (hj : exec j t = .next u) :
    execAll [i, j] s = .next u := by
  simp only [execAll, hi, hj]

theorem linkReqHandler_routed {now : Time} {code : Code} {a : NetAddr} (m : Byte) {s : State}
    (hidle : s.link.state = .unlinked) (hcode : code ≤ Config.csMax) (hroute : Config.route code = some a) :
    linkReqHandler now code m s = State.emit { s with link := ⟨.linking, true, a, code, m, now, s.link.tPing⟩ }
      (.udpTx a (mkConn (s.csGet 0) m)) := by
  rw [linkReqHandler, if_neg (not_not.mpr hidle), if_neg fun h => BitVec.not_lt.mpr hcode (csInvalid_iff.mp h),
    hroute]

theorem linkReqHandler_unrouted {now : Time} {code : Code} (m : Byte) {s : State}
    (hidle : s.link.state = .unlinked) (hcode : code ≤ Config.csMax) (hroute : Config.route code = none) :
    linkReqHandler now code m s = s := by
  rw [linkReqHandler, if_neg (not_not.mpr hidle), if_neg fun h => BitVec.not_lt.mpr hcode (csInvalid_iff.mp h),
    hroute]

theorem datagramHandler_ackn (now : Time) (src : NetAddr) (s : State) :
    datagramHandler now src tagAckn s = acknHandler now src s := rfl

theorem datagramHandler_nack (now : Time) (src : NetAddr) (s : State) :
    datagramHandler now src tagNack s = nackHandler src s := rfl

/-- What the law needs of the state after the request: the engine runs, there is no relay session, and the link is
linking to the peer `a` since `t0`, or timed out at once and is unlinked without a peer. -/
structure Requested (t0 : Time) (a : NetAddr) (code : Code) (s : State) : Prop where
  gwRun   : s.gwRun = true
  lastNow : s.lastNow = t0
  relay   : s.relay.active = false
  timeout : Config.tLinkMs = 0 → s.link.state = .unlinked ∧ s.link.peerValid = false
  linking : Config.tLinkMs ≠ 0 →
    s.link.state = .linking ∧ s.link.peerValid = true ∧ s.link.peer = a ∧ s.link.target = code

theorem exec_linkReq_routed {t0 : Time} {code : Code} {a : NetAddr} (m : Byte) {s : State} (hrun : s.gwRun = true)
    (htime : s.lastNow ≤ t0) (hidle : s.link.state = .unlinked) (hrelay : s.relay.active = false)
    (hcode : code ≤ Config.csMax) (hroute : Config.route code = some a) :
    ∃ t, exec (.linkReq t0 code m) s = .next t ∧ Requested t0 a code t := by
  rw [exec_linkReq hrun htime, linkReqHandler_routed (s := { s with lastNow := t0 }) m hidle hcode hroute]
  refine ⟨_, rfl, ?_, ?_, ?_, fun hzero => ?_, fun hpos => ?_⟩
  · rw [evalTimers_gwRun]
    exact hrun
  · rw [evalTimers_lastNow]
    rfl
  · rw [evalTimers_relay, if_neg (by rw [relayExpired_of_inactive (by exact hrelay)]; decide)]
    exact hrelay
  · have hexpired := linkExpired_iff (now := t0) (s := State.emit
      { s with lastNow := t0, link := ⟨.linking, true, a, code, m, t0, s.link.tPing⟩ }
      (.udpTx a (mkConn (s.csGet 0) m))) |>.mpr ⟨rfl, by rw [hzero]; exact Nat.zero_le _⟩
    rw [evalTimers_link, if_pos (.inl hexpired)]
    exact ⟨rfl, rfl⟩
  · rw [evalTimers_link, if_neg]
    · exact ⟨rfl, rfl, rfl, rfl⟩
    · rintro (hlink | hping)
      · obtain ⟨-, hle⟩ := linkExpired_iff.mp hlink
        simp only [emit_link, BitVec.sub_self] at hle
        exact hpos (Nat.le_zero.mp hle)
      · obtain ⟨hstate, -⟩ := pingExpired_iff.mp hping
        cases hstate

/-- A request that timed out at once has no peer whose answer is valid. -/
theorem Requested.answer_after_timeout {t0 : Time} {a : NetAddr} {code : Code} {s : State}
    (h : Requested t0 a code s) (t1 : Time) (hzero : Config.tLinkMs = 0) :
    ¬ valid4 a { s with lastNow := t1 } = true := by
  intro hvalid
  obtain ⟨-, hpeer, -⟩ := valid4_iff.mp hvalid
  exact absurd hpeer (by simp [h.timeout hzero])

section
variable {t0 t1 : Time} {a : NetAddr} {code : Code} {s : State} (h : Requested t0 a code s) (htime : t0 ≤ t1)
include h htime

/-- The answer of the peer runs on the state after the request. -/
theorem Requested.exec_udpRx (d : List Byte) : exec (.udpRx t1 a.sock a.addr d) s =
    .next (evalTimers t1 (datagramHandler t1 a d { s with lastNow := t1 })) :=
  Machine.exec_udpRx h.gwRun (by rw [h.lastNow]; exact htime) a.sock a.addr d

/-- ACKN links the requested peer. -/
theorem Requested.ackn (hpos : Config.tLinkMs ≠ 0) : exec (.udpRx t1 a.sock a.addr tagAckn) s =
    .next { s with lastNow := t1, link := { s.link with state := .linked, tPing := t1 } } := by
  obtain ⟨hstate, hvalid, rfl, -⟩ := h.linking hpos
  have hping : pingExpired t1
      { s with lastNow := t1, link := { s.link with state := .linked, tPing := t1 } } = false := by
    simp [pingExpired, Config.tPingMs]
  rw [h.exec_udpRx htime, datagramHandler_ackn, acknHandler_linking (s := { s with lastNow := t1 }) t1 hvalid hstate,
    evalTimers_of_running (linkExpired_of_state_ne (by simp)) hping (relayExpired_of_inactive h.relay)]

/-- NACK leaves the link unlinked and without a peer, however the request went. -/
theorem Requested.nack : ∃ t, exec (.udpRx t1 a.sock a.addr tagNack) s = .next t ∧
    t.link.state = .unlinked ∧ t.link.peerValid = false := by
  rw [h.exec_udpRx htime, datagramHandler_nack]
  by_cases hzero : Config.tLinkMs = 0
  · rw [nackHandler_invalid (h.answer_after_timeout t1 hzero),
      evalTimers_of_unlinked (by exact (h.timeout hzero).1) (by exact h.relay)]
    exact ⟨_, rfl, h.timeout hzero⟩
  · obtain ⟨hstate, hvalid, rfl, -⟩ := h.linking hzero
    rw [nackHandler_linking (s := { s with lastNow := t1 }) hvalid hstate,
      evalTimers_of_unlinked (by rfl) (by exact h.relay)]
    exact ⟨_, rfl, rfl, rfl⟩

end

/-- From `linked`, 30 s without a PING unlink and release the route once; before that a tick does nothing (R241). -/
theorem exec_tick_linked {t1 t2 : Time} {t : State} (hrun : t.gwRun = true) (htime : t.lastNow ≤ t2)
    (hstate : t.link.state = .linked) (hping : t.link.tPing = t1) (hrelay : t.relay.active = false) :
    ∃ u, exec (.tick t2) t = .next u ∧
      if 30000 ≤ (t2 - t1).toNat then u.link.state = .unlinked ∧ Emitted t u [.routeRelease t.link.target]
      else u.link = t.link ∧ Emitted t u [] := by
  have hexpired : pingExpired t2 { t with lastNow := t2 } = true ↔ 30000 ≤ (t2 - t1).toNat := by
    rw [pingExpired_iff, ← hping]
    exact ⟨And.right, fun hle => ⟨hstate, hle⟩⟩
  have hlink : linkExpired t2 { t with lastNow := t2 } = false := linkExpired_of_state_ne (by simp [hstate])
  have hclosed : relayExpired t2 { t with lastNow := t2 } = false := relayExpired_of_inactive hrelay
  refine ⟨_, exec_tick hrun htime, ?_⟩
  rw [Emitted, Emitted, evalTimers_link, evalTimers_trace, hlink, hclosed]
  by_cases hlate : 30000 ≤ (t2 - t1).toNat
  · rw [if_pos hlate, hexpired.mpr hlate]
    simp
  · have hearly : pingExpired t2 { t with lastNow := t2 } = false := by
      rw [← Bool.not_eq_true, hexpired]
      exact hlate
    rw [if_neg hlate, hearly]
    simp

/-- Settles O46: the request by `exec_linkReq_routed`, then the answer and the tick. -/
theorem linkRequestThenAnswerDecidesTheLink : Obligations.LinkRequestThenAnswerDecidesTheLink := by
  intro t0 t1 t2 code m s hrun htime h01 h12 hidle hrelay hcode
  cases hroute : Config.route code with
  | none =>
    refine ⟨_, exec_linkReq hrun htime code m, ?_⟩
    rw [linkReqHandler_unrouted (s := { s with lastNow := t0 }) m hidle hcode hroute,
      evalTimers_of_unlinked (by exact hidle) (by exact hrelay)]
    exact ⟨rfl, rfl⟩
  | some a =>
    obtain ⟨r, hreq, h⟩ := exec_linkReq_routed m hrun htime hidle hrelay hcode hroute
    refine ⟨?ackn, ?nack⟩
    case ackn =>
      by_cases hzero : Config.tLinkMs = 0
      · refine ⟨_, execAll_pair hreq (h.exec_udpRx h01 _), ?_⟩
        change if _ then (evalTimers t1 (acknHandler t1 a _)).link.state = _ else _
        rw [if_pos hzero, acknHandler_invalid t1 (h.answer_after_timeout t1 hzero),
          evalTimers_of_unlinked (by exact (h.timeout hzero).1) (by exact h.relay)]
        exact (h.timeout hzero).1
      · refine ⟨_, execAll_pair hreq (h.ackn h01 hzero), ?_⟩
        obtain ⟨-, -, hpeer, htarget⟩ := h.linking hzero
        rw [if_neg hzero]
        refine ⟨rfl, hpeer, rfl, ?_⟩
        rw [← htarget]
        exact exec_tick_linked (t := { r with lastNow := t1, link := { r.link with state := .linked, tPing := t1 } })
          h.gwRun h12 rfl rfl h.relay
    case nack =>
      obtain ⟨t, hans, ht⟩ := h.nack h01
      exact ⟨t, execAll_pair hreq hans, ht⟩

end Sys2Proof.Machine

/-! The relay law (45_relay.md R286): a gateway operation that accepts no frame leaves the relay session to its
timer. -/

namespace Sys2Proof.Machine

/-! ## Handlers that emit no frame -/

/-- A message put on the local channel. -/
def isLocalTx : Event → Bool := fun e => match e with | .localTx _ => true | _ => false

/-- The relay session, the time and the engine stay, and no frame is emitted. -/
structure Quiet (s t : State) : Prop where
  relay   : t.relay = s.relay
  lastNow : t.lastNow = s.lastNow
  gwRun   : t.gwRun = s.gwRun
  emitted : ∃ es, Emitted s t es ∧ es.filter isLocalTx = []

theorem Quiet.refl (s : State) : Quiet s s := ⟨rfl, rfl, rfl, [], (List.append_nil _).symm, rfl⟩

theorem quiet_log (s : State) (c : ErrCode) : Quiet s (s.log c) := ⟨rfl, rfl, rfl, [.log c], rfl, rfl⟩

theorem quiet_udpTx (s : State) (a : NetAddr) (d : List Byte) : Quiet s (s.emit (.udpTx a d)) :=
  ⟨rfl, rfl, rfl, [.udpTx a d], rfl, rfl⟩

theorem quiet_toUnlinked (release : Bool) (s : State) : Quiet s (toUnlinked release s) := by
  cases release with
  | false => exact ⟨rfl, rfl, rfl, [], (List.append_nil _).symm, rfl⟩
  | true => exact ⟨rfl, rfl, rfl, [.routeRelease s.link.target], rfl, rfl⟩

theorem quiet_linkReqHandler (now : Time) (code : Code) (m : Byte) (s : State) :
    Quiet s (linkReqHandler now code m s) := by
  unfold linkReqHandler
  split
  · exact .refl s
  · split
    · exact quiet_log s _
    · split
      · exact .refl s
      · exact ⟨rfl, rfl, rfl, [_], rfl, rfl⟩

theorem quiet_unlinkReqHandler (s : State) : Quiet s (unlinkReqHandler s) := by
  unfold unlinkReqHandler
  split
  · exact quiet_udpTx s _ _
  · exact .refl s

theorem quiet_acknHandler (now : Time) (src : NetAddr) (s : State) : Quiet s (acknHandler now src s) := by
  unfold acknHandler
  split
  · exact quiet_log s _
  · split
    · exact ⟨rfl, rfl, rfl, [], (List.append_nil _).symm, rfl⟩
    · exact .refl s

theorem quiet_nackHandler (src : NetAddr) (s : State) : Quiet s (nackHandler src s) := by
  unfold nackHandler
  split
  · exact quiet_log s _
  · split
    · exact quiet_toUnlinked false s
    · exact .refl s

theorem quiet_disc4Handler (src : NetAddr) (s : State) : Quiet s (disc4Handler src s) := by
  unfold disc4Handler
  split
  · exact quiet_log s _
  · split
    · exact quiet_toUnlinked true s
    · exact quiet_toUnlinked false s

theorem quiet_pingHandler (now : Time) (src : NetAddr) (s : State) : Quiet s (pingHandler now src s) := by
  unfold pingHandler
  split
  · exact quiet_log s _
  · exact ⟨rfl, rfl, rfl, [_], rfl, rfl⟩

theorem quiet_disc10Handler (src : NetAddr) (s : State) : Quiet s (disc10Handler src s) := by
  unfold disc10Handler
  split
  · exact quiet_log s _
  · exact quiet_toUnlinked true s

/-- A frame that is not accepted is logged (R281, R282). -/
theorem quiet_m17Handler (now : Time) {f : M17Frame} {s : State} (h : ¬ frameAccepted f.toList s) :
    Quiet s (m17Handler now f s) := by
  unfold m17Handler
  split
  · exact quiet_log s _
  · rename_i hmagic
    split
    · exact quiet_log s _
    · rename_i hcrc
      unfold relayAccept
      split
      · exact quiet_log s _
      · rename_i hsid
        simp only [Bool.not_eq_true', Bool.not_eq_false] at hmagic hcrc
        refine absurd ⟨f.size, m17MagicOk_iff.mp hmagic, (crcOkM17_iff f).mp hcrc, fun hactive => ?_⟩ h
        rw [← m17StreamId_eq]
        simpa [hactive] using hsid

theorem quiet_datagramHandler (now : Time) (src : NetAddr) {d : List Byte} {s : State} (h : ¬ frameAccepted d s) :
    Quiet s (datagramHandler now src d s) := by
  unfold datagramHandler
  cases hx : classifyDatagram d with
  | ackn => exact quiet_acknHandler now src s
  | nack => exact quiet_nackHandler src s
  | disc4 => exact quiet_disc4Handler src s
  | ping code => exact quiet_pingHandler now src s
  | disc10 code => exact quiet_disc10Handler src s
  | m17 f =>
    obtain rfl : d = f.toList := classifyDatagram_eq_iff.mp hx
    exact quiet_m17Handler now h
  | unknown d => exact quiet_log s _

theorem quiet_localHandler (now : Time) (m : List Byte) (s : State) : Quiet s (localHandler now m s) := by
  unfold localHandler
  split
  · split
    · unfold routeFrame
      split
      · split
        · exact quiet_udpTx s _ _
        · exact .refl s
      · split
        · exact quiet_linkReqHandler now _ _ s
        · split
          · exact quiet_unlinkReqHandler s
          · split
            · exact quiet_udpTx s _ _
            · exact .refl s
    · exact quiet_log s _
  · exact quiet_log s _

/-! ## One gateway operation -/

/-- A gateway operation that brings no accepted frame is a quiet handler and then the timers. -/
theorem exec_gatewayTime {i : Instr} {now : Time} {s : State} (hi : gatewayTime i = some now) (hrun : s.gwRun = true)
    (htime : s.lastNow ≤ now) (hframe : ∀ n sock addr d, i = .udpRx n sock addr d → ¬ frameAccepted d s) :
    ∃ u, exec i s = .next (evalTimers now u) ∧ Quiet { s with lastNow := now } u := by
  cases i with
  | linkReq n code m => cases hi; exact ⟨_, exec_linkReq hrun htime code m, quiet_linkReqHandler _ _ _ _⟩
  | unlinkReq n => cases hi; exact ⟨_, exec_unlinkReq hrun htime, quiet_unlinkReqHandler _⟩
  | udpRx n sock addr d =>
    cases hi
    exact ⟨_, exec_udpRx hrun htime sock addr d,
      quiet_datagramHandler _ _ (s := { s with lastNow := now }) (hframe _ _ _ _ rfl)⟩
  | localRx n m => cases hi; exact ⟨_, exec_localRx hrun htime m, quiet_localHandler _ _ _⟩
  | tick n => cases hi; exact ⟨_, exec_tick hrun htime, .refl _⟩
  | _ => cases hi

/-- The relay session after `s`, where its silence timer has run out or not, and the frames then emitted. -/
structure Relayed (expired : Bool) (s t : State) (es : List Event) : Prop where
  relay   : t.relay = if expired then { s.relay with active := false } else s.relay
  emitted : Emitted s t es
  frames  : es.filter isLocalTx = if expired then [.localTx (mkClosing s.relay).toList] else []

/-- Such an operation closes the relay session exactly when its silence timer has run out (R284). -/
theorem exec_relayed {i : Instr} {now : Time} {s : State} (hi : gatewayTime i = some now) (hrun : s.gwRun = true)
    (htime : s.lastNow ≤ now) (hframe : ∀ n sock addr d, i = .udpRx n sock addr d → ¬ frameAccepted d s) :
    ∃ t es, exec i s = .next t ∧ t.gwRun = true ∧ t.lastNow = now ∧ Relayed (relayExpired now s) s t es := by
  obtain ⟨u, hexec, hquiet⟩ := exec_gatewayTime hi hrun htime hframe
  obtain ⟨es, hes, hnone⟩ := hquiet.emitted
  have hrelay : u.relay = s.relay := hquiet.relay
  have hexpired : relayExpired now u = relayExpired now s := by rw [relayExpired, relayExpired, hrelay]
  refine ⟨_, es ++ ((if pingExpired now u then [.routeRelease u.link.target] else []) ++
    (if relayExpired now s then [.localTx (mkClosing s.relay).toList] else [])), hexec, ?_, ?_, ?_, ?_, ?_⟩
  · rw [evalTimers_gwRun, hquiet.gwRun]
    exact hrun
  · rw [evalTimers_lastNow, hquiet.lastNow]
  · rw [evalTimers_relay, hexpired, hrelay]
  · rw [Emitted, evalTimers_trace, hexpired, hrelay, hes, List.append_assoc, List.append_assoc]
  · rw [List.filter_append, hnone, List.filter_append]
    cases pingExpired now u <;> cases relayExpired now s <;> rfl

/-! ## A sequence of gateway operations -/

/-- The silence timer of a session that heard its last frame no later than now (R284). -/
theorem relayExpired_iff_le {now : Time} {s : State} (hactive : s.relay.active = true) (hpast : s.relay.tLast ≤ now) :
    relayExpired now s = true ↔ s.relay.tLast.toNat + 2000 ≤ now.toNat := by
  have hle : s.relay.tLast.toNat ≤ now.toNat := hpast
  rw [relayExpired_iff, BitVec.toNat_sub_of_le hpast]
  constructor
  · rintro ⟨-, h⟩
    omega
  · exact fun h => ⟨hactive, by omega⟩

/-- Whatever the timers do, a sequence of gateway operations that accept no frame runs through, and closes the
session when one comes at or after the limit. -/
theorem execAll_relayed (ops : List Instr) : ∀ (nows : List Time) (s : State), s.gwRun = true →
    ops.map gatewayTime = nows.map some → List.Pairwise (· ≤ ·) (s.lastNow :: nows) → acceptsNoFrame ops s →
    ∃ t es, execAll ops s = .next t ∧ Relayed (nows.any fun n => relayExpired n s) s t es := by
  induction ops with
  | nil =>
    intro nows s _ htimes _ _
    obtain rfl : nows = [] := by simpa using htimes.symm
    exact ⟨s, [], rfl, rfl, (List.append_nil _).symm, rfl⟩
  | cons i ops ih =>
    intro nows s hrun htimes hsorted hnone
    cases nows with
    | nil => cases htimes
    | cons now nows =>
      obtain ⟨hi, htimes⟩ := List.cons.inj htimes
      obtain ⟨hfirst, hrest⟩ := List.pairwise_cons.mp hsorted
      obtain ⟨hframe, hnone⟩ := hnone
      obtain ⟨t, es, hexec, hrun', hnow, hstep⟩ := exec_relayed hi hrun (hfirst now (by simp)) hframe
      obtain ⟨u, es', hall, hrest⟩ := ih nows t hrun' htimes (by rw [hnow]; exact hrest) (hnone t hexec)
      refine ⟨u, es ++ es', by simp only [execAll, hexec, hall], ?_⟩
      have hemitted : Emitted s u (es ++ es') := by
        rw [Emitted, hrest.emitted, hstep.emitted, List.append_assoc]
      have hrelay := hstep.relay
      rw [List.any_cons]
      cases hnowExpired : relayExpired now s with
      | true =>
        rw [hnowExpired, if_pos rfl] at hrelay
        have hover : (nows.any fun n => relayExpired n t) = false := by
          rw [List.any_eq_false]
          intro n _
          rw [relayExpired_of_inactive (by rw [hrelay])]
          decide
        refine ⟨?_, hemitted, ?_⟩
        · rw [hrest.relay, hover, hrelay]
          rfl
        · rw [List.filter_append, hstep.frames, hrest.frames, hover, hnowExpired]
          rfl
      | false =>
        rw [hnowExpired] at hrelay
        have hsame : (fun n => relayExpired n t) = fun n => relayExpired n s := by
          funext n
          rw [relayExpired, relayExpired, hrelay]
          rfl
        refine ⟨?_, hemitted, ?_⟩
        · rw [hrest.relay, hsame, hrelay]
          rfl
        · rw [List.filter_append, hstep.frames, hrest.frames, hsame, hnowExpired, hrelay]
          rfl

/-- Settles O49: by `execAll_relayed`, with the limit written as a number and the closing frame by O48. -/
theorem silentRelaySessionEndsWithExactlyOneClosingFrame :
    Obligations.SilentRelaySessionEndsWithExactlyOneClosingFrame := by
  intro ops nows s hrun hactive hpast htimes hsorted hnone
  obtain ⟨t, es, hall, hrelay, hemitted, hframes⟩ := execAll_relayed ops nows s hrun htimes hsorted hnone
  obtain ⟨hafter, -⟩ := List.pairwise_cons.mp hsorted
  have hlimit : ∀ n ∈ nows, (relayExpired n s = true ↔ s.relay.tLast.toNat + 2000 ≤ n.toNat) :=
    fun n hn => relayExpired_iff_le hactive (BitVec.le_trans hpast (hafter n hn))
  refine ⟨t, es, hall, hemitted, ?late, ?early⟩
  case late =>
    rintro ⟨n, hn, hle⟩
    have hany : (nows.any fun n => relayExpired n s) = true :=
      List.any_eq_true.mpr ⟨n, hn, (hlimit n hn).mpr hle⟩
    rw [hany] at hrelay hframes
    have hlast : lastMark (closingFn s.relay.fn) = true := by simp [lastMark, closingFn]
    refine ⟨hrelay, mkClosing s.relay, hframes, rfl, ?_, (crcOkM17_iff _).mp (crcOkM17_mkClosing s.relay)⟩
    rw [← lastMark_append _ ((mkClosing s.relay).toList.getD 21 0#8), ← m17Fn_eq, m17Fn_mkClosing, hlast]
  case early =>
    intro hlt
    have hnoneExpired : (nows.any fun n => relayExpired n s) = false := by
      rw [List.any_eq_false]
      intro n hn hexpired
      exact absurd ((hlimit n hn).mp hexpired) (Nat.not_le.mpr (hlt n hn))
    rw [hnoneExpired] at hrelay hframes
    exact ⟨hrelay, hframes⟩

end Sys2Proof.Machine

/-! Reset, session control and the stages, operation by operation (70_reset_and_hazards.md R330; 41_sequencer.md R143
to R154). -/

namespace Sys2Proof.Machine

/-! ## Reset and session control -/

/-- Whatever is presented, emitted and drawn, the rest of a reset state is that of R49. -/
theorem atReset_reset (p : List Request) (tr : List Event) (d : Nat) :
    AtReset { State.reset with pending := p, trace := tr, draws := d } where
  queues := rfl
  run := rfl
  hold := rfl
  my8 := rfl
  rptA := rfl
  rptB := rfl
  txDest := rfl
  txUr := rfl
  txSid := rfl
  seq := rfl
  hdrPending := rfl
  rx := rfl
  vocOpen := rfl
  cs := rfl
  gwRun := rfl
  link := rfl
  relay := ⟨rfl, rfl, rfl, rfl⟩
  relayLi := rfl
  errstat := rfl

/-- Settles O1. -/
theorem resetPutsEveryFieldAtItsResetValue : Obligations.ResetPutsEveryFieldAtItsResetValue :=
  ⟨atReset_reset [] [] 0, fun s => ⟨_, rfl, atReset_reset s.pending s.trace s.draws, (List.append_nil _).symm⟩⟩

theorem run_any_of_ne {r : RunBits} (h : r ≠ ⟨false, false, false, false, false, false, false⟩) : r.any = true := by
  by_contra hany
  exact h (runBits_eq_of_any_eq_false (eq_false_of_ne_true hany))

/-- Settles O2. -/
theorem startTxOpensATransmitSessionOrIsRefused : Obligations.StartTxOpensATransmitSessionOrIsRefused := by
  refine ⟨fun dest ur sid s hrun => exec_startTx_stopped hrun dest ur sid, ?running, ?illegal⟩
  case running => exact fun dest ur sid s hrun => if_pos (run_any_of_ne hrun)
  case illegal =>
    intro b l hb
    simp [decode, decodeCmd, decodeOperands, readCoded_illegal (Dest.ofCode_illegal hb)]

/-- Settles O3. -/
theorem stopTxRequestsTheEndOfARunningCapture : Obligations.StopTxRequestsTheEndOfARunningCapture := by
  refine fun s => ⟨exec_stopTx, fun hstopped => ?_⟩
  change execStopTx s = _
  rw [execStopTx, if_neg (by simp [hstopped])]

/-- Settles O4. -/
theorem startPlaybackStartsTheReceiveStagesOrIsRefused : Obligations.StartPlaybackStartsTheReceiveStagesOrIsRefused := by
  refine fun s => ⟨fun hstopped => ?_, fun hrun => if_pos (run_any_of_ne hrun)⟩
  change execStartPlayback s = _
  rw [execStartPlayback, if_neg (by rw [hstopped]; decide), hstopped]

/-- Settles O5. -/
theorem deviceCommandsWriteTheOpenBitAlone : Obligations.DeviceCommandsWriteTheOpenBitAlone :=
  fun _ => ⟨rfl, rfl⟩

/-- A `CFG_WR` of a listed register number decodes to the write of that register (R94, R96). -/
theorem decode_cfgWr (reg : CfgReg) (val : Bytes 8) :
    decode (.cmd (0x07#8 :: reg.code :: val.toList)) = .ok (.cfgWr reg val) :=
  decode_encode (i := .cfgWr reg val) rfl rfl

/-- Settles O6. -/
theorem configurationWriteReachesItsRegisterAlone : Obligations.ConfigurationWriteReachesItsRegisterAlone := by
  refine ⟨fun val s => ⟨rfl, rfl, rfl⟩,
    fun val => ⟨decode_cfgWr .my8 val, decode_cfgWr .rptA val, decode_cfgWr .rptB val⟩, fun b l hb => ?_⟩
  simp [decode, decodeCmd, decodeOperands, readCoded_illegal (CfgReg.ofCode_illegal hb)]

/-- Settles O7. -/
theorem captureTickNumbersAndMarksItsFrame : Obligations.CaptureTickNumbersAndMarksItsFrame := by
  intro st pcm s
  refine ⟨exec_capTick_stopped st pcm, exec_capTick_ioerr pcm, ?good, ?refused⟩
  case good =>
    intro hrun hroom
    rw [exec_capTick_ok pcm hrun, if_neg (by simp [hroom])]
    rfl
  case refused =>
    cases hrun : s.run.cap with
    | false => simp [exec_capTick_stopped st pcm hrun]
    | true =>
      cases st with
      | ioerr => simp [exec_capTick_ioerr pcm hrun]
      | ok =>
        rw [exec_capTick_ok pcm hrun]
        cases qFull .aqTx s.queues.aqTx <;> simp

/-! ## The stages -/

/-- A device error logged right after an event. -/
theorem log_emit (s : State) (e : Event) (c : ErrCode) :
    ((s.emit e).nextDraw).log c = { s with
      errstat := setErr s.errstat c, trace := s.trace ++ [e, .log c], draws := s.draws + 1 } := by
  simp [State.log, State.emit, State.nextDraw]

/-- Settles O9. -/
theorem enciStepTakesPutsOrIsHeld : Obligations.EnciStepTakesPutsOrIsHeld := by
  refine ⟨?take, ?closed, ?put, ?held⟩
  case take =>
    intro f l s hrun hhold haq
    have hphase : enciPhase s =
        some { s with queues := { s.queues with aqTx := l }, hold := { s.hold with enci := some f } } := by
      simp [enciPhase, hrun, hhold, haq]
    rw [exec_enciStep, hphase, orHeld_some]
  case closed =>
    intro f s hrun hhold hvoc
    rw [exec_enciStep, enciPhase_closed hvoc hrun hhold, orHeld_some]
    rfl
  case put =>
    intro f s hrun hhold hvoc hroom
    have hphase : enciPhase s = enciPut f s := by simp [enciPhase, hrun, hhold]
    rw [exec_enciStep, hphase, enciPut, if_neg (by simp [hvoc]), if_neg (by simp [hroom]), orHeld_some, log_emit, hrun,
      Bool.true_and]
    cases Config.sendAudioStatus s.draws <;> rfl
  case held =>
    intro s disabled
    cases hphase : enciPhase s with
    | none => rw [exec_enciStep, hphase, orHeld_none]
    | some t =>
      obtain ⟨hrun, ⟨f, l, hhold, haq, -⟩ | ⟨f, hhold, hput⟩⟩ := enciPhase_cases hphase
      · exact absurd ⟨hrun, .inl ⟨hhold, by simp [haq]⟩⟩ disabled
      · refine absurd ⟨hrun, .inr ⟨by simp [hhold], ?_⟩⟩ disabled
        exact (enciPut_cases hput).imp And.left fun ⟨_, hroom, _⟩ => hroom

/-- Settles O10. -/
theorem encoStepTakesPutsOrIsHeld : Obligations.EncoStepTakesPutsOrIsHeld := by
  refine ⟨?closed, ?take, ?put, ?held⟩
  case closed =>
    intro tag l s hrun hhold hsq hvoc
    rw [exec_encoStep, encoPhase_closed hvoc hrun hhold hsq, orHeld_some]
    rfl
  case take =>
    intro tag l s hrun hhold hsq hvoc
    have hphase : encoPhase s = some (encoTake tag l s) := by simp [encoPhase, hrun, hhold, hsq]
    rw [exec_encoStep, hphase, encoTake, if_neg (by simp [hvoc]), orHeld_some, hrun, Bool.true_and]
    cases Config.getDataStatus s.draws <;> rfl
  case put =>
    intro f s hrun hhold hroom
    have hphase : encoPhase s = some { s with
        queues := { s.queues with cqTx := s.queues.cqTx ++ [f] }
        hold := { s.hold with enco := none }
        run := { s.run with enco := !f.tag.getLsbD 6 } } := by
      simp [encoPhase, hrun, hhold, hroom, endMark]
    rw [exec_encoStep, hphase, orHeld_some]
  case held =>
    intro s disabled
    cases hphase : encoPhase s with
    | none => rw [exec_encoStep, hphase, orHeld_none]
    | some t =>
      obtain ⟨hrun, ⟨tag, l, hhold, hsq, -⟩ | ⟨f, hhold, hroom, -⟩⟩ := encoPhase_cases hphase
      · exact absurd ⟨hrun, .inl ⟨hhold, by simp [hsq]⟩⟩ disabled
      · exact absurd ⟨hrun, .inr ⟨by simp [hhold], hroom⟩⟩ disabled

/-- Settles O11. -/
theorem deciStepTakesPutsOrIsHeld : Obligations.DeciStepTakesPutsOrIsHeld := by
  refine ⟨?take, ?closed, ?put, ?held⟩
  case take =>
    intro f l s hrun hhold hcq
    have hphase : deciPhase s =
        some { s with queues := { s.queues with cqRx := l }, hold := { s.hold with deci := some f } } := by
      simp [deciPhase, hrun, hhold, hcq]
    rw [exec_deciStep, hphase, orHeld_some]
  case closed =>
    intro f s hrun hhold hvoc
    rw [exec_deciStep, deciPhase_closed hvoc hrun hhold, orHeld_some]
    rfl
  case put =>
    intro f s hrun hhold hvoc hroom
    have hphase : deciPhase s = deciPut f s := by simp [deciPhase, hrun, hhold]
    rw [exec_deciStep, hphase, deciPut, if_neg (by simp [hvoc]), if_neg (by simp [hroom]), orHeld_some, log_emit, hrun,
      Bool.true_and]
    cases Config.sendDataStatus s.draws <;> rfl
  case held =>
    intro s disabled
    cases hphase : deciPhase s with
    | none => rw [exec_deciStep, hphase, orHeld_none]
    | some t =>
      obtain ⟨hrun, ⟨f, l, hhold, hcq, -⟩ | ⟨f, hhold, hput⟩⟩ := deciPhase_cases hphase
      · exact absurd ⟨hrun, .inl ⟨hhold, by simp [hcq]⟩⟩ disabled
      · refine absurd ⟨hrun, .inr ⟨by simp [hhold], ?_⟩⟩ disabled
        exact (deciPut_cases hput).imp And.left fun ⟨_, hroom, _⟩ => hroom

/-- Settles O12. -/
theorem decoStepTakesPutsOrIsHeld : Obligations.DecoStepTakesPutsOrIsHeld := by
  refine ⟨?closed, ?take, ?put, ?held⟩
  case closed =>
    intro tag l s hrun hhold hsq hvoc
    rw [exec_decoStep, decoPhase_closed hvoc hrun hhold hsq, orHeld_some]
    rfl
  case take =>
    intro tag l s hrun hhold hsq hvoc
    have hphase : decoPhase s = some (decoTake tag l s) := by simp [decoPhase, hrun, hhold, hsq]
    rw [exec_decoStep, hphase, decoTake, if_neg (by simp [hvoc]), orHeld_some, hrun, Bool.true_and]
    cases Config.getAudioStatus s.draws <;> rfl
  case put =>
    intro f s hrun hhold hroom
    have hphase : decoPhase s = some { s with
        queues := { s.queues with aqRx := s.queues.aqRx ++ [f] }
        hold := { s.hold with deco := none }
        run := { s.run with deco := !f.tag.getLsbD 6 } } := by
      simp [decoPhase, hrun, hhold, hroom, endMark]
    rw [exec_decoStep, hphase, orHeld_some]
  case held =>
    intro s disabled
    cases hphase : decoPhase s with
    | none => rw [exec_decoStep, hphase, orHeld_none]
    | some t =>
      obtain ⟨hrun, ⟨tag, l, hhold, hsq, -⟩ | ⟨f, hhold, hroom, -⟩⟩ := decoPhase_cases hphase
      · exact absurd ⟨hrun, .inl ⟨hhold, by simp [hsq]⟩⟩ disabled
      · exact absurd ⟨hrun, .inr ⟨by simp [hhold], hroom⟩⟩ disabled

/-- Settles O13. -/
theorem playStepPutsTheOldestFrameOrIsHeld : Obligations.PlayStepPutsTheOldestFrameOrIsHeld := by
  have hexec : ∀ s, exec .playStep s = orHeld s (playPhase s) := fun _ => rfl
  refine ⟨?put, ?held⟩
  case put =>
    intro f l s hrun haq
    have hphase : playPhase s = some (playFrame f l s) := by simp [playPhase, hrun, haq]
    rw [hexec, hphase, orHeld_some, playFrame, log_emit, hrun, Bool.true_and]
    cases Config.playStatus s.draws <;> rfl
  case held =>
    intro s hstop
    cases hphase : playPhase s with
    | none => rw [hexec, hphase, orHeld_none]
    | some t =>
      obtain ⟨hrun, f, l, haq, -⟩ := playPhase_cases hphase
      rcases hstop with hstopped | hempty
      · rw [hrun] at hstopped; cases hstopped
      · rw [haq] at hempty; cases hempty

end Sys2Proof.Machine

/-! The codec's operations (43_callsign.md R213 to R216), the decoder's fixed words (30_encoding.md R97, R100), the step
(00_scope.md R6, R13) and the status port (10_state.md R46). -/

namespace Sys2Proof.Machine

/-! ## The codec's operations -/

/-- Settles O31. -/
theorem codecLoadsWriteOneRegisterOrNone : Obligations.CodecLoadsWriteOneRegisterOrNone := by
  refine ⟨?encoded, ?notEncoded, ?loaded, ?notLoaded, ?illegal⟩
  case encoded =>
    intro idx str s halpha
    obtain ⟨v, hv⟩ := exists_csEncode halpha
    refine ⟨v, hv, ?_⟩
    change execCsEnc idx str s = _
    rw [execCsEnc, hv]
    rfl
  case notEncoded =>
    intro idx str s hbad
    change execCsEnc idx str s = _
    rw [execCsEnc, csEncode_eq_none hbad]
    simp [State.emit, State.log, setErr, errNumber]
  case loaded =>
    intro idx code s hcode
    change execCsLoad idx code s = _
    rw [execCsLoad, if_neg fun h => BitVec.not_lt.mpr hcode (csInvalid_iff.mp h)]
    rfl
  case notLoaded =>
    intro idx code s hcode
    change execCsLoad idx code s = _
    rw [execCsLoad, if_pos (csInvalid_iff.mpr hcode)]
    simp [State.emit, State.log, setErr, errNumber]
  case illegal =>
    intro b l hb
    have hread (r : List Byte) : readCoded "idx" indexOfCode (b :: r) = .error (.illegalOperand "idx") :=
      readCoded_illegal (indexOfCode_illegal hb)
    constructor <;> simp [decode, decodeCmd, decodeOperands, hread]

/-- A register as the item at its index. -/
theorem getElem?_cs (s : State) (i : Fin Config.ncs) : s.cs.toList[i.val]? = some (s.csGet i) := by
  have hi : i.val < s.cs.toList.length := by rw [s.cs.size]; exact i.isLt
  rw [State.csGet, List.getD_eq_getElem _ _ hi, List.getElem?_eq_getElem hi]

/-- Settles O32. -/
theorem codecReadsReportWithoutWriting : Obligations.CodecReadsReportWithoutWriting := by
  refine ⟨?decoded, ?compared, ?illegal⟩
  case decoded =>
    intro idx s hvalid
    have hdecode := csDecode_valid hvalid
    refine ⟨_, hdecode, ?_⟩
    change execCsDec idx s = _
    rw [execCsDec, hdecode]
    rfl
  case compared =>
    intro i j s
    rw [getElem?_cs, getElem?_cs]
    simp only [Option.some.injEq]
    rfl
  case illegal =>
    intro b l hb
    have hread (name : String) (r : List Byte) :
        readCoded name indexOfCode (b :: r) = .error (.illegalOperand name) :=
      readCoded_illegal (indexOfCode_illegal hb)
    refine ⟨?_, ?_, fun c hc => ?_⟩
    · simp [decode, decodeCmd, decodeOperands, hread]
    · simp [decode, decodeCmd, decodeOperands, hread]
    · have hlegal : indexOfCode c = some ⟨c.toNat, hc⟩ := dif_pos hc
      simp [decode, decodeCmd, decodeOperands, readCoded_of hlegal, hread]

/-! ## Fixed words and reserved opcodes -/

/-- An opcode byte that R96 does not list is refused by name (R97). -/
theorem decodeOperands_reserved {opc : Byte} (l : List Byte)
    (h : 0x09 ≤ opc.toNat ∧ opc.toNat ≤ 0x0F ∨ 0x14 ≤ opc.toNat ∧ opc.toNat ≤ 0x1F ∨
      0x23 ≤ opc.toNat ∧ opc.toNat ≤ 0x2F ∨ 0x34 ≤ opc.toNat ∧ opc.toNat ≤ 0x3F ∨ 0x47 ≤ opc.toNat) :
    decodeOperands opc l = .error (.reservedOpcode opc) := by
  unfold decodeOperands
  split
  rotate_right
  · rfl
  all_goals omega

/-- Settles O57. -/
theorem listedWordsDecodeAndReservedOpcodesAreRefused : Obligations.ListedWordsDecodeAndReservedOpcodesAreRefused :=
  ⟨rfl, rfl, rfl, rfl, fun _ l h => decodeOperands_reserved l h⟩

/-! ## The step -/

/-- Settles O58. -/
theorem aStepRunsTheFirstOperationPresented : Obligations.AStepRunsTheFirstOperationPresented := by
  refine ⟨?run, ?bad, ?idle⟩
  case run =>
    intro r todo i s hpending hdecode hheld
    rw [step, choose, hpending, chooseFrom, hdecode]
    simp [hheld]
  case bad =>
    intro r todo e s hpending hdecode
    rw [step, choose, hpending, chooseFrom, hdecode]
  case idle =>
    intro s hpending
    rw [step, choose, hpending, chooseFrom]

/-- One of the requests `before` is a packet that is held. -/
def HeldPacketIn (s : State) (before : List Request) : Prop :=
  ∃ p ∈ before, ∃ j, decode p = .ok j ∧ inPacketStream j = true ∧ held j s = true

section
variable {s : State} {before : List Request} {w : Bool} {r : Request} {i : Instr}

/-- A request waits exactly where the choice passes it by. -/
theorem waits_iff (hw : w = true ↔ HeldPacketIn s before) (hr : decode r = .ok i) :
    waits s before r ↔ (held i s || (w && inPacketStream i)) = true := by
  rw [Bool.or_eq_true, Bool.and_eq_true, hw]
  constructor
  · rintro ⟨j, hj, h⟩
    obtain rfl : j = i := by simpa [hr] using hj.symm
    exact h.imp_right fun ⟨hstream, hpacket⟩ => ⟨hpacket, hstream⟩
  · exact fun h => ⟨i, hr, h.imp_right fun ⟨hpacket, hstream⟩ => ⟨hstream, hpacket⟩⟩

/-- Among the requests passed by there is a held packet exactly where there was one or the last is a packet: a packet
that waits is held itself, or is behind one that is. -/
theorem heldPacketIn_append (hw : w = true ↔ HeldPacketIn s before) (hr : decode r = .ok i)
    (hwaits : waits s before r) : (w || inPacketStream i) = true ↔ HeldPacketIn s (before ++ [r]) := by
  have hpass := (waits_iff hw hr).mp hwaits
  constructor
  · intro h
    cases hheld : w with
    | true =>
      obtain ⟨p, hp, hpacket⟩ := hw.mp hheld
      exact ⟨p, List.mem_append_left _ hp, hpacket⟩
    | false =>
      rw [hheld] at h hpass
      exact ⟨r, by simp, i, hr, by simpa using h, by simpa using hpass⟩
  · rintro ⟨p, hp, j, hj, hstream, hheld⟩
    rcases List.mem_append.mp hp with hp | hp
    · rw [hw.mpr ⟨p, hp, j, hj, hstream, hheld⟩]
      rfl
    · obtain rfl := List.mem_singleton.mp hp
      obtain rfl : j = i := by simpa [hr] using hj.symm
      rw [hstream, Bool.or_true]

end

/-- The choice passes by every request that waits. -/
theorem chooseFrom_ahead {s : State} (ahead : List Request) : ∀ (before rest : List Request) (w : Bool),
    (w = true ↔ HeldPacketIn s before) → (∀ a q b, ahead = a ++ q :: b → waits s (before ++ a) q) →
    ∃ w', (w' = true ↔ HeldPacketIn s (before ++ ahead)) ∧
      chooseFrom s before w (ahead ++ rest) = chooseFrom s (before ++ ahead) w' rest := by
  induction ahead with
  | nil => exact fun before rest w hw _ => ⟨w, by simpa using hw, by simp⟩
  | cons q ahead ih =>
    intro before rest w hw hall
    have hq : waits s before q := by simpa using hall [] q ahead rfl
    obtain ⟨i, hi, -⟩ := id hq
    have hrest : ∀ a p b, ahead = a ++ p :: b → waits s (before ++ [q] ++ a) p := by
      rintro a p b rfl
      simpa using hall (q :: a) p b rfl
    obtain ⟨w', hw', hchoose⟩ := ih (before ++ [q]) rest _ (heldPacketIn_append hw hi hq) hrest
    refine ⟨w', by simpa using hw', ?_⟩
    rw [List.cons_append, chooseFrom, hi]
    simp only [(waits_iff hw hi).mp hq, if_true, hchoose]
    simp

theorem not_heldPacketIn_nil (s : State) : false = true ↔ HeldPacketIn s [] := by
  simp [HeldPacketIn]

/-- Where everything presented waits, nothing changes. -/
theorem step_of_all_wait {s : State} (h : ∀ a q b, s.pending = a ++ q :: b → waits s a q) : step s = .next s := by
  obtain ⟨w, -, hchoose⟩ := chooseFrom_ahead s.pending [] [] false (not_heldPacketIn_nil s) (by simpa using h)
  rw [List.append_nil] at hchoose
  rw [step, choose, hchoose, chooseFrom]

/-- An operation that may be held changes nothing where it is not enabled. -/
theorem orHeld_of_isNone {s : State} {r : Option State} (h : r.isNone = true) : orHeld s r = .next s := by
  rw [Option.isNone_iff_eq_none.mp h, orHeld_none]

/-- An operation that is held changes nothing (R13). -/
theorem exec_of_held {i : Instr} {s : State} (h : held i s = true) : exec i s = .next s := by
  cases i with
  | rxPacket | oqPop | enciStep | encoStep | frHdr | frVoice | deciStep | decoStep | playStep | qPop =>
    exact orHeld_of_isNone h
  | qPush q e =>
    obtain ⟨hfits, hnone⟩ := Bool.and_eq_true_iff.mp h
    rw [exec_qPush s hfits, orHeld_of_isNone hnone]
  | _ => exact absurd h Bool.false_ne_true

/-- Settles O59. -/
theorem heldOperationsStayPresentedAndLetOthersRun : Obligations.HeldOperationsStayPresentedAndLetOthersRun := by
  refine ⟨?first, fun s => step_of_all_wait, ?packets, fun i s => exec_of_held⟩
  case first =>
    intro ahead todo r i s hpending hall hrun hi
    obtain ⟨w, hw, hchoose⟩ := chooseFrom_ahead ahead [] (r :: todo) false (not_heldPacketIn_nil s) (by simpa using hall)
    rw [List.nil_append] at hw hchoose
    rw [step, choose, hpending, hchoose, chooseFrom, hi]
    simp [eq_false_of_ne_true fun h => hrun ((waits_iff hw hi).mpr h)]
  case packets =>
    intro src src' pkt pkt' s hpending hheld
    have hfirst : decode (encode (.rxPacket src pkt)) = .ok (.rxPacket src pkt) := decode_encode rfl rfl
    have hsecond : decode (encode (.rxPacket src' pkt')) = .ok (.rxPacket src' pkt') := decode_encode rfl rfl
    apply step_of_all_wait
    intro a q b hsplit
    rw [hpending] at hsplit
    match a, hsplit with
    | [], hsplit =>
      obtain ⟨rfl, -⟩ := List.cons.inj hsplit
      exact ⟨_, hfirst, .inl hheld⟩
    | [p], hsplit =>
      obtain ⟨rfl, htail⟩ := List.cons.inj hsplit
      obtain ⟨rfl, -⟩ := List.cons.inj htail
      exact ⟨_, hsecond, .inr ⟨rfl, _, List.mem_singleton.mpr rfl, _, hfirst, rfl, hheld⟩⟩
    | _ :: _ :: _, hsplit => simp at hsplit

end Sys2Proof.Machine

/-! The status port (10_state.md R46): which numbers name registers, and the width and value of each read. -/

namespace Sys2Proof.Machine

/-! ## Values and their widths -/

theorem bitNat_eq_toNat (b : Bool) : bitNat b = b.toNat := by cases b <;> rfl

theorem bitNat_le (b : Bool) : bitNat b ≤ 1 := by cases b <;> decide

/-- `n` bytes spell a number of `8 n` bits. -/
theorem beNat_lt_two_pow {n w : Nat} (b : Bytes n) (hw : w = 8 * n) : beNat b.toList < 2 ^ w := by
  have hlt := beNat_lt b.toList
  rw [b.size] at hlt
  rwa [hw, pow_mul]

/-- One bit above `w` bits. -/
theorem bit_above_lt {w v : Nat} (b : Bool) (hv : v < 2 ^ w) : bitNat b * 2 ^ w + v < 2 ^ (w + 1) := by
  have hb : bitNat b * 2 ^ w ≤ 1 * 2 ^ w := Nat.mul_le_mul_right _ (bitNat_le b)
  rw [pow_succ]
  omega

theorem RunBits.word_lt (r : RunBits) : r.word < 2 ^ 7 := by
  obtain ⟨cap, enci, enco, fr, deci, deco, play⟩ := r
  have hbits := And.intro (bitNat_le cap) <| And.intro (bitNat_le enci) <| And.intro (bitNat_le enco) <|
    And.intro (bitNat_le fr) <| And.intro (bitNat_le deci) <| And.intro (bitNat_le deco) (bitNat_le play)
  simp only [RunBits.word]
  omega

theorem Dest.code_toNat_lt (d : Dest) : d.code.toNat < 2 ^ 2 := by cases d <;> decide

/-- The peer register: the valid bit, the socket and the address. -/
theorem peer_lt (valid : Bool) (peer : NetAddr) :
    bitNat valid * 2 ^ (Config.addrW + 1) + peer.sock.toNat * 2 ^ Config.addrW + peer.addr.toNat <
      2 ^ (2 + Config.addrW) := by
  have hvalid := bitNat_le valid
  have hsock := peer.sock.isLt
  have haddr := peer.addr.isLt
  simp only [Config.addrW] at haddr ⊢
  omega

/-- A read of a register of a given width fits it. -/
def RegRead.Fits (r : RegRead) : Prop := ∀ w, r.width = some w → r.value < 2 ^ w

theorem fits_some {w v : Nat} (h : v < 2 ^ w) : RegRead.Fits ⟨some w, v⟩ := by
  rintro _ ⟨⟩
  exact h

theorem statusRead_fits {s : State} {n : Byte} {r : RegRead} (h : statusRead s n = some r) : r.Fits := by
  unfold statusRead at h
  split at h
  all_goals try cases h
  · exact fits_some (beNat_lt_two_pow _ rfl)
  · exact fits_some (beNat_lt_two_pow _ rfl)
  · exact fits_some (beNat_lt_two_pow _ rfl)
  · exact fits_some (Dest.code_toNat_lt _)
  · exact fits_some (beNat_lt_two_pow _ rfl)
  · exact fits_some (BitVec.isLt _)
  · exact fits_some (BitVec.isLt _)
  · exact fits_some (Nat.lt_succ_of_le (bitNat_le _))
  · exact fits_some (RunBits.word_lt _)
  · exact fits_some (Nat.lt_succ_of_le (bitNat_le _))
  · exact fits_some (bit_above_lt _ (BitVec.isLt _))
  · exact fits_some (Nat.lt_succ_of_le (bitNat_le _))
  · exact fits_some (Nat.lt_succ_of_le (bitNat_le _))
  · exact fits_some (BitVec.isLt _)
  · exact fits_some (peer_lt _ _)
  · exact fits_some (BitVec.isLt _)
  · exact fits_some (BitVec.isLt _)
  · exact fits_some (BitVec.isLt _)
  · exact fits_some (BitVec.isLt _)
  · exact fits_some (bit_above_lt _ (BitVec.isLt _))
  · exact fits_some (BitVec.isLt _)
  · exact fits_some (beNat_lt_two_pow _ rfl)
  · exact fits_some (BitVec.isLt _)
  · exact fits_some (BitVec.isLt _)
  · split at h
    · obtain ⟨q, -, rfl⟩ := Option.map_eq_some_iff.mp h
      rintro _ ⟨⟩
    · split at h
      · cases h
        exact fits_some (BitVec.isLt _)
      · cases h

/-! ## The numbers that name registers -/

theorem queueOfNumber_eq_none_iff (k : Nat) : queueOfNumber k = none ↔ 9 ≤ k := by
  unfold queueOfNumber
  split
  rotate_right
  · simp only [imp_false] at *
    simp only [true_iff]
    omega
  all_goals simp

/-- The numbers of R46. -/
def ListedRegister (k : Nat) : Prop :=
  k ≤ 0x02 ∨ 0x10 ≤ k ∧ k ≤ 0x18 ∨ 0x20 ≤ k ∧ k ≤ 0x26 ∨ 0x28 ≤ k ∧ k ≤ 0x2B ∨ k = 0x30 ∨ 0x40 ≤ k ∧ k ≤ 0x43 ∨
    0x50 ≤ k ∧ k ≤ 0x58

theorem statusRead_eq_none_iff (s : State) (n : Byte) : statusRead s n = none ↔ ¬ ListedRegister n.toNat := by
  unfold statusRead ListedRegister
  split
  rotate_right
  · simp only [imp_false, Config.ncs] at *
    split
    · rw [Option.map_eq_none_iff, queueOfNumber_eq_none_iff]
      omega
    · split
      · simp only [reduceCtorEq, false_iff]
        omega
      · simp only [true_iff]
        omega
  all_goals
    simp only [reduceCtorEq, false_iff]
    omega

/-! ## Values -/

/-- A byte string as the sum of its bytes by weight, byte 0 the most significant. -/
theorem beNat_eq_sum (l : List Byte) :
    beNat l = ((List.range l.length).map fun k => (l.getD k 0#8).toNat * 256 ^ (l.length - 1 - k)).sum := by
  induction l with
  | nil => rfl
  | cons x l ih =>
    rw [beNat_cons, ih, List.length_cons, List.range_succ_eq_map, List.map_cons, List.sum_cons, List.map_map]
    congr 2
    apply List.map_congr_left
    intro k hk
    simp only [Function.comp_apply, List.getD_cons_succ]
    congr 2
    omega

/-- Settles O60: the numbers by `statusRead_eq_none_iff`, the widths by `statusRead_fits`, and each read by its
definition, the byte strings as sums. -/
theorem statusPortReadsGiveEachRegisterItsWidthAndValue :
    Obligations.StatusPortReadsGiveEachRegisterItsWidthAndValue := by
  refine ⟨statusRead_eq_none_iff, fun s n r w h => statusRead_fits h w, fun s => ?_⟩
  dsimp only
  simp only [← beNat_eq_sum, ← bitNat_eq_toNat]
  refine ⟨rfl, rfl, rfl, ?dest, rfl, rfl, rfl, rfl, rfl, rfl, ?rx, rfl, rfl, ?link, ?peer, rfl, rfl, rfl, rfl, ?relay,
    rfl, rfl, rfl, rfl, rfl, rfl, rfl, rfl, ?_, ?_, ?_, ?_, ?_, ?_, ?_, ?_, ?_⟩
  case dest =>
    change some (RegRead.mk (some 2) s.tx.dest.code.toNat) = _
    cases s.tx.dest <;> rfl
  case link =>
    change some (RegRead.mk (some 2) (linkStateCode s.link.state).toNat) = _
    cases s.link.state <;> rfl
  case rx => exact congrArg (fun v => some (RegRead.mk (some 17) (v + s.rx.sid.toNat))) (Nat.mul_comm _ _)
  case relay => exact congrArg (fun v => some (RegRead.mk (some 17) (v + s.relay.sid.toNat))) (Nat.mul_comm _ _)
  case peer =>
    exact congrArg₂ (fun v a => some (RegRead.mk (some 50) (v + a + s.link.peer.addr.toNat))) (Nat.mul_comm _ _)
      (Nat.mul_comm _ _)
  all_goals exact congrArg (fun v => some (RegRead.mk none v)) (List.length_map _)

end Sys2Proof.Machine
